-- ==== Sys2Proof/Word.lean ====
section
/-! DEFINITION. The word types of the hardware: the widths 00_scope.md R8 and 10_state.md give. -/

namespace Sys2Proof

/-- A packed byte, an entry, or a raster element as offered to the packer (`ELEM_W` = 8). -/
abbrev Byte := BitVec 8

/-- One raster bit: `true` is 1, `false` is 0 (log 10). -/
abbrev Bit := Bool

/-- A row or column number, `DIM_W` = 16 bits (R8). -/
abbrev Dim := BitVec 16

/-- An element, byte, bit or entry counter, `CNT_W` = 16 bits (R8). -/
abbrev Count := BitVec 16

end Sys2Proof
end

