-- ==== Sys2Proof/Config.lean ====
section
/-! DEFINITION. What is fixed for one piece of hardware: the parameter `CAP` and the two constants of the run-length convention. -/

namespace Sys2Proof

/-- 00_scope.md R5: `CAP` is a configuration argument with `1 <= CAP <= 65535`. The bounds are carried
by the value, so no later proof takes them as a premise. -/
structure Config where
  cap : Nat
  cap_pos : 1 ≤ cap
  cap_le : cap ≤ 65535
deriving DecidableEq, Repr

/-- R5: the value for this hardware, `CAP = 5000`. Only `State.reset` uses it; every action takes a `Config`, and `exec`
takes the one its state carries (log 5). -/
def Config.hw : Config := ⟨5000, by decide, by decide⟩

/-- R6: `RUN_MAX = 255`, the ceiling of one run-length entry. -/
def runMax : Byte := 255

/-- R7: `INIT_VAL = 1`, the implied value of the first entry of every frame, encoder and decoder alike. -/
def initVal : Bit := true

end Sys2Proof
end

