-- ==== Sys2Proof/Syntax.lean ====
section
/-! DEFINITION. The ops of the four units: one constructor of `Instr` for each row of spec/opcode_table.json, the mnemonics, and the raw form an assembler reads. -/

namespace Sys2Proof

/-- The four units (00_scope.md R1, R2). -/
inductive UnitId where
  | pk
  | up
  | en
  | de
deriving DecidableEq, Repr

/-- The four op classes (30_encoding.md R80). `close` is the class the spec writes END. -/
inductive OpClass where
  | start
  | data
  | close
  | rsvd
deriving DecidableEq, Repr

/-- A mnemonic is a unit and a class: `PK.START` is `⟨.pk, .start⟩`. -/
structure Mnemonic where
  unit : UnitId
  cls : OpClass
deriving DecidableEq, Repr

/-- One op of one unit. An operand has the width of its field (R81 to R84); the ignored bits of a word
are no part of the op (93_implementation_defined.md U12). -/
inductive Instr where
  /-- PK.START (R110). -/
  | pkStart
  /-- PK.DATA elem (R111): the next raster element. -/
  | pkData (elem : Byte)
  /-- PK.END (R112). -/
  | pkEnd
  /-- PK.RSVD (R113). -/
  | pkRsvd
  /-- UP.START rows, cols (R130). -/
  | upStart (rows cols : Dim)
  /-- UP.DATA byte (R131): the next packed byte. -/
  | upData (byte : Byte)
  /-- UP.END (R132). -/
  | upEnd
  /-- UP.RSVD (R133). -/
  | upRsvd
  /-- EN.START (R150). -/
  | enStart
  /-- EN.DATA bit (R151): the next bit of the stream. -/
  | enData (bit : Bit)
  /-- EN.END (R152). -/
  | enEnd
  /-- EN.RSVD (R153). -/
  | enRsvd
  /-- DE.START rows, cols (R170). -/
  | deStart (rows cols : Dim)
  /-- DE.DATA entry (R171): the next run-length entry. -/
  | deData (entry : Byte)
  /-- DE.END (R172). -/
  | deEnd
  /-- DE.RSVD (R173). -/
  | deRsvd
deriving DecidableEq, Repr

/-- The unit on whose input channel the op travels. -/
def Instr.unit : Instr → UnitId
  | .pkStart | .pkData _ | .pkEnd | .pkRsvd => .pk
  | .upStart _ _ | .upData _ | .upEnd | .upRsvd => .up
  | .enStart | .enData _ | .enEnd | .enRsvd => .en
  | .deStart _ _ | .deData _ | .deEnd | .deRsvd => .de

/-- The class of the op (R80). -/
def Instr.cls : Instr → OpClass
  | .pkStart | .upStart _ _ | .enStart | .deStart _ _ => .start
  | .pkData _ | .upData _ | .enData _ | .deData _ => .data
  | .pkEnd | .upEnd | .enEnd | .deEnd => .close
  | .pkRsvd | .upRsvd | .enRsvd | .deRsvd => .rsvd

/-- The mnemonic of the op. -/
def Instr.mnemonic (i : Instr) : Mnemonic := ⟨i.unit, i.cls⟩

/-- An op of one unit, seen from that unit: START's arguments are of type `A`, DATA's payload of type `P`.
The dispatch table R93 is written over this form. -/
inductive Op (A P : Type) where
  | start (args : A)
  | data (payload : P)
  | close
  | rsvd
deriving DecidableEq, Repr

/-- The ops of `bit_packer`, `bit_unpacker`, `rle_encoder`, `rle_decoder`. -/
abbrev PkOp := Op Unit Byte
abbrev UpOp := Op (Dim × Dim) Byte
abbrev EnOp := Op Unit Bit
abbrev DeOp := Op (Dim × Dim) Byte

/-- A packer op as an `Instr`. -/
def pkInstr : PkOp → Instr
  | .start _ => .pkStart
  | .data e => .pkData e
  | .close => .pkEnd
  | .rsvd => .pkRsvd

/-- An unpacker op as an `Instr`. -/
def upInstr : UpOp → Instr
  | .start a => .upStart a.1 a.2
  | .data b => .upData b
  | .close => .upEnd
  | .rsvd => .upRsvd

/-- An encoder op as an `Instr`. -/
def enInstr : EnOp → Instr
  | .start _ => .enStart
  | .data b => .enData b
  | .close => .enEnd
  | .rsvd => .enRsvd

/-- A decoder op as an `Instr`. -/
def deInstr : DeOp → Instr
  | .start a => .deStart a.1 a.2
  | .data e => .deData e
  | .close => .deEnd
  | .rsvd => .deRsvd

/-- An op as an assembler reads it (R89): a mnemonic and its operands, natural numbers of any size. -/
structure RawOp where
  mnemonic : Mnemonic
  operands : List Nat
deriving DecidableEq, Repr

/-- The raw form of an op, operands in the order R89 writes them. -/
def Instr.toRaw (i : Instr) : RawOp :=
  ⟨i.mnemonic,
    match i with
    | .pkData e => [e.toNat]
    | .upStart r c => [r.toNat, c.toNat]
    | .upData b => [b.toNat]
    | .enData b => [b.toNat]
    | .deStart r c => [r.toNat, c.toNat]
    | .deData e => [e.toNat]
    | .pkStart | .pkEnd | .pkRsvd | .upEnd | .upRsvd | .enStart | .enEnd | .enRsvd | .deEnd | .deRsvd => []⟩

end Sys2Proof
end

