-- ==== Sys2Proof/WellFormed.lean ====
section
/-! DEFINITION. What makes a raw op an op (its operands fit their fields, 30_encoding.md R89), and which operands are inside the units' contract (R81, R82, R84). -/

namespace Sys2Proof

/-- The widths of a mnemonic's operand fields, in the order R89 writes the operands (R81 to R84). -/
def Mnemonic.fieldWidths : Mnemonic → List Nat
  | ⟨.pk, .data⟩ => [8]
  | ⟨.up, .start⟩ => [16, 16]
  | ⟨.up, .data⟩ => [8]
  | ⟨.en, .data⟩ => [1]
  | ⟨.de, .start⟩ => [16, 16]
  | ⟨.de, .data⟩ => [8]
  | ⟨.pk, .start⟩ | ⟨.pk, .close⟩ | ⟨.pk, .rsvd⟩ | ⟨.up, .close⟩ | ⟨.up, .rsvd⟩
  | ⟨.en, .start⟩ | ⟨.en, .close⟩ | ⟨.en, .rsvd⟩ | ⟨.de, .close⟩ | ⟨.de, .rsvd⟩ => []

/-- As many operands as fields, and each below 2 to the width of its field. -/
def operandsFit : List Nat → List Nat → Bool
  | [], [] => true
  | w :: ws, v :: vs => decide (v < 2 ^ w) && operandsFit ws vs
  | [], _ :: _ | _ :: _, [] => false

/-- R89: "An operand that does not fit its field is an assembly error". Every `Instr` is well formed,
its operands having the width of their fields in its type. -/
def RawOp.wellFormed (r : RawOp) : Bool := operandsFit r.mnemonic.fieldWidths r.operands

/-- The contract on operands: an element is 0 or 1 (R81), a shape has both factors at least 1 and a
product of at most `CAP` (R82, R84). An op outside it is still an op: it raises when it is accepted. -/
def Instr.legal (c : Config) : Instr → Bool
  | .pkData e => decide (e = 0 ∨ e = 1)
  | .upStart r k | .deStart r k =>
    decide (1 ≤ r.toNat ∧ 1 ≤ k.toNat ∧ r.toNat * k.toNat ≤ c.cap)
  | .pkStart | .pkEnd | .pkRsvd | .upData _ | .upEnd | .upRsvd | .enStart | .enData _ | .enEnd | .enRsvd
  | .deData _ | .deEnd | .deRsvd => true

end Sys2Proof
end

