-- ==== Sys2Proof/Decode.lean ====
section
/-! DEFINITION. From op words to ops and back (30_encoding.md R80 to R86, R91, R92), and the opcode table as data. -/

namespace Sys2Proof

/-- R80: the class a 2-bit op field names. -/
def opClass (op : BitVec 2) : OpClass :=
  if op = 0 then .start
  else if op = 1 then .data
  else if op = 2 then .close
  else .rsvd

/-- R81, R92: the op of a `bit_packer` word, `op = s_word[9:8]`, `elem = s_word[7:0]`. -/
def decodePk (w : BitVec 10) : Instr :=
  match opClass (w.extractLsb' 8 2) with
  | .start => .pkStart
  | .data => .pkData (w.extractLsb' 0 8)
  | .close => .pkEnd
  | .rsvd => .pkRsvd

/-- R82, R92: the op of a `bit_unpacker` word, `op = s_word[33:32]`, `rows = s_word[31:16]`,
`cols = s_word[15:0]` (START), `byte = s_word[7:0]` (DATA). -/
def decodeUp (w : BitVec 34) : Instr :=
  match opClass (w.extractLsb' 32 2) with
  | .start => .upStart (w.extractLsb' 16 16) (w.extractLsb' 0 16)
  | .data => .upData (w.extractLsb' 0 8)
  | .close => .upEnd
  | .rsvd => .upRsvd

/-- R83, R92: the op of an `rle_encoder` word, `op = s_word[2:1]`, `bit = s_word[0]`. -/
def decodeEn (w : BitVec 3) : Instr :=
  match opClass (w.extractLsb' 1 2) with
  | .start => .enStart
  | .data => .enData (w.getLsbD 0)
  | .close => .enEnd
  | .rsvd => .enRsvd

/-- R84, R92: the op of an `rle_decoder` word, laid out as the unpacker's, `entry = s_word[7:0]` (DATA). -/
def decodeDe (w : BitVec 34) : Instr :=
  match opClass (w.extractLsb' 32 2) with
  | .start => .deStart (w.extractLsb' 16 16) (w.extractLsb' 0 16)
  | .data => .deData (w.extractLsb' 0 8)
  | .close => .deEnd
  | .rsvd => .deRsvd

/-- The width `SW` of a unit's op word (R88). -/
def UnitId.wordWidth : UnitId → Nat
  | .pk => 10
  | .up => 34
  | .en => 3
  | .de => 34

/-- Why a number is no op word. -/
inductive DecodeError where
  /-- The number does not fit the channel's op word. No channel can carry it (log 6). -/
  | wordTooWide
  /-- No unit has op words of that many bits (log 6). -/
  | noSuchFormat
deriving DecidableEq, Repr

/-- R92: every `SW`-bit word is an op of its unit; a wider number is rejected by name. -/
def decodeWord (u : UnitId) (w : Nat) : Except DecodeError Instr :=
  if w < 2 ^ u.wordWidth then
    match u with
    | .pk => .ok (decodePk (BitVec.ofNat 10 w))
    | .up => .ok (decodeUp (BitVec.ofNat 34 w))
    | .en => .ok (decodeEn (BitVec.ofNat 3 w))
    | .de => .ok (decodeDe (BitVec.ofNat 34 w))
  else .error .wordTooWide

/-- R91: the canonical op word of an op, every ignored bit 0. -/
def encode : Instr → Nat
  | .pkStart => 0x000
  | .pkData e => 0x100 + e.toNat
  | .pkEnd => 0x200
  | .pkRsvd => 0x300
  | .upStart r c | .deStart r c => r.toNat * 2 ^ 16 + c.toNat
  | .upData v | .deData v => 0x100000000 + v.toNat
  | .upEnd | .deEnd => 0x200000000
  | .upRsvd | .deRsvd => 0x300000000
  | .enStart => 0b000
  | .enData b => 0b010 + b.toNat
  | .enEnd => 0b100
  | .enRsvd => 0b110

/-- The channel and the word meant by a number of `nbits` bits. A unit is named by the length of its
word, 3, 10 or 34 bits, or that length in whole bytes. `up` and `de` have words of one length: the
number carries the channel above the word, in bit 34, 0 for `up` and 1 for `de` (DESIGN CHOICE, log 6). -/
def tableFormat (nbits w : Nat) : Except DecodeError (UnitId × Nat) :=
  if nbits = 3 ∨ nbits = 8 then .ok (.en, w)
  else if nbits = 10 ∨ nbits = 16 then .ok (.pk, w)
  else if nbits = 34 ∨ nbits = 40 then
    if w < 2 ^ 34 then .ok (.up, w) else .ok (.de, w - 2 ^ 34)
  else .error .noSuchFormat

/-- The op the decoder reads from a number numbered as the opcode table numbers its words. -/
def decodeTable (nbits w : Nat) : Except DecodeError Instr :=
  match tableFormat nbits w with
  | .ok (u, word) => decodeWord u word
  | .error e => .error e

/-- The host's question to the decoder: `none` where it refuses. -/
def decodeTableWord (nbits w : Nat) : Option Instr :=
  match decodeTable nbits w with
  | .ok i => some i
  | .error _ => none

/-- One row of spec/opcode_table.json: a word `w` is the row's op when `w and mask = pattern`. -/
structure Row where
  mnemonic : Mnemonic
  width : Nat
  pattern : Nat
  mask : Nat
deriving DecidableEq, Repr

/-- spec/opcode_table.json, row by row. -/
def opcodeTable : List Row :=
  [⟨⟨.pk, .start⟩, 10, 0x000, 0x300⟩, ⟨⟨.pk, .data⟩, 10, 0x100, 0x300⟩,
   ⟨⟨.pk, .close⟩, 10, 0x200, 0x300⟩, ⟨⟨.pk, .rsvd⟩, 10, 0x300, 0x300⟩] ++
  [⟨⟨.up, .start⟩, 34, 0x000000000, 0x300000000⟩, ⟨⟨.up, .data⟩, 34, 0x100000000, 0x300000000⟩,
   ⟨⟨.up, .close⟩, 34, 0x200000000, 0x300000000⟩, ⟨⟨.up, .rsvd⟩, 34, 0x300000000, 0x300000000⟩] ++
  [⟨⟨.en, .start⟩, 3, 0x0, 0x6⟩, ⟨⟨.en, .data⟩, 3, 0x2, 0x6⟩,
   ⟨⟨.en, .close⟩, 3, 0x4, 0x6⟩, ⟨⟨.en, .rsvd⟩, 3, 0x6, 0x6⟩] ++
  [⟨⟨.de, .start⟩, 34, 0x000000000, 0x300000000⟩, ⟨⟨.de, .data⟩, 34, 0x100000000, 0x300000000⟩,
   ⟨⟨.de, .close⟩, 34, 0x200000000, 0x300000000⟩, ⟨⟨.de, .rsvd⟩, 34, 0x300000000, 0x300000000⟩]

end Sys2Proof
end

