-- ==== Sys2Proof/Machine/State.lean ====
section
/-! DEFINITION. The state of the machine as plain data: the registers and queue of each of the four units (10_state.md), what the environment will do next, and what it has observed; the state after reset (R33). -/

namespace Sys2Proof.Machine

open Sys2Proof

/-- 10_state.md R21: no frame open, a frame open and sound, a frame open and rejected. -/
inductive Mode where
  | idle
  | run
  | err
deriving DecidableEq, Repr

/-- 60_exceptions.md R210: the error kinds. Codes 5 to 7 are unrepresentable (93 U11). -/
inductive ErrCode where
  | noError
  | invalidBitValue
  | invalidBitIndex
  | capacityExceeded
  | protocolViolation
deriving DecidableEq, Repr

/-- R210: the 3-bit code of an error kind. -/
def ErrCode.code : ErrCode → BitVec 3
  | .noError => 0
  | .invalidBitValue => 1
  | .invalidBitIndex => 2
  | .capacityExceeded => 3
  | .protocolViolation => 4

/-- 30_encoding.md R87: an output beat, with the frame's items as DATA and its closing DONE(err, count). -/
inductive Beat (α : Type) where
  | data (v : α)
  | done (e : ErrCode) (c : Count)
deriving DecidableEq, Repr

/-- R87: the payload of a DATA beat of `up` and `de`, a bit and its end-of-row flag. -/
structure BitOut where
  bit : Bit
  eol : Bool
deriving DecidableEq, Repr

/-- One unit: the four control registers of R21, the datapath registers `dp`, the pending-output queue
of R26, oldest beat first. -/
structure UnitState (D α : Type) where
  mode : Mode
  err : ErrCode
  nIn : Count
  nOut : Count
  dp : D
  outq : List (Beat α)
deriving DecidableEq, Repr

/-- 10_state.md R22: `acc`, the byte being assembled; `bitpos`, where the next element goes. -/
structure PkRegs where
  acc : Byte
  bitpos : BitVec 3
deriving DecidableEq, Repr

/-- 10_state.md R23 and R25: the shape of the frame, the bits it must emit, and the column counter. -/
structure ShapeRegs where
  rows : Dim
  cols : Dim
  total : BitVec 32
  col : Dim
deriving DecidableEq, Repr

/-- 10_state.md R24: `cur_val`, the value of the run being counted; `cur_cnt`, its unflushed count. -/
structure EnRegs where
  curVal : Bit
  curCnt : Byte
deriving DecidableEq, Repr

/-- 10_state.md R25: the shape registers, and `cur_val`, the implied value of the next entry. -/
structure DeRegs where
  shape : ShapeRegs
  curVal : Bit
deriving DecidableEq, Repr

abbrev PkUnit := UnitState PkRegs Byte
abbrev UpUnit := UnitState ShapeRegs BitOut
abbrev EnUnit := UnitState EnRegs Byte
abbrev DeUnit := UnitState DeRegs BitOut

/-- One rising edge of a unit's clock (30_encoding.md R88): the values its ports have there. `sReady` is the
unit's own output; the spec leaves open when it is 1 (93 U9), so the script says it (log 2). -/
structure Edge (w : Nat) where
  rst : Bool
  sValid : Bool
  sReady : Bool
  sWord : BitVec w
  mReady : Bool
deriving DecidableEq, Repr

/-- 45_core_pipeline.md R201: the three places where the reference glue joins two units. -/
inductive Link where
  | pkToUp
  | upToEn
  | enToDe
deriving DecidableEq, Repr

/-- What can happen next: an edge of one unit, or a beat crossing a link. -/
inductive Event where
  | pk (e : Edge 10)
  | up (e : Edge 34)
  | en (e : Edge 3)
  | de (e : Edge 34)
  | link (l : Link)
deriving DecidableEq, Repr

/-- 00_scope.md R10: what an observer of a unit sees happen. -/
inductive Obs (α : Type) where
  | accepted (i : Instr)
  | delivered (b : Beat α)
  | reset
deriving DecidableEq, Repr

/-- The whole machine. `config` is the parameter R5 asks for, which nothing writes; `script` is the environment's
future, soonest first; the logs are its past, newest first (all are the model's own fields, log 5, log 2 and log 8). -/
structure State where
  config : Config
  pk : PkUnit
  up : UpUnit
  en : EnUnit
  de : DeUnit
  script : List Event
  pkLog : List (Obs Byte)
  upLog : List (Obs BitOut)
  enLog : List (Obs Byte)
  deLog : List (Obs BitOut)
deriving DecidableEq, Repr

/-- Why the machine could stop. The spec gives it no way to: "a fatal configuration error for that cycle,
not a crash" (60_exceptions.md R214); every error is in-band (R211). The type has no value (log 19). -/
inductive Fault where
deriving DecidableEq, Repr

/-- Why the model could give an op no meaning. -/
inductive Refusal where
  /-- Raised by no arm: every op has its meaning. It would be safe. -/
  | notModelled (mnemonic : String)
deriving DecidableEq, Repr

/-- 10_state.md R33: the control registers after reset, around given datapath registers. -/
def UnitState.resetWith {D α : Type} (dp : D) : UnitState D α :=
  ⟨.idle, .noError, 0, 0, dp, []⟩

/-- R33: the shape registers after reset. -/
def ShapeRegs.reset : ShapeRegs := ⟨0, 0, 0, 0⟩

/-- R33: each unit after reset. -/
def resetPk : PkUnit := UnitState.resetWith ⟨0, 0⟩
def resetUp : UpUnit := UnitState.resetWith ShapeRegs.reset
def resetEn : EnUnit := UnitState.resetWith ⟨initVal, 0⟩
def resetDe : DeUnit := UnitState.resetWith ⟨ShapeRegs.reset, initVal⟩

/-- R33, R240: a machine of any capacity right after reset, waiting in IDLE; nothing scripted, nothing observed. -/
def State.resetWith (c : Config) : State := ⟨c, resetPk, resetUp, resetEn, resetDe, [], [], [], [], []⟩

/-- R33, R5: this hardware right after reset, with `CAP = 5000`. -/
def State.reset : State := State.resetWith Config.hw

end Sys2Proof.Machine
end

