-- ==== Sys2Proof/Machine/Operands.lean ====
section
/-! DEFINITION. `bitops`, the functions on single bits of a byte (40_bitops.md), and the operand tests the units make. -/

namespace Sys2Proof.Machine

open Sys2Proof

/-- 40_bitops.md R100, R103: bit `index` of `byte`, LSB-first; above 7, InvalidBitIndex. -/
def getBit (byte : Byte) (index : Nat) : Except ErrCode Bit :=
  if index ≤ 7 then .ok (byte.getLsbD index) else .error .invalidBitIndex

/-- R101, R103: `byte` with bit `index` forced to 1. -/
def setBit (byte : Byte) (index : Nat) : Except ErrCode Byte :=
  if index ≤ 7 then .ok (byte ||| (1#8 <<< index)) else .error .invalidBitIndex

/-- R102, R103: `byte` with bit `index` forced to 0. -/
def clearBit (byte : Byte) (index : Nat) : Except ErrCode Byte :=
  if index ≤ 7 then .ok (byte &&& ~~~(1#8 <<< index)) else .error .invalidBitIndex

/-- R111 (c): the byte under assembly with element `elem`, 0 or 1, at `index`. -/
def placeElem (acc : Byte) (index : Nat) (elem : Byte) : Except ErrCode Byte :=
  if elem = 1 then setBit acc index else clearBit acc index

/-- R130, R170: the shape registers a START writes; the product is exact in 32 bits (R203). -/
def ShapeRegs.ofShape (rows cols : Dim) : ShapeRegs :=
  ⟨rows, cols, BitVec.ofNat 32 (rows.toNat * cols.toNat), 0⟩

end Sys2Proof.Machine
end

