-- ==== Sys2Proof/Machine/Flags.lean ====
section
/-! DEFINITION. The end-of-row flag and the column counter (42_bit_unpacker.md R134), the status outputs (10_state.md R30) and the output ports (30_encoding.md R87, R88). -/

namespace Sys2Proof.Machine

open Sys2Proof

/-- R134: the flag of the bit about to be emitted, `col == cols - 1` over the naturals (log 14). -/
def ShapeRegs.eol (r : ShapeRegs) : Bool := decide (r.col.toNat + 1 = r.cols.toNat)

/-- R134: the column counter after one bit: 0 after a row's last bit, else one more. -/
def ShapeRegs.advance (r : ShapeRegs) : ShapeRegs :=
  { r with col := if r.eol then 0 else r.col + 1 }

/-- R30: the three status outputs. -/
structure StatusOut where
  busy : Bit
  errO : BitVec 3
  countO : BitVec 16
deriving DecidableEq, Repr

/-- R30: `busy` is 1 when `mode != IDLE`, `err_o` is `err`, `count_o` is `n_out`. -/
def UnitState.status {D α : Type} (u : UnitState D α) : StatusOut :=
  ⟨decide (u.mode ≠ .idle), u.err.code, u.nOut⟩

/-- R88: the beat ports of `pk` and `en`, which carry a byte. -/
structure ByteBeatPorts where
  mKind : BitVec 1
  mData : BitVec 8
  mErr : BitVec 3
  mCount : BitVec 16
deriving DecidableEq, Repr

/-- R88: the beat ports of `up` and `de`, which carry a bit and its flag. -/
structure BitBeatPorts where
  mKind : BitVec 1
  mData : BitVec 1
  mEol : BitVec 1
  mErr : BitVec 3
  mCount : BitVec 16
deriving DecidableEq, Repr

/-- R87: a byte beat on the ports. -/
def byteBeatPorts : Beat Byte → ByteBeatPorts
  | .data v => ⟨0, v, 0, 0⟩
  | .done e c => ⟨1, 0, e.code, c⟩

/-- R87: a bit beat on the ports. -/
def bitBeatPorts : Beat BitOut → BitBeatPorts
  | .data v => ⟨0, BitVec.ofBool v.bit, BitVec.ofBool v.eol, 0, 0⟩
  | .done e c => ⟨1, 0, 0, e.code, c⟩

/-- R88: `m_valid`, 1 when `outq` is not empty. -/
def UnitState.mValid {D α : Type} (u : UnitState D α) : Bit := !u.outq.isEmpty

/-- R88: the m_ payload, the head of `outq`; absent when `m_valid = 0`, where it is not meaningful (93 U13). -/
def byteOutPorts {D : Type} (u : UnitState D Byte) : Option ByteBeatPorts := u.outq.head?.map byteBeatPorts

/-- R88: as `byteOutPorts`, for `up` and `de`. -/
def bitOutPorts {D : Type} (u : UnitState D BitOut) : Option BitBeatPorts := u.outq.head?.map bitBeatPorts

end Sys2Proof.Machine
end

