-- ==== Sys2Proof/Machine/Ops.lean ====
section
/-! DEFINITION. The operations every unit shares: emitting, raising an error and closing a frame (60_exceptions.md R211, R219), and the dispatch of an op by mode (30_encoding.md R93). -/

namespace Sys2Proof.Machine

open Sys2Proof

/-- How a unit-specific action ends: run to its end, or abandoned by a `raise` (R211). Either way the
writes and emits made so far stand. -/
inductive Act (σ : Type) where
  | ok (u : σ)
  | raised (u : σ)
deriving DecidableEq, Repr

/-- The unit as the action leaves it. -/
def Act.state {σ : Type} : Act σ → σ
  | .ok u => u
  | .raised u => u

/-- The rest of an action, which a `raise` abandons (R211). -/
def Act.andThen {σ : Type} (a : Act σ) (rest : σ → Act σ) : Act σ :=
  match a with
  | .ok u => rest u
  | .raised u => .raised u

/-- The action `body k` for each `k` of a list in order, until one raises. -/
def Act.forEach {σ : Type} (body : Nat → σ → Act σ) : List Nat → σ → Act σ
  | [], u => .ok u
  | k :: ks, u => (body k u).andThen (Act.forEach body ks)

namespace UnitState

variable {D α : Type}

/-- R12, R26: append one beat to the output. -/
def emit (b : Beat α) (u : UnitState D α) : UnitState D α := { u with outq := u.outq ++ [b] }

/-- `emit DATA(v); n_out <- n_out + 1`, the pair every DATA emission is. -/
def emitData (v : α) (u : UnitState D α) : UnitState D α := { u.emit (.data v) with nOut := u.nOut + 1 }

/-- TAKING AN ERROR, R211: `if mode != ERR: err <- code(E); mode <- ERR`. Nothing else is recorded (R216). -/
def raise (e : ErrCode) (u : UnitState D α) : UnitState D α :=
  if u.mode = .err then u else { u with err := e, mode := .err }

/-- `raise E` inside an action: the rest of it is abandoned. -/
def fail (e : ErrCode) (u : UnitState D α) : Act (UnitState D α) := .raised (u.raise e)

/-- THE EXIT, R93, R219: `emit DONE(err, n_out); mode <- IDLE`. -/
def closeFrame (u : UnitState D α) : UnitState D α := { u.emit (.done u.err u.nOut) with mode := .idle }

/-- R93, START in IDLE: `err <- 0; n_in <- 0; n_out <- 0; mode <- RUN`. -/
def openFrame (u : UnitState D α) : UnitState D α :=
  { u with err := .noError, nIn := 0, nOut := 0, mode := .run }

/-- R93, DATA, END or RSVD in IDLE: `n_in <- 0; n_out <- 0`. -/
def clearCounts (u : UnitState D α) : UnitState D α := { u with nIn := 0, nOut := 0 }

/-- R93, DATA or RSVD in IDLE: an already rejected frame is opened. -/
def openRejected (u : UnitState D α) : UnitState D α := u.clearCounts.raise .protocolViolation

/-- R93, END in IDLE: `err <- 4; emit DONE(4, 0)`, the mode stays IDLE. -/
def endWithoutFrame (u : UnitState D α) : UnitState D α :=
  ({ u.clearCounts with err := .protocolViolation }).emit (.done .protocolViolation 0)

/-- R88: the head of `outq` leaves it. -/
def dropHead (u : UnitState D α) : UnitState D α := { u with outq := u.outq.tail }

end UnitState

/-- 30_encoding.md R93, the dispatch table: what a unit does with an accepted op, given its three
unit-specific actions. One step, atomic (20_memory.md R66). -/
def accept {D α A P : Type}
    (startAct : A → UnitState D α → Act (UnitState D α))
    (dataAct : P → UnitState D α → Act (UnitState D α))
    (endAct : UnitState D α → Act (UnitState D α))
    (op : Op A P) (u : UnitState D α) : UnitState D α :=
  match u.mode, op with
  | .idle, .start a => (startAct a u.openFrame).state
  | .idle, .data _ => u.openRejected
  | .idle, .close => u.endWithoutFrame
  | .idle, .rsvd => u.openRejected
  | .run, .start _ => u.raise .protocolViolation
  | .run, .data p => (dataAct p u).state
  | .run, .close => (endAct u).state.closeFrame
  | .run, .rsvd => u.raise .protocolViolation
  | .err, .start _ => u
  | .err, .data _ => u
  | .err, .close => u.closeFrame
  | .err, .rsvd => u

/-- 42_bit_unpacker.md R130, 44_rle_decoder.md R170: the tests START makes on a shape, in this order. -/
def checkShape {D α : Type} (c : Config) (rows cols : Dim) (u : UnitState D α) : Act (UnitState D α) :=
  if rows = 0 ∨ cols = 0 then u.fail .protocolViolation
  else if c.cap < rows.toNat * cols.toNat then u.fail .capacityExceeded
  else .ok u

end Sys2Proof.Machine
end

