-- ==== Sys2Proof/Machine/Decoder.lean ====
section
/-! DEFINITION. `rle_decoder` (44_rle_decoder.md): its three actions and the meanings of its four ops. -/

namespace Sys2Proof.Machine

open Sys2Proof

/-- R170: "currentValue starts at 1, column counter at 0"; the tests are those of R130. -/
def deStartAct (c : Config) (shape : Dim × Dim) (u : DeUnit) : Act DeUnit :=
  checkShape c shape.1 shape.2 { u with dp := ⟨ShapeRegs.ofShape shape.1 shape.2, initVal⟩ }

/-- R171, one turn of the repeat: one bit of the current value with its end-of-row flag. -/
def deEmitBit (u : DeUnit) : DeUnit :=
  { u.emitData ⟨u.dp.curVal, u.dp.shape.eol⟩ with dp := { u.dp with shape := u.dp.shape.advance } }

/-- R171, R174: every entry, zero or not, flips the implied value once. -/
def deFlip (u : DeUnit) : DeUnit := { u with dp := { u.dp with curVal := !u.dp.curVal } }

/-- R171: the entry count before the overrun (60_exceptions.md R217). -/
def deDataAct (c : Config) (entry : Byte) (u : DeUnit) : Act DeUnit :=
  if u.nIn.toNat = c.cap then u.fail .capacityExceeded
  else if entry = 0 then .ok { deFlip u with nIn := u.nIn + 1 }
  else if u.dp.shape.total.toNat < u.nOut.toNat + entry.toNat then u.fail .protocolViolation
  else .ok { deFlip (Nat.iterate deEmitBit entry.toNat u) with nIn := u.nIn + 1 }

/-- R172: fewer bits than the shape. -/
def deEndAct (u : DeUnit) : Act DeUnit :=
  if u.nOut.toNat < u.dp.shape.total.toNat then u.fail .protocolViolation else .ok u

/-- R93 for the decoder. -/
def deAccept (c : Config) (op : DeOp) (u : DeUnit) : DeUnit := accept (deStartAct c) (deDataAct c) deEndAct op u

/-- DE.START rows, cols (R170). -/
def execDeStart (rows cols : Dim) (s : State) : Host.Outcome State Fault Refusal :=
  .next { s with de := deAccept s.config (.start (rows, cols)) s.de }

/-- DE.DATA entry (R171). -/
def execDeData (entry : Byte) (s : State) : Host.Outcome State Fault Refusal :=
  .next { s with de := deAccept s.config (.data entry) s.de }

/-- DE.END (R172). -/
def execDeEnd (s : State) : Host.Outcome State Fault Refusal :=
  .next { s with de := deAccept s.config .close s.de }

/-- DE.RSVD (R173). -/
def execDeRsvd (s : State) : Host.Outcome State Fault Refusal :=
  .next { s with de := deAccept s.config .rsvd s.de }

end Sys2Proof.Machine
end

