-- ==== Sys2Proof/Machine/Encoder.lean ====
section
/-! DEFINITION. `rle_encoder` (43_rle_encoder.md): its helper, its three actions and the meanings of its four ops. -/

namespace Sys2Proof.Machine

open Sys2Proof

/-- R150: "Initial currentRunValue = 1, currentRunCount = 0". -/
def enStartAct (_ : Unit) (u : EnUnit) : Act EnUnit := .ok { u with dp := ⟨initVal, 0⟩ }

/-- R156: every encoder emission, bounded by `CAP`. -/
def emitEntry (c : Config) (v : Byte) (u : EnUnit) : Act EnUnit :=
  if u.nOut.toNat = c.cap then u.fail .capacityExceeded else .ok (u.emitData v)

/-- R151: the run's registers after the bit. At the ceiling `cur_val` is NOT changed (90_conflicts.md C1). -/
def enCountBit (c : Config) (b : Bit) (u : EnUnit) : Act EnUnit :=
  if b = u.dp.curVal then
    if u.dp.curCnt = runMax then
      (emitEntry c runMax u).andThen fun u =>
        (emitEntry c 0 u).andThen fun u =>
          .ok { u with dp := { u.dp with curCnt := 1 } }
    else .ok { u with dp := { u.dp with curCnt := u.dp.curCnt + 1 } }
  else
    (emitEntry c u.dp.curCnt u).andThen fun u => .ok { u with dp := ⟨b, 1⟩ }

/-- R151. -/
def enDataAct (c : Config) (b : Bit) (u : EnUnit) : Act EnUnit :=
  if u.nIn.toNat = c.cap then u.fail .capacityExceeded
  else (enCountBit c b u).andThen fun u => .ok { u with nIn := u.nIn + 1 }

/-- R152: the final flush. -/
def enEndAct (c : Config) (u : EnUnit) : Act EnUnit :=
  if u.dp.curCnt ≠ 0 then
    (emitEntry c u.dp.curCnt u).andThen fun u => .ok { u with dp := { u.dp with curCnt := 0 } }
  else .ok u

/-- R93 for the encoder. -/
def enAccept (c : Config) (op : EnOp) (u : EnUnit) : EnUnit := accept enStartAct (enDataAct c) (enEndAct c) op u

/-- EN.START (R150). -/
def execEnStart (s : State) : Host.Outcome State Fault Refusal :=
  .next { s with en := enAccept s.config (.start ()) s.en }

/-- EN.DATA bit (R151). -/
def execEnData (bit : Bit) (s : State) : Host.Outcome State Fault Refusal :=
  .next { s with en := enAccept s.config (.data bit) s.en }

/-- EN.END (R152). -/
def execEnEnd (s : State) : Host.Outcome State Fault Refusal :=
  .next { s with en := enAccept s.config .close s.en }

/-- EN.RSVD (R153). -/
def execEnRsvd (s : State) : Host.Outcome State Fault Refusal :=
  .next { s with en := enAccept s.config .rsvd s.en }

end Sys2Proof.Machine
end

