-- ==== Sys2Proof/Machine/Frames.lean ====
section
/-! DEFINITION. The four frame functions on whole sequences (45_core_pipeline.md R190 to R193), the closed form of the encoding (43_rle_encoder.md R154, R157), and the ops of a frame. -/

namespace Sys2Proof.Machine

open Sys2Proof

/-- 00_scope.md R12: `ceil8(n) = (n + 7) div 8`. -/
def ceil8 (n : Nat) : Nat := (n + 7) / 8

/-- A raster bit as the element the packer is offered. -/
def bitElem (b : Bit) : Byte := if b then 1 else 0

/-- R190: `P[j]`, the sum of `R[8j + k] * 2^k` over `k` in 0..7 with `8j + k < N`. -/
def packByte (R : List Bit) (j : Nat) : Byte :=
  BitVec.ofNat 8 (((List.range 8).map fun k => if 8 * j + k < R.length then (R.getD (8 * j + k) false).toNat * 2 ^ k else 0).sum)

/-- R190: `pack(R)`, of length `ceil8(N)`. -/
def pack (R : List Bit) : List Byte := (List.range (ceil8 R.length)).map (packByte R)

/-- R191: `unpack(P, T)`, `B[i] = getBit(P[i div 8], i mod 8)`. -/
def unpack (P : List Byte) (T : Nat) : List Bit :=
  (List.range T).map fun i => (P.getD (i / 8) 0).getLsbD (i % 8)

/-- R192: `enc((v, c), B)`. -/
def encFrom (v : Bit) (c : Byte) : List Bit → List Byte
  | [] => if c ≠ 0 then [c] else []
  | b :: rest =>
    if b = v then
      if c = runMax then [runMax, 0] ++ encFrom v 1 rest else encFrom v (c + 1) rest
    else [c] ++ encFrom b 1 rest

/-- R192: `encodeRuns(B) = enc((1, 0), B)`. -/
def encodeRuns (B : List Bit) : List Byte := encFrom initVal 0 B

/-- R193: `dec(v, E)`. -/
def decFrom (v : Bit) : List Byte → List Bit
  | [] => []
  | e :: rest => List.replicate e.toNat v ++ decFrom (!v) rest

/-- R193: `decodeRuns(E) = dec(1, E)`. -/
def decodeRuns (E : List Byte) : List Bit := decFrom initVal E

/-- The sum of the entries as naturals (R197). -/
def entrySum (E : List Byte) : Nat := (E.map BitVec.toNat).sum

/-- 42_bit_unpacker.md R134, R136: each bit with its end-of-row flag, 1 exactly on raster indices `i` with
`i mod cols = cols - 1`. -/
def withEol (cols : Nat) (B : List Bit) : List BitOut :=
  B.mapIdx fun i b => ⟨b, decide (i % cols = cols - 1)⟩

/-- R154: the entries of a run of `L` equal bits: a pair `255, 0` for each full 255 that more bits follow,
then what is left, 1 to 255. -/
def splitRun (L : Nat) : List Byte :=
  (List.replicate ((L - 1) / 255) [runMax, 0]).flatten ++ [BitVec.ofNat 8 (L - 255 * ((L - 1) / 255))]

/-- R157: the maximal runs of a bit sequence, in order, value and length. -/
def runsOf : List Bit → List (Bit × Nat)
  | [] => []
  | b :: rest =>
    match runsOf rest with
    | [] => [(b, 1)]
    | (v, n) :: more => if b = v then (v, n + 1) :: more else (b, 1) :: (v, n) :: more

/-- R155: the leading zero entry of a sequence whose first bit is 0. -/
def leadEntry : List Bit → List Byte
  | [] => []
  | b :: _ => if b = initVal then [] else [0]

/-- R157: `lead ++ split(L_1) ++ ... ++ split(L_m)`. -/
def encodeClosed (B : List Bit) : List Byte :=
  leadEntry B ++ ((runsOf B).map fun r => splitRun r.2).flatten

/-- The ops of one frame: START, the items as DATA, END (30_encoding.md R80). -/
def pkFrame (R : List Byte) : List PkOp := [.start ()] ++ R.map .data ++ [.close]
def upFrame (rows cols : Dim) (P : List Byte) : List UpOp := [.start (rows, cols)] ++ P.map .data ++ [.close]
def enFrame (B : List Bit) : List EnOp := [.start ()] ++ B.map .data ++ [.close]
def deFrame (rows cols : Dim) (E : List Byte) : List DeOp := [.start (rows, cols)] ++ E.map .data ++ [.close]

end Sys2Proof.Machine
end

