-- ==== Sys2Proof/Machine/Packer.lean ====
section
/-! DEFINITION. `bit_packer` (41_bit_packer.md): its three actions and the meanings of its four ops. -/

namespace Sys2Proof.Machine

open Sys2Proof

/-- R110. -/
def pkStartAct (_ : Unit) (u : PkUnit) : Act PkUnit := .ok { u with dp := ⟨0, 0⟩ }

/-- R111: capacity first, then the value (60_exceptions.md R217); a byte leaves with its eighth element. -/
def pkDataAct (c : Config) (elem : Byte) (u : PkUnit) : Act PkUnit :=
  if u.nIn.toNat = c.cap then u.fail .capacityExceeded
  else if elem ≠ 0 ∧ elem ≠ 1 then u.fail .invalidBitValue
  else
    match placeElem u.dp.acc u.dp.bitpos.toNat elem with
    | .error e => u.fail e
    | .ok a =>
      if u.dp.bitpos = 7 then
        .ok { u.emitData a with nIn := u.nIn + 1, dp := ⟨0, 0⟩ }
      else
        .ok { u with nIn := u.nIn + 1, dp := ⟨a, u.dp.bitpos + 1⟩ }

/-- R112: the partial last byte is flushed. -/
def pkEndAct (u : PkUnit) : Act PkUnit :=
  if u.dp.bitpos ≠ 0 then .ok { u.emitData u.dp.acc with dp := ⟨0, 0⟩ } else .ok u

/-- R93 for the packer. -/
def pkAccept (c : Config) (op : PkOp) (u : PkUnit) : PkUnit := accept pkStartAct (pkDataAct c) pkEndAct op u

/-- PK.START (R110). -/
def execPkStart (s : State) : Host.Outcome State Fault Refusal :=
  .next { s with pk := pkAccept s.config (.start ()) s.pk }

/-- PK.DATA elem (R111). -/
def execPkData (elem : Byte) (s : State) : Host.Outcome State Fault Refusal :=
  .next { s with pk := pkAccept s.config (.data elem) s.pk }

/-- PK.END (R112). -/
def execPkEnd (s : State) : Host.Outcome State Fault Refusal :=
  .next { s with pk := pkAccept s.config .close s.pk }

/-- PK.RSVD (R113). -/
def execPkRsvd (s : State) : Host.Outcome State Fault Refusal :=
  .next { s with pk := pkAccept s.config .rsvd s.pk }

end Sys2Proof.Machine
end

