-- ==== Sys2Proof/Machine/Unpacker.lean ====
section
/-! DEFINITION. `bit_unpacker` (42_bit_unpacker.md): its three actions and the meanings of its four ops. -/

namespace Sys2Proof.Machine

open Sys2Proof

/-- R130: the registers first, then the tests, so a rejected shape stands in them. -/
def upStartAct (c : Config) (shape : Dim × Dim) (u : UpUnit) : Act UpUnit :=
  checkShape c shape.1 shape.2 { u with dp := ShapeRegs.ofShape shape.1 shape.2 }

/-- R131, the loop's emission: the bit with its end-of-row flag, and the column counter moved on. -/
def upEmitBit (b : Bit) (u : UpUnit) : UpUnit :=
  { u.emitData ⟨b, u.dp.eol⟩ with dp := u.dp.advance }

/-- R131, one turn of the loop: bit `k` of the byte, if the frame still wants bits. -/
def upBitTurn (byte : Byte) (k : Nat) (u : UpUnit) : Act UpUnit :=
  if u.nOut.toNat < u.dp.total.toNat then
    match getBit byte k with
    | .ok b => .ok (upEmitBit b u)
    | .error e => u.fail e
  else .ok u

/-- R131. -/
def upDataAct (byte : Byte) (u : UpUnit) : Act UpUnit :=
  if u.nOut.toNat = u.dp.total.toNat then u.fail .protocolViolation
  else (Act.forEach (upBitTurn byte) [0, 1, 2, 3, 4, 5, 6, 7] u).andThen
    fun u => .ok { u with nIn := u.nIn + 1 }

/-- R132: too few bytes. -/
def upEndAct (u : UpUnit) : Act UpUnit :=
  if u.nOut.toNat < u.dp.total.toNat then u.fail .protocolViolation else .ok u

/-- R93 for the unpacker. -/
def upAccept (c : Config) (op : UpOp) (u : UpUnit) : UpUnit := accept (upStartAct c) upDataAct upEndAct op u

/-- UP.START rows, cols (R130). -/
def execUpStart (rows cols : Dim) (s : State) : Host.Outcome State Fault Refusal :=
  .next { s with up := upAccept s.config (.start (rows, cols)) s.up }

/-- UP.DATA byte (R131). -/
def execUpData (byte : Byte) (s : State) : Host.Outcome State Fault Refusal :=
  .next { s with up := upAccept s.config (.data byte) s.up }

/-- UP.END (R132). -/
def execUpEnd (s : State) : Host.Outcome State Fault Refusal :=
  .next { s with up := upAccept s.config .close s.up }

/-- UP.RSVD (R133). -/
def execUpRsvd (s : State) : Host.Outcome State Fault Refusal :=
  .next { s with up := upAccept s.config .rsvd s.up }

end Sys2Proof.Machine
end

