-- ==== Sys2Proof/Machine/Cycle.lean ====
section
/-! DEFINITION. Runs of one unit over a sequence of ops, the reference glue between units, and one whole cycle with its status (45_core_pipeline.md R200 to R202). -/

namespace Sys2Proof.Machine

open Sys2Proof

/-- A unit accepting ops in order (20_memory.md R68). If nothing is delivered meanwhile, `outq` ends as
what it held followed by all the ops emitted. -/
def pkRun (c : Config) (ops : List PkOp) (u : PkUnit) : PkUnit := ops.foldl (fun u op => pkAccept c op u) u
def upRun (c : Config) (ops : List UpOp) (u : UpUnit) : UpUnit := ops.foldl (fun u op => upAccept c op u) u
def enRun (c : Config) (ops : List EnOp) (u : EnUnit) : EnUnit := ops.foldl (fun u op => enAccept c op u) u
def deRun (c : Config) (ops : List DeOp) (u : DeUnit) : DeUnit := ops.foldl (fun u op => deAccept c op u) u

/-- R201, pk -> up: `DATA(v)` becomes `UP.DATA v`, `DONE(e, c)`, whatever `e`, becomes `UP.END`. -/
def gluePkUp : Beat Byte → UpOp
  | .data v => .data v
  | .done _ _ => .close

/-- R201, up -> en: the flag is dropped. -/
def glueUpEn : Beat BitOut → EnOp
  | .data v => .data v.bit
  | .done _ _ => .close

/-- R201, en -> de. -/
def glueEnDe : Beat Byte → DeOp
  | .data v => .data v
  | .done _ _ => .close

/-- The beats the four units of a cycle emit. -/
structure CycleOut where
  pk : List (Beat Byte)
  up : List (Beat BitOut)
  en : List (Beat Byte)
  de : List (Beat BitOut)
deriving DecidableEq, Repr

/-- R200, R201: one cycle over a raster of shape (rows, cols), each unit from reset, joined by the glue,
which sends each downstream unit its START. -/
def cycle (c : Config) (rows cols : Dim) (R : List Byte) : CycleOut :=
  let pk := (pkRun c (pkFrame R) resetPk).outq
  let up := (upRun c (.start (rows, cols) :: pk.map gluePkUp) resetUp).outq
  let en := (enRun c (.start () :: up.map glueUpEn) resetEn).outq
  let de := (deRun c (.start (rows, cols) :: en.map glueEnDe) resetDe).outq
  ⟨pk, up, en, de⟩

/-- The code of the DONE beat that closes a sequence of beats; `none` if it does not end in one. -/
def closingCode {α : Type} (beats : List (Beat α)) : Option ErrCode :=
  match beats.getLast? with
  | some (.done e _) => some e
  | some (.data _) => none
  | none => none

/-- R202: the most upstream nonzero code of codes listed upstream first, 0 if there is none. -/
def mostUpstream : List ErrCode → ErrCode
  | [] => .noError
  | e :: rest => if e = .noError then mostUpstream rest else e

/-- R202: the status of a cycle, once every unit has closed its frame: 0 for an accepted cycle, else the
code of the most upstream unit that reported one. -/
def CycleOut.status (o : CycleOut) : Option ErrCode :=
  match closingCode o.pk, closingCode o.up, closingCode o.en, closingCode o.de with
  | some a, some b, some d, some e => some (mostUpstream [a, b, d, e])
  | none, _, _, _ => none
  | some _, none, _, _ => none
  | some _, some _, none, _ => none
  | some _, some _, some _, none => none

/-- The DATA payloads of a sequence of beats. -/
def payloads {α : Type} : List (Beat α) → List α
  | [] => []
  | .data v :: rest => v :: payloads rest
  | .done _ _ :: rest => payloads rest

end Sys2Proof.Machine
end

