-- ==== Sys2Proof/Machine/Dispatch.lean ====
section
/-! DEFINITION. One arm for each op: the effect of a unit accepting it. -/

namespace Sys2Proof.Machine

open Sys2Proof

def exec (i : Instr) (s : State) : Host.Outcome State Fault Refusal :=
  match i with
  | .pkStart => Sys2Proof.Machine.execPkStart s
  | .pkData elem => Sys2Proof.Machine.execPkData elem s
  | .pkEnd => Sys2Proof.Machine.execPkEnd s
  | .pkRsvd => Sys2Proof.Machine.execPkRsvd s
  | .upStart rows cols => Sys2Proof.Machine.execUpStart rows cols s
  | .upData byte => Sys2Proof.Machine.execUpData byte s
  | .upEnd => Sys2Proof.Machine.execUpEnd s
  | .upRsvd => Sys2Proof.Machine.execUpRsvd s
  | .enStart => Sys2Proof.Machine.execEnStart s
  | .enData bit => Sys2Proof.Machine.execEnData bit s
  | .enEnd => Sys2Proof.Machine.execEnEnd s
  | .enRsvd => Sys2Proof.Machine.execEnRsvd s
  | .deStart rows cols => Sys2Proof.Machine.execDeStart rows cols s
  | .deData entry => Sys2Proof.Machine.execDeData entry s
  | .deEnd => Sys2Proof.Machine.execDeEnd s
  | .deRsvd => Sys2Proof.Machine.execDeRsvd s

end Sys2Proof.Machine
end

