-- ==== Sys2Proof/Machine/Handshake.lean ====
section
/-! DEFINITION. One clock edge of one unit (30_encoding.md R88, 70_reset_and_hazards.md R240) and one beat crossing a link (45_core_pipeline.md R201). -/

namespace Sys2Proof.Machine

open Sys2Proof

/-- R88: an op is accepted on an edge with `rst = 0`, `s_valid = 1`, `s_ready = 1`. -/
def Edge.accepts {w : Nat} (e : Edge w) : Bool := !e.rst && e.sValid && e.sReady

/-- R88: a beat is delivered on an edge with `rst = 0`, `m_valid = 1`, `m_ready = 1`; `m_valid` is the queue's. -/
def Edge.takes {w : Nat} (e : Edge w) : Bool := !e.rst && e.mReady

/-- R240, R241: the unit takes its reset values, its pending beats are discarded, no DONE is emitted. -/
def State.resetPkUnit (s : State) : State := { s with pk := resetPk, pkLog := .reset :: s.pkLog }
def State.resetUpUnit (s : State) : State := { s with up := resetUp, upLog := .reset :: s.upLog }
def State.resetEnUnit (s : State) : State := { s with en := resetEn, enLog := .reset :: s.enLog }
def State.resetDeUnit (s : State) : State := { s with de := resetDe, deLog := .reset :: s.deLog }

/-- R88: the head of the queue, if there is one, is delivered. -/
def State.deliverPk (s : State) : State :=
  match s.pk.outq with
  | [] => s
  | b :: _ => { s with pk := s.pk.dropHead, pkLog := .delivered b :: s.pkLog }
def State.deliverUp (s : State) : State :=
  match s.up.outq with
  | [] => s
  | b :: _ => { s with up := s.up.dropHead, upLog := .delivered b :: s.upLog }
def State.deliverEn (s : State) : State :=
  match s.en.outq with
  | [] => s
  | b :: _ => { s with en := s.en.dropHead, enLog := .delivered b :: s.enLog }
def State.deliverDe (s : State) : State :=
  match s.de.outq with
  | [] => s
  | b :: _ => { s with de := s.de.dropHead, deLog := .delivered b :: s.deLog }

/-- The acceptance of an op, noted in the log of its unit (log 8). -/
def State.note (i : Instr) (s : State) : State :=
  match i.unit with
  | .pk => { s with pkLog := .accepted i :: s.pkLog }
  | .up => { s with upLog := .accepted i :: s.upLog }
  | .en => { s with enLog := .accepted i :: s.enLog }
  | .de => { s with deLog := .accepted i :: s.deLog }

/-- One edge, given what reset, delivery and the offered word mean for the unit. The beat delivered is the
head of the queue before the edge; the op's beats go behind the others (log 12). -/
def applyEdge {w : Nat} (e : Edge w) (resetUnit deliver : State → State) (decode : BitVec w → Instr)
    (s : State) : Host.Outcome State Fault Refusal :=
  if e.rst then .next (resetUnit s)
  else
    let s := if e.takes then deliver s else s
    if e.accepts then exec (decode e.sWord) (s.note (decode e.sWord)) else .next s

/-- R201: the head of the upstream queue is delivered and at once accepted downstream as the glue's op;
with nothing to deliver, nothing happens (log 11). -/
def applyLink (l : Link) (s : State) : Host.Outcome State Fault Refusal :=
  match l with
  | .pkToUp =>
    match s.pk.outq with
    | [] => .next s
    | b :: _ => exec (upInstr (gluePkUp b)) (s.deliverPk.note (upInstr (gluePkUp b)))
  | .upToEn =>
    match s.up.outq with
    | [] => .next s
    | b :: _ => exec (enInstr (glueUpEn b)) (s.deliverUp.note (enInstr (glueUpEn b)))
  | .enToDe =>
    match s.en.outq with
    | [] => .next s
    | b :: _ => exec (deInstr (glueEnDe b)) (s.deliverEn.note (deInstr (glueEnDe b)))

/-- One event. -/
def applyEvent (ev : Event) (s : State) : Host.Outcome State Fault Refusal :=
  match ev with
  | .pk e => applyEdge e State.resetPkUnit State.deliverPk decodePk s
  | .up e => applyEdge e State.resetUpUnit State.deliverUp decodeUp s
  | .en e => applyEdge e State.resetEnUnit State.deliverEn decodeEn s
  | .de e => applyEdge e State.resetDeUnit State.deliverDe decodeDe s
  | .link l => applyLink l s

/-- The soonest event of the script, which leaves it. With nothing scripted the machine waits, holding its
registers (60_exceptions.md R228, log 9). -/
def nextEvent (s : State) : Host.Outcome State Fault Refusal :=
  match s.script with
  | [] => .next s
  | ev :: rest => applyEvent ev { s with script := rest }

/-- The edge at which a unit is offered a word and is ready for it, no beat being taken. -/
def offer (u : UnitId) (word : Nat) : Event :=
  match u with
  | .pk => .pk ⟨false, true, true, BitVec.ofNat 10 word, false⟩
  | .up => .up ⟨false, true, true, BitVec.ofNat 34 word, false⟩
  | .en => .en ⟨false, true, true, BitVec.ofNat 3 word, false⟩
  | .de => .de ⟨false, true, true, BitVec.ofNat 34 word, false⟩

/-- The state in which the next event offers a word of the opcode table's numbering on its channel (log 7);
a number that is no op word changes nothing. -/
def State.offerTableWord (s : State) (nbits w : Nat) : State :=
  match tableFormat nbits w with
  | .error _ => s
  | .ok (u, word) => if word < 2 ^ u.wordWidth then { s with script := offer u word :: s.script } else s

end Sys2Proof.Machine
end

