-- ==== Sys2Proof/Machine/Step.lean ====
section
/-! DEFINITION. One step of the machine, and where its next op is fetched. -/

namespace Sys2Proof.Machine

open Sys2Proof

/-- One step: the next event of the script (log 2). -/
def step (s : State) : Host.Outcome State Fault Refusal := nextEvent s

/-- The next step offers this word: there is no stored program, the program of a unit is the op stream
itself (20_memory.md R69, log 7). -/
def State.withFetchWord (s : State) (nbits w : Nat) : State := s.offerTableWord nbits w

end Sys2Proof.Machine
end

