-- ==== Sys2Proof/Machine/Assembler.lean ====
section
/-! DEFINITION. The assembler notation (30_encoding.md R89) and its pseudo-ops (R90): from the characters of a source text to ops. -/

namespace Sys2Proof.Machine

open Sys2Proof

/-- Why a text does not assemble. -/
inductive AsmError where
  /-- A quoted raster string that the line does not close. -/
  | unclosedString
  /-- The first word of a line is no mnemonic and no pseudo-op. -/
  | unknownMnemonic
  /-- An operand that is no number, or operands not separated by single commas. -/
  | badOperands
  /-- A raster string with a character other than 0 and 1. -/
  | badRasterString
  /-- R89: too many or too few operands, or one that does not fit its field. -/
  | operandDoesNotFit
  /-- `.endr` with no `.rept` open. -/
  | endrWithoutRept
  /-- A `.rept` the text does not close. -/
  | unclosedRept
deriving DecidableEq, Repr

/-- The units and classes as R89 writes them. -/
def unitName : UnitId → List Char
  | .pk => ['P', 'K']
  | .up => ['U', 'P']
  | .en => ['E', 'N']
  | .de => ['D', 'E']

def className : OpClass → List Char
  | .start => ['S', 'T', 'A', 'R', 'T']
  | .data => ['D', 'A', 'T', 'A']
  | .close => ['E', 'N', 'D']
  | .rsvd => ['R', 'S', 'V', 'D']

/-- A mnemonic's name, `PK.START`. -/
def mnemonicName (m : Mnemonic) : List Char := unitName m.unit ++ ['.'] ++ className m.cls

/-- The mnemonic a word names. -/
def mnemonicOf (w : List Char) : Option Mnemonic :=
  (opcodeTable.map Row.mnemonic).find? fun m => decide (mnemonicName m = w)

/-- What a line is made of: words, commas, quoted strings. -/
inductive Tok where
  | word (cs : List Char)
  | comma
  | str (cs : List Char)
deriving DecidableEq, Repr

/-- The word read so far, if any, before more tokens. -/
def flushWord (rev : List Char) (rest : List Tok) : List Tok :=
  if rev.isEmpty then rest else .word rev.reverse :: rest

/-- The characters that separate words (log 15). -/
def isBlank (c : Char) : Bool := c == ' ' || c == '\t' || c == '\r'

/-- R89: the tokens of a line, up to a `;`. `inStr` says whether a quote is open, `rev` is the word or
string read so far, last character first. -/
def lexLine : List Char → Bool → List Char → Except AsmError (List Tok)
  | [], inStr, rev => if inStr then .error .unclosedString else .ok (flushWord rev [])
  | c :: cs, inStr, rev =>
    match inStr, c == '"' with
    | true, true => (lexLine cs false []).map (.str rev.reverse :: ·)
    | true, false => lexLine cs true (c :: rev)
    | false, true => (lexLine cs true []).map (flushWord rev)
    | false, false =>
      if c == ';' then .ok (flushWord rev [])
      else if isBlank c then (lexLine cs false []).map (flushWord rev)
      else if c == ',' then (lexLine cs false []).map fun ts => flushWord rev (.comma :: ts)
      else lexLine cs false (c :: rev)

/-- The value of a digit in a base of at most 16, letters in either case (log 15). -/
def digitVal (base : Nat) (c : Char) : Option Nat := (List.range base).find? fun d => Nat.digitChar d == c.toLower

/-- A number in a base, most significant digit first; `none` if a character is no digit of the base. -/
def parseDigits (base : Nat) (cs : List Char) : Option Nat :=
  (cs.mapM (digitVal base)).map fun ds => ds.foldl (fun acc d => acc * base + d) 0

/-- R89: a number in decimal or `0x` hexadecimal, of at least one digit. -/
def parseNumber (cs : List Char) : Option Nat :=
  match cs with
  | [] => none
  | '0' :: 'x' :: hex => if hex.isEmpty then none else parseDigits 16 hex
  | d :: rest => parseDigits 10 (d :: rest)

/-- R89: numbers separated by commas, at least one. -/
def parseNumbers : List Tok → Except AsmError (List Nat)
  | [.word w] =>
    match parseNumber w with
    | some n => .ok [n]
    | none => .error .badOperands
  | .word w :: .comma :: rest =>
    match parseNumber w, parseNumbers rest with
    | some n, .ok ns => .ok (n :: ns)
    | some _, .error e => .error e
    | none, _ => .error .badOperands
  | [] => .error .badOperands
  | .comma :: _ => .error .badOperands
  | .str _ :: _ => .error .badOperands
  | .word _ :: .word _ :: _ => .error .badOperands
  | .word _ :: .str _ :: _ => .error .badOperands

/-- No operand, or numbers separated by commas. -/
def parseOperands (ts : List Tok) : Except AsmError (List Nat) := if ts.isEmpty then .ok [] else parseNumbers ts

/-- R90: one DATA for each character of a raster string, index 0 first. -/
def rasterOps (m : Mnemonic) : List Char → Except AsmError (List RawOp)
  | [] => .ok []
  | c :: cs =>
    match rasterOps m cs with
    | .error e => .error e
    | .ok rest =>
      if c = '1' then .ok (⟨m, [1]⟩ :: rest)
      else if c = '0' then .ok (⟨m, [0]⟩ :: rest)
      else .error .badRasterString

/-- What a line stands for: ops, or an end of a repetition. -/
inductive Line where
  | ops (rs : List RawOp)
  | rept (n : Nat)
  | endr
deriving DecidableEq, Repr

/-- The raster string operand of `PK.BITS` and `EN.BITS`. -/
def bitsLine (m : Mnemonic) : List Tok → Except AsmError Line
  | [.str cs] =>
    match rasterOps m cs with
    | .ok rs => .ok (.ops rs)
    | .error e => .error e
  | [] | .word _ :: _ | .comma :: _ | .str _ :: _ :: _ => .error .badOperands

/-- The number list operand of `UP.BYTES` and `DE.ENTRIES`: one DATA each. -/
def itemsLine (m : Mnemonic) (ts : List Tok) : Except AsmError Line :=
  match parseNumbers ts with
  | .ok ns => .ok (.ops (ns.map fun n => ⟨m, [n]⟩))
  | .error e => .error e

/-- R89, R90: the line a first word and the tokens after it make. -/
def wordLine (w : List Char) (ts : List Tok) : Except AsmError Line :=
  if w = ['.', 'r', 'e', 'p', 't'] then
    match parseNumbers ts with
    | .ok [n] => .ok (.rept n)
    | .ok _ => .error .badOperands
    | .error e => .error e
  else if w = ['.', 'e', 'n', 'd', 'r'] then
    if ts.isEmpty then .ok .endr else .error .badOperands
  else if w = ['P', 'K', '.', 'B', 'I', 'T', 'S'] then bitsLine ⟨.pk, .data⟩ ts
  else if w = ['E', 'N', '.', 'B', 'I', 'T', 'S'] then bitsLine ⟨.en, .data⟩ ts
  else if w = ['U', 'P', '.', 'B', 'Y', 'T', 'E', 'S'] then itemsLine ⟨.up, .data⟩ ts
  else if w = ['D', 'E', '.', 'E', 'N', 'T', 'R', 'I', 'E', 'S'] then itemsLine ⟨.de, .data⟩ ts
  else
    match mnemonicOf w, parseOperands ts with
    | some m, .ok ns => .ok (.ops [⟨m, ns⟩])
    | some _, .error e => .error e
    | none, _ => .error .unknownMnemonic

/-- One line of text; an empty line, or a comment alone, stands for no op. -/
def parseLine (cs : List Char) : Except AsmError Line :=
  match lexLine cs false [] with
  | .error e => .error e
  | .ok [] => .ok (.ops [])
  | .ok (.word w :: ts) => wordLine w ts
  | .ok (.comma :: _) => .error .unknownMnemonic
  | .ok (.str _ :: _) => .error .unknownMnemonic

/-- A character put before the lines of the rest of a text. -/
def addToLines (c : Char) (lines : List (List Char)) : List (List Char) :=
  if c == '\n' then [] :: lines else lines.modifyHead (c :: ·)

/-- The lines of a text, at least one. -/
def splitLines (text : List Char) : List (List Char) := text.foldr addToLines [[]]

/-- The parsed lines, the first error in text order. -/
def parseLines : List (List Char) → Except AsmError (List Line)
  | [] => .ok []
  | l :: ls =>
    match parseLine l, parseLines ls with
    | .ok x, .ok xs => .ok (x :: xs)
    | .ok _, .error e => .error e
    | .error e, _ => .error e

/-- R90: `.rept n` ... `.endr` is the enclosed lines `n` times. `open_` holds, for each repetition open, its
count and the ops before it, innermost first; `cur` the ops read since. Enclosed ops repeated no time are gone, with
operands that do not fit (DESIGN CHOICE, log 21). That repetitions nest is the model's reading too (log 15). -/
def expandRept : List Line → List (Nat × List RawOp) → List RawOp → Except AsmError (List RawOp)
  | [], [], cur => .ok cur
  | [], _ :: _, _ => .error .unclosedRept
  | .ops rs :: ls, open_, cur => expandRept ls open_ (cur ++ rs)
  | .rept n :: ls, open_, cur => expandRept ls ((n, cur) :: open_) []
  | .endr :: ls, (n, before) :: open_, cur => expandRept ls open_ (before ++ (List.replicate n cur).flatten)
  | .endr :: _, [], _ => .error .endrWithoutRept

/-- R89: the op of a raw op; "An operand that does not fit its field is an assembly error". -/
def RawOp.toInstr (r : RawOp) : Except AsmError Instr :=
  if r.wellFormed then
    match r.mnemonic, r.operands with
    | ⟨.pk, .start⟩, _ => .ok .pkStart
    | ⟨.pk, .data⟩, v => .ok (.pkData (BitVec.ofNat 8 (v.getD 0 0)))
    | ⟨.pk, .close⟩, _ => .ok .pkEnd
    | ⟨.pk, .rsvd⟩, _ => .ok .pkRsvd
    | ⟨.up, .start⟩, v => .ok (.upStart (BitVec.ofNat 16 (v.getD 0 0)) (BitVec.ofNat 16 (v.getD 1 0)))
    | ⟨.up, .data⟩, v => .ok (.upData (BitVec.ofNat 8 (v.getD 0 0)))
    | ⟨.up, .close⟩, _ => .ok .upEnd
    | ⟨.up, .rsvd⟩, _ => .ok .upRsvd
    | ⟨.en, .start⟩, _ => .ok .enStart
    | ⟨.en, .data⟩, v => .ok (.enData (decide (v.getD 0 0 = 1)))
    | ⟨.en, .close⟩, _ => .ok .enEnd
    | ⟨.en, .rsvd⟩, _ => .ok .enRsvd
    | ⟨.de, .start⟩, v => .ok (.deStart (BitVec.ofNat 16 (v.getD 0 0)) (BitVec.ofNat 16 (v.getD 1 0)))
    | ⟨.de, .data⟩, v => .ok (.deData (BitVec.ofNat 8 (v.getD 0 0)))
    | ⟨.de, .close⟩, _ => .ok .deEnd
    | ⟨.de, .rsvd⟩, _ => .ok .deRsvd
  else .error .operandDoesNotFit

/-- The ops of raw ops, the first error in order. -/
def toInstrs : List RawOp → Except AsmError (List Instr)
  | [] => .ok []
  | r :: rs =>
    match RawOp.toInstr r, toInstrs rs with
    | .ok i, .ok is => .ok (i :: is)
    | .ok _, .error e => .error e
    | .error e, _ => .error e

/-- R89, R90: the ops of a text. Their words are `encode`'s (R91). Lines are read before the repetitions are expanded,
and operands are fitted after: the spec does not say whether a line inside `.rept 0` can be an error, and in the model
an operand that does not fit is none there, while a line that cannot be read is one (DESIGN CHOICE, log 21). -/
def assemble (text : List Char) : Except AsmError (List Instr) :=
  match parseLines (splitLines text) with
  | .error e => .error e
  | .ok ls =>
    match expandRept ls [] [] with
    | .error e => .error e
    | .ok rs => toInstrs rs

/-- R89: how an output beat is written, `D(v)`, `D(v,e)` or `DONE(err,count)`, numbers in decimal. -/
def writeByteBeat : Beat Byte → String
  | .data v => "D(" ++ toString v.toNat ++ ")"
  | .done e c => "DONE(" ++ toString e.code.toNat ++ "," ++ toString c.toNat ++ ")"
def writeBitBeat : Beat BitOut → String
  | .data v => "D(" ++ toString v.bit.toNat ++ "," ++ toString v.eol.toNat ++ ")"
  | .done e c => "DONE(" ++ toString e.code.toNat ++ "," ++ toString c.toNat ++ ")"

end Sys2Proof.Machine
end

