-- ==== Sys2Proof/Machine/Run.lean ====
section
/-! DEFINITION. Sequences of ops and of steps, the events of one cycle, and several instances of the machine. -/

namespace Sys2Proof.Machine

open Sys2Proof

/-- The ops of a list accepted in order. -/
def execAll : List Instr → State → Host.Outcome State Fault Refusal
  | [], s => .next s
  | i :: rest, s =>
    match exec i s with
    | .next t => execAll rest t
    | .fault r => .fault r
    | .refused r => .refused r

/-- `n` steps in a row. -/
def steps : Nat → State → Host.Outcome State Fault Refusal
  | 0, s => .next s
  | n + 1, s =>
    match step s with
    | .next t => steps n t
    | .fault r => .fault r
    | .refused r => .refused r

/-- R201 on the machine: the events of one cycle, one unit after the other. The glue's STARTs and the packer's ops are
offered; then each link moves every beat of its upstream unit, and last the decoder's beats are taken. -/
def cycleScript (c : Config) (rows cols : Dim) (R : List Byte) : List Event :=
  let out := cycle c rows cols R
  [offer .up (encode (.upStart rows cols)), offer .en (encode .enStart), offer .de (encode (.deStart rows cols))] ++
  (pkFrame R).map (fun op => offer .pk (encode (pkInstr op))) ++
  List.replicate out.pk.length (.link .pkToUp) ++ List.replicate out.up.length (.link .upToEn) ++
  List.replicate out.en.length (.link .enToDe) ++
  List.replicate out.de.length (.de ⟨false, false, false, 0, true⟩)

/-- 60_exceptions.md R227: any number of instances, each with a state of its own (log 1). -/
abbrev Instances := List State

/-- One step of instance `k`; the others stand still. An instance that does not exist takes no step. -/
def Instances.stepAt (k : Nat) (m : Instances) : Host.Outcome Instances Fault Refusal :=
  match m[k]? with
  | none => .next m
  | some s =>
    match step s with
    | .next t => .next (m.set k t)
    | .fault r => .fault r
    | .refused r => .refused r

end Sys2Proof.Machine
end

