-- ==== Sys2Proof/Safety.lean ====
section
/-! DEFINITION. What counts as a safe run: the invariants of the units (10_state.md R31), what the logs say (20_memory.md R68), which output is valid (60_exceptions.md R222), and the environment's duties (70_reset_and_hazards.md). -/

namespace Sys2Proof.Machine

open Sys2Proof

/-- What holds of the control registers in every mode: the counters within `CAP` (R28), `err` never
InvalidBitIndex (60_exceptions.md R213), nonzero in mode ERR (R29) and 0 in mode RUN. -/
def UnitState.CtrlInv {D α : Type} (c : Config) (u : UnitState D α) : Prop :=
  u.nIn.toNat ≤ c.cap ∧ u.nOut.toNat ≤ c.cap ∧ u.err ≠ .invalidBitIndex ∧
  (u.mode = .err → u.err ≠ .noError) ∧ (u.mode = .run → u.err = .noError)

/-- R31, packer. -/
def PkInv (c : Config) (u : PkUnit) : Prop :=
  u.CtrlInv c ∧
  (u.mode = .run → u.dp.bitpos.toNat = u.nIn.toNat % 8 ∧ u.nOut.toNat = u.nIn.toNat / 8 ∧
    ∀ k, u.dp.bitpos.toNat ≤ k → u.dp.acc.getLsbD k = false)

/-- R31, the shape registers of unpacker and decoder, `n` bits having been emitted. -/
def ShapeRegs.Inv (c : Config) (r : ShapeRegs) (n : Nat) : Prop :=
  1 ≤ r.rows.toNat ∧ 1 ≤ r.cols.toNat ∧ r.total.toNat = r.rows.toNat * r.cols.toNat ∧ r.total.toNat ≤ c.cap ∧
  n ≤ r.total.toNat ∧ r.col.toNat = n % r.cols.toNat

/-- R31, unpacker. -/
def UpInv (c : Config) (u : UpUnit) : Prop :=
  u.CtrlInv c ∧
  (u.mode = .run → u.dp.Inv c u.nOut.toNat ∧ u.nOut.toNat = min (8 * u.nIn.toNat) u.dp.total.toNat)

/-- R31, encoder. -/
def EnInv (c : Config) (u : EnUnit) : Prop :=
  u.CtrlInv c ∧ (u.mode = .run → (u.dp.curCnt = 0 ↔ u.nIn = 0))

/-- R31, decoder. -/
def DeInv (c : Config) (u : DeUnit) : Prop :=
  u.CtrlInv c ∧
  (u.mode = .run → u.dp.shape.Inv c u.nOut.toNat ∧ u.dp.curVal = xor initVal (decide (u.nIn.toNat % 2 = 1)))

/-- R31 for the machine, at the capacity it carries. -/
def State.Inv (s : State) : Prop :=
  PkInv s.config s.pk ∧ UpInv s.config s.up ∧ EnInv s.config s.en ∧ DeInv s.config s.de

/-- The ops accepted since the last reset, oldest first, from a log, which is newest first. -/
def opsSinceReset {α : Type} : List (Obs α) → List Instr
  | [] => []
  | .reset :: _ => []
  | .accepted i :: rest => opsSinceReset rest ++ [i]
  | .delivered _ :: rest => opsSinceReset rest

/-- The beats delivered since the last reset, oldest first. -/
def beatsSinceReset {α : Type} : List (Obs α) → List (Beat α)
  | [] => []
  | .reset :: _ => []
  | .accepted _ :: rest => beatsSinceReset rest
  | .delivered b :: rest => beatsSinceReset rest ++ [b]

/-- R68 for one unit: accepting, from reset, the ops the log records gives the unit's registers, and emits
the delivered beats followed by the pending ones. -/
def Explains {D α : Type} (c : Config) (unitOf : State → UnitState D α) (log : List (Obs α)) (u : UnitState D α) : Prop :=
  ∃ t, execAll (opsSinceReset log) (State.resetWith c) = .next t ∧
    unitOf t = { u with outq := beatsSinceReset log ++ u.outq }

/-- R68 for the machine. -/
def State.Coherent (s : State) : Prop :=
  Explains s.config State.pk s.pkLog s.pk ∧ Explains s.config State.up s.upLog s.up ∧
  Explains s.config State.en s.enLog s.en ∧ Explains s.config State.de s.deLog s.de

/-- R243: what an environment holds of a unit's output: the frames it may commit, oldest first, and the payloads
that are still provisional. -/
structure Held (α : Type) where
  committed : List (List α)
  provisional : List α
deriving DecidableEq, Repr

/-- R243, R241: a DATA beat is provisional until the DONE of its frame; a DONE with code 0 commits the frame, and a
DONE with an error, or a reset that cuts the frame short, undoes it. -/
def Held.observe {α : Type} (o : Obs α) (h : Held α) : Held α :=
  match o with
  | .accepted _ => h
  | .delivered (.data v) => { h with provisional := h.provisional ++ [v] }
  | .delivered (.done e _) => ⟨if e = .noError then h.committed ++ [h.provisional] else h.committed, []⟩
  | .reset => { h with provisional := [] }

/-- What an environment holds after all that a log records, which is newest first. -/
def heldOf {α : Type} (log : List (Obs α)) : Held α := log.foldr Held.observe ⟨[], []⟩

/-- The observations that end a frame's provisional output: the delivery of a DONE, and a reset. -/
def Obs.endsFrame {α : Type} : Obs α → Bool
  | .accepted _ | .delivered (.data _) => false
  | .delivered (.done _ _) | .reset => true

/-- What was observed between an older and a newer log of one unit. -/
def seenSince {α : Type} (old log : List (Obs α)) : List (Obs α) := log.take (log.length - old.length)

/-- R249: a unit's run of a frame is over, `seen` being what was observed of it: its DONE beat was the last beat
delivered, nothing is pending, the mode is IDLE, and `err` and `n_out` are as the DONE beat reported them. -/
def UnitState.over {D α : Type} [DecidableEq α] (u : UnitState D α) (seen : List (Obs α)) : Bool :=
  decide (u.mode = .idle) && u.outq.isEmpty &&
    decide ((beatsSinceReset seen).getLast? = some (.done u.err u.nOut))

/-- R249 for a unit of a machine that ran from `old` to `s`. -/
def State.unitOver (old s : State) : UnitId → Bool
  | .pk => s.pk.over (seenSince old.pkLog s.pkLog)
  | .up => s.up.over (seenSince old.upLog s.upLog)
  | .en => s.en.over (seenSince old.enLog s.enLog)
  | .de => s.de.over (seenSince old.deLog s.deLog)

/-- R248: the most DATA beats an op can emit. -/
def dataBeatBound : Instr → Nat
  | .pkData _ => 1
  | .pkEnd => 1
  | .upData _ => 8
  | .enData _ => 2
  | .enEnd => 1
  | .deData _ => 255
  | .pkStart | .pkRsvd | .upStart _ _ | .upEnd | .upRsvd | .enStart | .enRsvd | .deStart _ _ | .deEnd | .deRsvd => 0

/-- The units an event concerns. -/
def Event.units : Event → List UnitId
  | .pk _ => [.pk]
  | .up _ => [.up]
  | .en _ => [.en]
  | .de _ => [.de]
  | .link .pkToUp => [.pk, .up]
  | .link .upToEn => [.up, .en]
  | .link .enToDe => [.en, .de]

/-- R242: reset is applied before the first op is accepted. -/
def resetFirst {w : Nat} : List (Edge w) → Bool
  | [] => true
  | e :: rest => e.rst || (!e.accepts && resetFirst rest)

/-- R248: `s_valid` and `s_word` are held until the op is accepted. -/
def holdsOffer {w : Nat} : List (Edge w) → Bool
  | [] => true
  | [_] => true
  | e :: f :: rest =>
    (!e.sValid || e.accepts || (f.sValid && decide (f.sWord = e.sWord))) && holdsOffer (f :: rest)

/-- The edges of each unit in a script. -/
def pkEdges (script : List Event) : List (Edge 10) :=
  script.filterMap fun ev => match ev with
    | .pk e => some e
    | .up _ | .en _ | .de _ | .link _ => none
def upEdges (script : List Event) : List (Edge 34) :=
  script.filterMap fun ev => match ev with
    | .up e => some e
    | .pk _ | .en _ | .de _ | .link _ => none
def enEdges (script : List Event) : List (Edge 3) :=
  script.filterMap fun ev => match ev with
    | .en e => some e
    | .pk _ | .up _ | .de _ | .link _ => none
def deEdges (script : List Event) : List (Edge 34) :=
  script.filterMap fun ev => match ev with
    | .de e => some e
    | .pk _ | .up _ | .en _ | .link _ => none

/-- R248, R249: an offered word, held from edge to edge, is accepted. -/
def acceptedLater {w : Nat} (word : BitVec w) : List (Edge w) → Bool
  | [] => false
  | e :: rest => e.sValid && decide (e.sWord = word) && (e.accepts || acceptedLater word rest)

/-- R249: no op offered at one of the edges is never accepted. -/
def offersAccepted {w : Nat} : List (Edge w) → Bool
  | [] => true
  | e :: rest => (!e.sValid || e.accepts || acceptedLater e.sWord rest) && offersAccepted rest

/-- R249: no op a script offers to the unit is never accepted. -/
def scriptAccepted (script : List Event) : UnitId → Bool
  | .pk => offersAccepted (pkEdges script)
  | .up => offersAccepted (upEdges script)
  | .en => offersAccepted (enEdges script)
  | .de => offersAccepted (deEdges script)

/-- R249: running the whole script of `s` ends the run of every unit it uses: of one unit, the run of a frame; of the
units of a cycle (R200), the cycle. -/
def runOver (used : List UnitId) (s : State) : Bool :=
  match steps s.script.length s with
  | .next t => used.all fun u => scriptAccepted s.script u && s.unitOver t u
  | .fault _ => false
  | .refused _ => false

/-- The duties R242 and R248 put on a script, unit by unit. No step depends on them: a script that breaks
them is still a script (93 U17). -/
def dutiful (script : List Event) : Bool :=
  resetFirst (pkEdges script) && resetFirst (upEdges script) && resetFirst (enEdges script) && resetFirst (deEdges script) &&
  holdsOffer (pkEdges script) && holdsOffer (upEdges script) && holdsOffer (enEdges script) && holdsOffer (deEdges script)

end Sys2Proof.Machine
end

