-- ==== Sys2Proof/Certificates/Slice0/Obligations.lean ====
section
/-! DEFINITION. The statements for the provers, from the numbered rules of the spec. -/

open Sys2Proof Sys2Proof.Machine

/-! ## Reset, edges and steps -/

/-- R33: "After reset ... every register of every unit has the value below". R5: the capacity is 5000 here, and a
machine of any other capacity resets to the same registers. The script and the logs are the model's own fields, empty
by its own choice, and that the state carries the capacity is its choice too (log 2, log 5, log 8). -/
def Obligations.ResetStateValues : Prop :=
  State.reset.config.cap = 5000 ∧
  (∀ c : Config, 1 ≤ c.cap ∧ c.cap ≤ 65535 ∧ State.resetWith c = { State.reset with config := c }) ∧
  State.reset.pk = ⟨.idle, .noError, 0, 0, ⟨0, 0⟩, []⟩ ∧
  State.reset.up = ⟨.idle, .noError, 0, 0, ⟨0, 0, 0, 0⟩, []⟩ ∧
  State.reset.en = ⟨.idle, .noError, 0, 0, ⟨true, 0⟩, []⟩ ∧
  State.reset.de = ⟨.idle, .noError, 0, 0, ⟨⟨0, 0, 0, 0⟩, true⟩, []⟩ ∧
  State.reset.script = [] ∧ State.reset.pkLog = [] ∧ State.reset.upLog = [] ∧ State.reset.enLog = [] ∧
  State.reset.deLog = [] ∧
  State.reset.pk.status = ⟨false, 0, 0⟩ ∧ State.reset.up.status = ⟨false, 0, 0⟩ ∧
  State.reset.en.status = ⟨false, 0, 0⟩ ∧ State.reset.de.status = ⟨false, 0, 0⟩

/-- R240, R241: at an edge with `rst = 1`, from ANY state, the unit takes its reset values, its pending beats
are gone, no op is accepted and no beat delivered, whatever the other ports say; the other units stand still. -/
def Obligations.ResetEdgeResetsUnit : Prop :=
  ∀ (s : State) (rest : List Event),
    (∀ e : Edge 10, e.rst = true → s.script = .pk e :: rest →
      step s = .next { s with script := rest, pkLog := .reset :: s.pkLog,
                              pk := ⟨.idle, .noError, 0, 0, ⟨0, 0⟩, []⟩ }) ∧
    (∀ e : Edge 34, e.rst = true → s.script = .up e :: rest →
      step s = .next { s with script := rest, upLog := .reset :: s.upLog,
                              up := ⟨.idle, .noError, 0, 0, ⟨0, 0, 0, 0⟩, []⟩ }) ∧
    (∀ e : Edge 3, e.rst = true → s.script = .en e :: rest →
      step s = .next { s with script := rest, enLog := .reset :: s.enLog,
                              en := ⟨.idle, .noError, 0, 0, ⟨true, 0⟩, []⟩ }) ∧
    (∀ e : Edge 34, e.rst = true → s.script = .de e :: rest →
      step s = .next { s with script := rest, deLog := .reset :: s.deLog,
                              de := ⟨.idle, .noError, 0, 0, ⟨⟨0, 0, 0, 0⟩, true⟩, []⟩ })

/-- R88: at an edge with `rst = 0`, `s_valid = 1`, `s_ready = 1` the step is `exec` of the op the offered word
decodes to, on the state whose script has moved on, whose log notes the op, and from which, if `m_ready = 1`,
the head of `outq` has been delivered. -/
def Obligations.StepRunsDecodedOp : Prop :=
  ∀ (s : State) (rest : List Event) (take : Bool),
    (∀ w : BitVec 10, s.script = .pk ⟨false, true, true, w, take⟩ :: rest →
      step s = exec (decodePk w)
        ((if take then ({ s with script := rest }).deliverPk else { s with script := rest }).note (decodePk w)) ∧
      ∀ t : State, t.note (decodePk w) = { t with pkLog := .accepted (decodePk w) :: t.pkLog }) ∧
    (∀ w : BitVec 34, s.script = .up ⟨false, true, true, w, take⟩ :: rest →
      step s = exec (decodeUp w)
        ((if take then ({ s with script := rest }).deliverUp else { s with script := rest }).note (decodeUp w)) ∧
      ∀ t : State, t.note (decodeUp w) = { t with upLog := .accepted (decodeUp w) :: t.upLog }) ∧
    (∀ w : BitVec 3, s.script = .en ⟨false, true, true, w, take⟩ :: rest →
      step s = exec (decodeEn w)
        ((if take then ({ s with script := rest }).deliverEn else { s with script := rest }).note (decodeEn w)) ∧
      ∀ t : State, t.note (decodeEn w) = { t with enLog := .accepted (decodeEn w) :: t.enLog }) ∧
    (∀ w : BitVec 34, s.script = .de ⟨false, true, true, w, take⟩ :: rest →
      step s = exec (decodeDe w)
        ((if take then ({ s with script := rest }).deliverDe else { s with script := rest }).note (decodeDe w)) ∧
      ∀ t : State, t.note (decodeDe w) = { t with deLog := .accepted (decodeDe w) :: t.deLog })

/-- R88, R68: at an edge with `rst = 0` and no op accepted, a beat is delivered exactly when `m_ready = 1` and
`outq` is not empty; it is the head, it leaves the queue, and nothing else changes but the script and the log, the model's
own (log 2, log 8). R228: with nothing scripted, a step changes nothing (the model's choice of what a step is then, log 9). -/
def Obligations.EdgeDeliversHead : Prop :=
  (∀ s : State, s.script = [] → step s = .next s) ∧
  ∀ (s : State) (rest : List Event),
    (∀ e : Edge 10, e.rst = false → (e.sValid && e.sReady) = false → s.script = .pk e :: rest →
      (∀ b q, e.mReady = true → s.pk.outq = b :: q →
        step s = .next { s with script := rest, pk := { s.pk with outq := q }, pkLog := .delivered b :: s.pkLog }) ∧
      (e.mReady = false ∨ s.pk.outq = [] → step s = .next { s with script := rest })) ∧
    (∀ e : Edge 34, e.rst = false → (e.sValid && e.sReady) = false → s.script = .up e :: rest →
      (∀ b q, e.mReady = true → s.up.outq = b :: q →
        step s = .next { s with script := rest, up := { s.up with outq := q }, upLog := .delivered b :: s.upLog }) ∧
      (e.mReady = false ∨ s.up.outq = [] → step s = .next { s with script := rest })) ∧
    (∀ e : Edge 3, e.rst = false → (e.sValid && e.sReady) = false → s.script = .en e :: rest →
      (∀ b q, e.mReady = true → s.en.outq = b :: q →
        step s = .next { s with script := rest, en := { s.en with outq := q }, enLog := .delivered b :: s.enLog }) ∧
      (e.mReady = false ∨ s.en.outq = [] → step s = .next { s with script := rest })) ∧
    (∀ e : Edge 34, e.rst = false → (e.sValid && e.sReady) = false → s.script = .de e :: rest →
      (∀ b q, e.mReady = true → s.de.outq = b :: q →
        step s = .next { s with script := rest, de := { s.de with outq := q }, deLog := .delivered b :: s.deLog }) ∧
      (e.mReady = false ∨ s.de.outq = [] → step s = .next { s with script := rest }))

/-- The fetch the host asks about: a word placed by `withFetchWord` is the op the next step runs. The
numbering of channels and the placing are the model's choice (log 6, log 7). -/
def Obligations.FetchedWordRuns : Prop :=
  ∀ (s : State) (nbits w : Nat) (i : Instr), decodeTableWord nbits w = some i →
    step (s.withFetchWord nbits w) = exec i (s.note i)

/-- R201: a link event moves the head of the upstream queue into the downstream unit as the op the glue
makes of it; DATA becomes DATA, the flag dropped, and DONE of any code becomes END. -/
def Obligations.LinkMovesBeat : Prop :=
  ∀ (s : State) (rest : List Event),
    (∀ b q, s.script = .link .pkToUp :: rest → s.pk.outq = b :: q →
      step s = exec (match b with | .data v => .upData v | .done _ _ => .upEnd)
        { s with script := rest, pk := { s.pk with outq := q }, pkLog := .delivered b :: s.pkLog,
                 upLog := .accepted (match b with | .data v => .upData v | .done _ _ => .upEnd) :: s.upLog }) ∧
    (∀ b q, s.script = .link .upToEn :: rest → s.up.outq = b :: q →
      step s = exec (match b with | .data v => .enData v.bit | .done _ _ => .enEnd)
        { s with script := rest, up := { s.up with outq := q }, upLog := .delivered b :: s.upLog,
                 enLog := .accepted (match b with | .data v => .enData v.bit | .done _ _ => .enEnd) :: s.enLog }) ∧
    (∀ b q, s.script = .link .enToDe :: rest → s.en.outq = b :: q →
      step s = exec (match b with | .data v => .deData v | .done _ _ => .deEnd)
        { s with script := rest, en := { s.en with outq := q }, enLog := .delivered b :: s.enLog,
                 deLog := .accepted (match b with | .data v => .deData v | .done _ _ => .deEnd) :: s.deLog })

/-- R30: the status outputs. R87: how a beat stands on the ports. R88: `m_valid`, and the head of `outq` on
the m_ ports while it is 1. -/
def Obligations.OutputsShowRegisters : Prop :=
  (∀ s : State,
    s.pk.status = ⟨decide (s.pk.mode ≠ .idle), s.pk.err.code, s.pk.nOut⟩ ∧
    s.up.status = ⟨decide (s.up.mode ≠ .idle), s.up.err.code, s.up.nOut⟩ ∧
    s.en.status = ⟨decide (s.en.mode ≠ .idle), s.en.err.code, s.en.nOut⟩ ∧
    s.de.status = ⟨decide (s.de.mode ≠ .idle), s.de.err.code, s.de.nOut⟩ ∧
    (s.pk.mValid = true ↔ s.pk.outq ≠ []) ∧ (s.de.mValid = true ↔ s.de.outq ≠ []) ∧
    (∀ b q, s.pk.outq = b :: q → byteOutPorts s.pk = some (byteBeatPorts b)) ∧
    (∀ b q, s.up.outq = b :: q → bitOutPorts s.up = some (bitBeatPorts b))) ∧
  (∀ v : Byte, byteBeatPorts (.data v) = ⟨0, v, 0, 0⟩) ∧
  (∀ e c, byteBeatPorts (.done e c) = ⟨1, 0, e.code, c⟩) ∧
  (∀ b l : Bool, bitBeatPorts (.data ⟨b, l⟩) = ⟨0, BitVec.ofBool b, BitVec.ofBool l, 0, 0⟩) ∧
  (∀ e c, bitBeatPorts (.done e c) = ⟨1, 0, 0, e.code, c⟩) ∧
  ([ErrCode.noError, .invalidBitValue, .invalidBitIndex, .capacityExceeded, .protocolViolation].map ErrCode.code
    = [0, 1, 2, 3, 4])

/-! ## Encoding -/

/-- R80 to R84, R91: decoding the canonical word of any op, with any operands, gives the op back. -/
def Obligations.DecodeEncodeAgree : Prop :=
  ∀ i : Instr, decodeWord i.unit (encode i) = .ok i

/-- R92: "every `SW`-bit word is exactly one of the unit's four mnemonics": exactly one row of the opcode table
matches it, and it is the decoded op's. A wider number is rejected by name (log 6). -/
def Obligations.TableIsUnambiguous : Prop :=
  ∀ (u : UnitId) (w : Nat),
    (w < 2 ^ u.wordWidth → ∃ i, decodeWord u w = .ok i ∧ i.unit = u ∧
      (opcodeTable.filter fun r => decide (r.mnemonic.unit = u ∧ w &&& r.mask = r.pattern)).map Row.mnemonic
        = [i.mnemonic]) ∧
    (2 ^ u.wordWidth ≤ w → decodeWord u w = .error .wordTooWide)

/-- R85, R91: encoding what a word decodes to gives the word with its ignored bits 0: no field bit is lost and
no ignored bit matters. -/
def Obligations.IgnoredBitsDoNotMatter : Prop :=
  ∀ (u : UnitId) (w : Nat) (i : Instr), decodeWord u w = .ok i →
    encode i =
      match u, i.cls with
      | .pk, .data => w
      | .pk, _ => w / 2 ^ 8 * 2 ^ 8
      | .en, .data => w
      | .en, _ => w / 2 * 2
      | .up, .start | .de, .start => w
      | .up, .data | .de, .data => w / 2 ^ 32 * 2 ^ 32 + w % 2 ^ 8
      | .up, _ | .de, _ => w / 2 ^ 32 * 2 ^ 32

/-- R91 and 95_test_vectors.md V-PR-9 to V-PR-11, P2: words written out, bit patterns of 30_encoding.md. -/
def Obligations.WordsDecodeAsWritten : Prop :=
  decodePk 0b0101010101 = .pkData 0b01010101 ∧ decodePk 0x1FF = .pkData 0xFF ∧ decodePk 0x0AB = .pkStart ∧
  decodePk 0x2FF = .pkEnd ∧ decodePk 0x300 = .pkRsvd ∧
  decodeUp 0x000020006 = .upStart 2 6 ∧ decodeUp 0x1ABCD12C7 = .upData 0xC7 ∧ decodeUp 0x200000000 = .upEnd ∧
  decodeEn 0b011 = .enData true ∧ decodeEn 0b010 = .enData false ∧ decodeEn 0b101 = .enEnd ∧
  decodeDe 0x000030064 = .deStart 3 100 ∧ decodeDe 0x10000002D = .deData 45 ∧ decodeDe 0x300000000 = .deRsvd

/-- R89: a raw op assembles exactly when each operand fits its field, and then to the op it writes; R90:
`.rept n` repeats the enclosed ops. -/
def Obligations.AssemblerAcceptsWhatFits : Prop :=
  (∀ r : RawOp, (∃ i, RawOp.toInstr r = .ok i) ↔ r.wellFormed = true) ∧
  (∀ (r : RawOp) (i : Instr), RawOp.toInstr r = .ok i → i.toRaw = r) ∧
  (∀ i : Instr, RawOp.toInstr i.toRaw = .ok i) ∧
  (∀ (n : Nat) (before body after : List RawOp),
    expandRept [.ops before, .rept n, .ops body, .endr, .ops after] [] []
      = .ok (before ++ (List.replicate n body).flatten ++ after))

/-! ## The ops, one by one -/

/-- R110.
The datapath registers are as the rules' pseudocode leaves them (log 4). -/
def Obligations.PkStartOpensFrame : Prop :=
  (∀ w : BitVec 10, w.extractLsb' 8 2 = 0b00 → decodePk w = .pkStart) ∧
  ∀ s : State,
    (s.pk.mode = .idle → exec .pkStart s = .next { s with pk := ⟨.run, .noError, 0, 0, ⟨0, 0⟩, s.pk.outq⟩ }) ∧
    (s.pk.mode = .run → exec .pkStart s = .next { s with pk := { s.pk with mode := .err, err := .protocolViolation } }) ∧
    (s.pk.mode = .err → exec .pkStart s = .next s)

/-- R111. The byte `a` is `acc` with bit `bitpos` set to the element, and is `acc + elem * 2^bitpos` when the
bits from `bitpos` up are 0, as they always are (R31).
The datapath registers are as the rules' pseudocode leaves them (log 4). -/
def Obligations.PkDataPacksElement : Prop :=
  (∀ w : BitVec 10, w.extractLsb' 8 2 = 0b01 → decodePk w = .pkData (w.extractLsb' 0 8)) ∧
  ∀ (elem : Byte) (s : State),
    (s.pk.mode = .idle → exec (.pkData elem) s =
      .next { s with pk := { s.pk with mode := .err, err := .protocolViolation, nIn := 0, nOut := 0 } }) ∧
    (s.pk.mode = .err → exec (.pkData elem) s = .next s) ∧
    (s.pk.mode = .run → s.pk.nIn.toNat = s.config.cap →
      exec (.pkData elem) s = .next { s with pk := { s.pk with mode := .err, err := .capacityExceeded } }) ∧
    (s.pk.mode = .run → s.pk.nIn.toNat ≠ s.config.cap → 2 ≤ elem.toNat →
      exec (.pkData elem) s = .next { s with pk := { s.pk with mode := .err, err := .invalidBitValue } }) ∧
    (s.pk.mode = .run → s.pk.nIn.toNat ≠ s.config.cap → elem.toNat ≤ 1 →
      ∃ a : Byte,
        (∀ k, k < 8 → a.getLsbD k = if k = s.pk.dp.bitpos.toNat then decide (elem.toNat = 1) else s.pk.dp.acc.getLsbD k) ∧
        ((∀ k, s.pk.dp.bitpos.toNat ≤ k → s.pk.dp.acc.getLsbD k = false) →
          a.toNat = s.pk.dp.acc.toNat + elem.toNat * 2 ^ s.pk.dp.bitpos.toNat) ∧
        (s.pk.dp.bitpos.toNat = 7 → exec (.pkData elem) s =
          .next { s with pk := { s.pk with nIn := s.pk.nIn + 1, nOut := s.pk.nOut + 1, dp := ⟨0, 0⟩,
                                           outq := s.pk.outq ++ [.data a] } }) ∧
        (s.pk.dp.bitpos.toNat ≠ 7 → exec (.pkData elem) s =
          .next { s with pk := { s.pk with nIn := s.pk.nIn + 1, dp := ⟨a, s.pk.dp.bitpos + 1⟩ } }))

/-- R112. In a state that meets the packer's invariant the count is `ceil8(n_in)` and nothing is raised.
The datapath registers are as the rules' pseudocode leaves them (log 4). -/
def Obligations.PkEndFlushesAndCloses : Prop :=
  (∀ w : BitVec 10, w.extractLsb' 8 2 = 0b10 → decodePk w = .pkEnd) ∧
  ∀ s : State,
    (s.pk.mode = .idle → exec .pkEnd s =
      .next { s with pk := { s.pk with err := .protocolViolation, nIn := 0, nOut := 0,
                                       outq := s.pk.outq ++ [.done .protocolViolation 0] } }) ∧
    (s.pk.mode = .err → exec .pkEnd s =
      .next { s with pk := { s.pk with mode := .idle, outq := s.pk.outq ++ [.done s.pk.err s.pk.nOut] } }) ∧
    (s.pk.mode = .run → s.pk.dp.bitpos = 0 → exec .pkEnd s =
      .next { s with pk := { s.pk with mode := .idle, outq := s.pk.outq ++ [.done s.pk.err s.pk.nOut] } }) ∧
    (s.pk.mode = .run → s.pk.dp.bitpos ≠ 0 → exec .pkEnd s =
      .next { s with pk := { s.pk with mode := .idle, nOut := s.pk.nOut + 1, dp := ⟨0, 0⟩,
                                       outq := s.pk.outq ++ [.data s.pk.dp.acc, .done s.pk.err (s.pk.nOut + 1)] } }) ∧
    (s.pk.mode = .run → PkInv s.config s.pk → ∃ t : State, exec .pkEnd s = .next t ∧
      t.pk.nOut.toNat = ceil8 s.pk.nIn.toNat ∧ t.pk.err = .noError ∧ ceil8 s.pk.nIn.toNat ≤ s.config.cap)

/-- R130.
The datapath registers are as the rules' pseudocode leaves them (log 4). -/
def Obligations.UpStartOpensFrame : Prop :=
  (∀ w : BitVec 34, w.extractLsb' 32 2 = 0b00 → decodeUp w = .upStart (w.extractLsb' 16 16) (w.extractLsb' 0 16)) ∧
  ∀ (r c : Dim) (s : State),
    (BitVec.ofNat 32 (r.toNat * c.toNat)).toNat = r.toNat * c.toNat ∧
    (s.up.mode = .idle → exec (.upStart r c) s = .next { s with up :=
      ⟨if r.toNat = 0 ∨ c.toNat = 0 ∨ s.config.cap < r.toNat * c.toNat then .err else .run,
       if r.toNat = 0 ∨ c.toNat = 0 then .protocolViolation
       else if s.config.cap < r.toNat * c.toNat then .capacityExceeded else .noError,
       0, 0, ⟨r, c, BitVec.ofNat 32 (r.toNat * c.toNat), 0⟩, s.up.outq⟩ }) ∧
    (s.up.mode = .run → exec (.upStart r c) s =
      .next { s with up := { s.up with mode := .err, err := .protocolViolation } }) ∧
    (s.up.mode = .err → exec (.upStart r c) s = .next s)

/-- R131, R134: with the column counter inside the row (R31), `m` bits are emitted, `m` the less of 8 and what
the frame still wants, each with its end-of-row flag.
The datapath registers are as the rules' pseudocode leaves them (log 4). -/
def Obligations.UpDataEmitsBits : Prop :=
  (∀ w : BitVec 34, w.extractLsb' 32 2 = 0b01 → decodeUp w = .upData (w.extractLsb' 0 8)) ∧
  ∀ (byte : Byte) (s : State),
    (s.up.mode = .idle → exec (.upData byte) s =
      .next { s with up := { s.up with mode := .err, err := .protocolViolation, nIn := 0, nOut := 0 } }) ∧
    (s.up.mode = .err → exec (.upData byte) s = .next s) ∧
    (s.up.mode = .run → s.up.nOut.toNat = s.up.dp.total.toNat → exec (.upData byte) s =
      .next { s with up := { s.up with mode := .err, err := .protocolViolation } }) ∧
    (∀ m : Nat, s.up.mode = .run → s.up.nOut.toNat < s.up.dp.total.toNat → s.up.dp.total.toNat ≤ s.config.cap →
      s.up.dp.col.toNat < s.up.dp.cols.toNat → m = min 8 (s.up.dp.total.toNat - s.up.nOut.toNat) →
      exec (.upData byte) s = .next { s with up := { s.up with
        nIn := s.up.nIn + 1
        nOut := BitVec.ofNat 16 (s.up.nOut.toNat + m)
        dp := { s.up.dp with col := BitVec.ofNat 16 ((s.up.dp.col.toNat + m) % s.up.dp.cols.toNat) }
        outq := s.up.outq ++ (List.range m).map fun k =>
          .data ⟨byte.getLsbD k, decide ((s.up.dp.col.toNat + k) % s.up.dp.cols.toNat = s.up.dp.cols.toNat - 1)⟩ } })

/-- R132. In a state that meets the unpacker's invariant (R31), success reports `rows*cols` with code 0.
The datapath registers are as the rules' pseudocode leaves them (log 4). -/
def Obligations.UpEndCloses : Prop :=
  (∀ w : BitVec 34, w.extractLsb' 32 2 = 0b10 → decodeUp w = .upEnd) ∧
  ∀ s : State,
    (s.up.mode = .idle → exec .upEnd s =
      .next { s with up := { s.up with err := .protocolViolation, nIn := 0, nOut := 0,
                                       outq := s.up.outq ++ [.done .protocolViolation 0] } }) ∧
    (s.up.mode = .err → exec .upEnd s =
      .next { s with up := { s.up with mode := .idle, outq := s.up.outq ++ [.done s.up.err s.up.nOut] } }) ∧
    (s.up.mode = .run → s.up.nOut.toNat < s.up.dp.total.toNat → exec .upEnd s =
      .next { s with up := { s.up with mode := .idle, err := .protocolViolation,
                                       outq := s.up.outq ++ [.done .protocolViolation s.up.nOut] } }) ∧
    (s.up.mode = .run → s.up.dp.total.toNat ≤ s.up.nOut.toNat → exec .upEnd s =
      .next { s with up := { s.up with mode := .idle, outq := s.up.outq ++ [.done s.up.err s.up.nOut] } }) ∧
    (s.up.mode = .run → s.up.dp.total.toNat ≤ s.up.nOut.toNat → UpInv s.config s.up →
      ∃ t : State, exec .upEnd s = .next t ∧
        t.up.outq = s.up.outq ++ [.done .noError (BitVec.ofNat 16 (s.up.dp.rows.toNat * s.up.dp.cols.toNat))])

/-- R150.
The datapath registers are as the rules' pseudocode leaves them (log 4). -/
def Obligations.EnStartOpensFrame : Prop :=
  (∀ w : BitVec 3, w.extractLsb' 1 2 = 0b00 → decodeEn w = .enStart) ∧
  ∀ s : State,
    (s.en.mode = .idle → exec .enStart s = .next { s with en := ⟨.run, .noError, 0, 0, ⟨true, 0⟩, s.en.outq⟩ }) ∧
    (s.en.mode = .run → exec .enStart s = .next { s with en := { s.en with mode := .err, err := .protocolViolation } }) ∧
    (s.en.mode = .err → exec .enStart s = .next s)

/-- R151, R156: the run is counted, flushed when it ends, and split at 255, where `cur_val` keeps its value. The
capacity of the output is tested at each of the two emissions of a split.
The datapath registers are as the rules' pseudocode leaves them (log 4). -/
def Obligations.EnDataCountsRun : Prop :=
  (∀ w : BitVec 3, w.extractLsb' 1 2 = 0b01 → decodeEn w = .enData (w.getLsbD 0)) ∧
  ∀ (b : Bit) (s : State),
    (s.en.mode = .idle → exec (.enData b) s =
      .next { s with en := { s.en with mode := .err, err := .protocolViolation, nIn := 0, nOut := 0 } }) ∧
    (s.en.mode = .err → exec (.enData b) s = .next s) ∧
    (s.en.mode = .run → s.en.nIn.toNat = s.config.cap → exec (.enData b) s =
      .next { s with en := { s.en with mode := .err, err := .capacityExceeded } }) ∧
    (s.en.mode = .run → s.en.nIn.toNat ≠ s.config.cap → b = s.en.dp.curVal → s.en.dp.curCnt.toNat ≠ 255 →
      exec (.enData b) s = .next { s with en := { s.en with
        nIn := s.en.nIn + 1, dp := ⟨s.en.dp.curVal, s.en.dp.curCnt + 1⟩ } }) ∧
    (s.en.mode = .run → s.en.nIn.toNat ≠ s.config.cap → b = s.en.dp.curVal → s.en.dp.curCnt.toNat = 255 →
      (s.en.nOut.toNat = s.config.cap → exec (.enData b) s =
        .next { s with en := { s.en with mode := .err, err := .capacityExceeded } }) ∧
      (s.en.nOut.toNat + 1 = s.config.cap → exec (.enData b) s =
        .next { s with en := { s.en with mode := .err, err := .capacityExceeded, nOut := s.en.nOut + 1,
                                         outq := s.en.outq ++ [.data 255] } }) ∧
      (s.en.nOut.toNat ≠ s.config.cap → s.en.nOut.toNat + 1 ≠ s.config.cap → exec (.enData b) s =
        .next { s with en := { s.en with nIn := s.en.nIn + 1, nOut := s.en.nOut + 2, dp := ⟨s.en.dp.curVal, 1⟩,
                                         outq := s.en.outq ++ [.data 255, .data 0] } })) ∧
    (s.en.mode = .run → s.en.nIn.toNat ≠ s.config.cap → b ≠ s.en.dp.curVal →
      (s.en.nOut.toNat = s.config.cap → exec (.enData b) s =
        .next { s with en := { s.en with mode := .err, err := .capacityExceeded } }) ∧
      (s.en.nOut.toNat ≠ s.config.cap → exec (.enData b) s =
        .next { s with en := { s.en with nIn := s.en.nIn + 1, nOut := s.en.nOut + 1, dp := ⟨b, 1⟩,
                                         outq := s.en.outq ++ [.data s.en.dp.curCnt] } }))

/-- R152.
The datapath registers are as the rules' pseudocode leaves them (log 4). -/
def Obligations.EnEndFlushesAndCloses : Prop :=
  (∀ w : BitVec 3, w.extractLsb' 1 2 = 0b10 → decodeEn w = .enEnd) ∧
  ∀ s : State,
    (s.en.mode = .idle → exec .enEnd s =
      .next { s with en := { s.en with err := .protocolViolation, nIn := 0, nOut := 0,
                                       outq := s.en.outq ++ [.done .protocolViolation 0] } }) ∧
    (s.en.mode = .err → exec .enEnd s =
      .next { s with en := { s.en with mode := .idle, outq := s.en.outq ++ [.done s.en.err s.en.nOut] } }) ∧
    (s.en.mode = .run → s.en.dp.curCnt = 0 → exec .enEnd s =
      .next { s with en := { s.en with mode := .idle, outq := s.en.outq ++ [.done s.en.err s.en.nOut] } }) ∧
    (s.en.mode = .run → s.en.dp.curCnt ≠ 0 → s.en.nOut.toNat = s.config.cap → exec .enEnd s =
      .next { s with en := { s.en with mode := .idle, err := .capacityExceeded,
                                       outq := s.en.outq ++ [.done .capacityExceeded s.en.nOut] } }) ∧
    (s.en.mode = .run → s.en.dp.curCnt ≠ 0 → s.en.nOut.toNat ≠ s.config.cap → exec .enEnd s =
      .next { s with en := { s.en with mode := .idle, nOut := s.en.nOut + 1, dp := ⟨s.en.dp.curVal, 0⟩,
                                       outq := s.en.outq ++ [.data s.en.dp.curCnt, .done s.en.err (s.en.nOut + 1)] } })

/-- R170.
The datapath registers are as the rules' pseudocode leaves them (log 4). -/
def Obligations.DeStartOpensFrame : Prop :=
  (∀ w : BitVec 34, w.extractLsb' 32 2 = 0b00 → decodeDe w = .deStart (w.extractLsb' 16 16) (w.extractLsb' 0 16)) ∧
  ∀ (r c : Dim) (s : State),
    (BitVec.ofNat 32 (r.toNat * c.toNat)).toNat = r.toNat * c.toNat ∧
    (s.de.mode = .idle → exec (.deStart r c) s = .next { s with de :=
      ⟨if r.toNat = 0 ∨ c.toNat = 0 ∨ s.config.cap < r.toNat * c.toNat then .err else .run,
       if r.toNat = 0 ∨ c.toNat = 0 then .protocolViolation
       else if s.config.cap < r.toNat * c.toNat then .capacityExceeded else .noError,
       0, 0, ⟨⟨r, c, BitVec.ofNat 32 (r.toNat * c.toNat), 0⟩, true⟩, s.de.outq⟩ }) ∧
    (s.de.mode = .run → exec (.deStart r c) s =
      .next { s with de := { s.de with mode := .err, err := .protocolViolation } }) ∧
    (s.de.mode = .err → exec (.deStart r c) s = .next s)

/-- R171, R174: with the column counter inside the row (R31), `entry` bits of the current value are emitted,
each with its end-of-row flag, and the value flips; a zero entry emits nothing and flips it too.
The datapath registers are as the rules' pseudocode leaves them (log 4). -/
def Obligations.DeDataEmitsRun : Prop :=
  (∀ w : BitVec 34, w.extractLsb' 32 2 = 0b01 → decodeDe w = .deData (w.extractLsb' 0 8)) ∧
  ∀ (entry : Byte) (s : State),
    (s.de.mode = .idle → exec (.deData entry) s =
      .next { s with de := { s.de with mode := .err, err := .protocolViolation, nIn := 0, nOut := 0 } }) ∧
    (s.de.mode = .err → exec (.deData entry) s = .next s) ∧
    (s.de.mode = .run → s.de.nIn.toNat = s.config.cap → exec (.deData entry) s =
      .next { s with de := { s.de with mode := .err, err := .capacityExceeded } }) ∧
    (s.de.mode = .run → s.de.nIn.toNat ≠ s.config.cap → entry = 0 → exec (.deData entry) s =
      .next { s with de := { s.de with nIn := s.de.nIn + 1, dp := ⟨s.de.dp.shape, !s.de.dp.curVal⟩ } }) ∧
    (s.de.mode = .run → s.de.nIn.toNat ≠ s.config.cap → entry ≠ 0 →
      s.de.dp.shape.total.toNat < s.de.nOut.toNat + entry.toNat → exec (.deData entry) s =
      .next { s with de := { s.de with mode := .err, err := .protocolViolation } }) ∧
    (s.de.mode = .run → s.de.nIn.toNat ≠ s.config.cap → entry ≠ 0 →
      s.de.nOut.toNat + entry.toNat ≤ s.de.dp.shape.total.toNat →
      s.de.dp.shape.col.toNat < s.de.dp.shape.cols.toNat → exec (.deData entry) s =
      .next { s with de := { s.de with
        nIn := s.de.nIn + 1
        nOut := BitVec.ofNat 16 (s.de.nOut.toNat + entry.toNat)
        dp := ⟨{ s.de.dp.shape with
                 col := BitVec.ofNat 16 ((s.de.dp.shape.col.toNat + entry.toNat) % s.de.dp.shape.cols.toNat) },
               !s.de.dp.curVal⟩
        outq := s.de.outq ++ (List.range entry.toNat).map fun k =>
          .data ⟨s.de.dp.curVal,
            decide ((s.de.dp.shape.col.toNat + k) % s.de.dp.shape.cols.toNat = s.de.dp.shape.cols.toNat - 1)⟩ } })

/-- R172. In a state that meets the decoder's invariant (R31), success reports `rows*cols` with code 0.
The datapath registers are as the rules' pseudocode leaves them (log 4). -/
def Obligations.DeEndCloses : Prop :=
  (∀ w : BitVec 34, w.extractLsb' 32 2 = 0b10 → decodeDe w = .deEnd) ∧
  ∀ s : State,
    (s.de.mode = .idle → exec .deEnd s =
      .next { s with de := { s.de with err := .protocolViolation, nIn := 0, nOut := 0,
                                       outq := s.de.outq ++ [.done .protocolViolation 0] } }) ∧
    (s.de.mode = .err → exec .deEnd s =
      .next { s with de := { s.de with mode := .idle, outq := s.de.outq ++ [.done s.de.err s.de.nOut] } }) ∧
    (s.de.mode = .run → s.de.nOut.toNat < s.de.dp.shape.total.toNat → exec .deEnd s =
      .next { s with de := { s.de with mode := .idle, err := .protocolViolation,
                                       outq := s.de.outq ++ [.done .protocolViolation s.de.nOut] } }) ∧
    (s.de.mode = .run → s.de.dp.shape.total.toNat ≤ s.de.nOut.toNat → exec .deEnd s =
      .next { s with de := { s.de with mode := .idle, outq := s.de.outq ++ [.done s.de.err s.de.nOut] } }) ∧
    (s.de.mode = .run → s.de.dp.shape.total.toNat ≤ s.de.nOut.toNat → DeInv s.config s.de →
      ∃ t : State, exec .deEnd s = .next t ∧
        t.de.outq = s.de.outq ++
          [.done .noError (BitVec.ofNat 16 (s.de.dp.shape.rows.toNat * s.de.dp.shape.cols.toNat))])

/-- R86, R113, R133, R153, R173: the reserved class, in each unit and mode.
The datapath registers are as the rules' pseudocode leaves them (log 4). -/
def Obligations.ReservedOpsRaise : Prop :=
  (∀ w : BitVec 10, w.extractLsb' 8 2 = 0b11 → decodePk w = .pkRsvd) ∧
  (∀ w : BitVec 34, w.extractLsb' 32 2 = 0b11 → decodeUp w = .upRsvd ∧ decodeDe w = .deRsvd) ∧
  (∀ w : BitVec 3, w.extractLsb' 1 2 = 0b11 → decodeEn w = .enRsvd) ∧
  ∀ s : State,
    (s.pk.mode = .idle → exec .pkRsvd s =
      .next { s with pk := { s.pk with mode := .err, err := .protocolViolation, nIn := 0, nOut := 0 } }) ∧
    (s.pk.mode = .run → exec .pkRsvd s = .next { s with pk := { s.pk with mode := .err, err := .protocolViolation } }) ∧
    (s.pk.mode = .err → exec .pkRsvd s = .next s) ∧
    (s.up.mode = .idle → exec .upRsvd s =
      .next { s with up := { s.up with mode := .err, err := .protocolViolation, nIn := 0, nOut := 0 } }) ∧
    (s.up.mode = .run → exec .upRsvd s = .next { s with up := { s.up with mode := .err, err := .protocolViolation } }) ∧
    (s.up.mode = .err → exec .upRsvd s = .next s) ∧
    (s.en.mode = .idle → exec .enRsvd s =
      .next { s with en := { s.en with mode := .err, err := .protocolViolation, nIn := 0, nOut := 0 } }) ∧
    (s.en.mode = .run → exec .enRsvd s = .next { s with en := { s.en with mode := .err, err := .protocolViolation } }) ∧
    (s.en.mode = .err → exec .enRsvd s = .next s) ∧
    (s.de.mode = .idle → exec .deRsvd s =
      .next { s with de := { s.de with mode := .err, err := .protocolViolation, nIn := 0, nOut := 0 } }) ∧
    (s.de.mode = .run → exec .deRsvd s = .next { s with de := { s.de with mode := .err, err := .protocolViolation } }) ∧
    (s.de.mode = .err → exec .deRsvd s = .next s) ∧
    (pkRun s.config [.start (), .rsvd, .close] resetPk).outq = [.done .protocolViolation 0]

/-! ## bitops -/

/-- R100 to R103, in the rules' own arithmetic. -/
def Obligations.BitopsResults : Prop :=
  ∀ (byte : Byte) (index : Nat),
    (index ≤ 7 →
      (∃ b : Bit, getBit byte index = .ok b ∧ b.toNat = byte.toNat / 2 ^ index % 2) ∧
      (∃ r : Byte, setBit byte index = .ok r ∧
        r.toNat = if byte.toNat / 2 ^ index % 2 = 0 then byte.toNat + 2 ^ index else byte.toNat) ∧
      (∃ r : Byte, clearBit byte index = .ok r ∧
        r.toNat = if byte.toNat / 2 ^ index % 2 = 1 then byte.toNat - 2 ^ index else byte.toNat)) ∧
    (7 < index →
      getBit byte index = .error .invalidBitIndex ∧ setBit byte index = .error .invalidBitIndex ∧
      clearBit byte index = .error .invalidBitIndex)

/-- R104: the laws of the three functions. -/
def Obligations.BitopsLaws : Prop :=
  ∀ (byte : Byte) (i j : Nat), i ≤ 7 → j ≤ 7 →
    ∃ r c : Byte, setBit byte i = .ok r ∧ clearBit byte i = .ok c ∧
      getBit r i = .ok true ∧ getBit c i = .ok false ∧
      (i ≠ j → getBit r j = getBit byte j ∧ getBit c j = getBit byte j) ∧
      byte.toNat = ((List.range 8).map fun k =>
        (match getBit byte k with | .ok b => b.toNat | .error _ => 0) * 2 ^ k).sum

/-! ## Independence, invariants, errors -/

/-- R20, R223: "no op of one unit reads or writes a register of another". Every op completes, in every state;
what it leaves alone, and that its unit's result depends on its unit and the capacity alone. -/
def Obligations.OpTouchesItsUnitOnly : Prop :=
  ∀ (i : Instr) (s : State), ∃ t : State, exec i s = .next t ∧
    t.config = s.config ∧ t.script = s.script ∧ t.pkLog = s.pkLog ∧ t.upLog = s.upLog ∧ t.enLog = s.enLog ∧ t.deLog = s.deLog ∧
    (i.unit ≠ .pk → t.pk = s.pk) ∧ (i.unit ≠ .up → t.up = s.up) ∧
    (i.unit ≠ .en → t.en = s.en) ∧ (i.unit ≠ .de → t.de = s.de) ∧
    ∀ s' : State, s'.config = s.config → ∃ t' : State, exec i s' = .next t' ∧
      (s'.pk = s.pk → t'.pk = t.pk) ∧ (s'.up = s.up → t'.up = t.up) ∧
      (s'.en = s.en → t'.en = t.en) ∧ (s'.de = s.de → t'.de = t.de)

/-- R72: events that concern no common unit give the same state in either order. -/
def Obligations.UnitsCommute : Prop :=
  ∀ (s : State) (a b : Event), (∀ u ∈ a.units, u ∉ b.units) →
    ∃ sa sb t, applyEvent a s = .next sa ∧ applyEvent b sa = .next t ∧
      applyEvent b s = .next sb ∧ applyEvent a sb = .next t

/-- R227, R20: steps of two instances give the same machine in either order, and touch no other instance. -/
def Obligations.InstancesAreIndependent : Prop :=
  ∀ (m : Instances) (j k : Nat), j ≠ k →
    (∃ mj mk t, Instances.stepAt j m = .next mj ∧ Instances.stepAt k mj = .next t ∧
      Instances.stepAt k m = .next mk ∧ Instances.stepAt j mk = .next t) ∧
    (∀ t, Instances.stepAt j m = .next t → t[k]? = m[k]? ∧ t.length = m.length)

/-- R31, R33: the invariant of the registers holds at reset, whatever the capacity. -/
def Obligations.InvariantAtReset : Prop := State.reset.Inv ∧ ∀ c : Config, (State.resetWith c).Inv

/-- R31: every step keeps it, whatever the environment does and whatever the capacity, which no step changes (R5). -/
def Obligations.StepKeepsInvariant : Prop :=
  ∀ s t : State, s.Inv → step s = .next t → t.Inv ∧ t.config = s.config

/-- R68: at reset the logs explain the units. The logs are the model's own fields (log 8). -/
def Obligations.LogsExplainUnitsAtReset : Prop := State.reset.Coherent ∧ ∀ c : Config, (State.resetWith c).Coherent

/-- R68, R66, R26, R241: in every state whose logs explain its units, after any step they still do: for each unit the
beats delivered since reset, followed by the pending ones, are what the accepted ops emit, in order, none lost,
duplicated or reordered. The logs are the model's own fields (log 8). -/
def Obligations.StepKeepsLogsTrue : Prop :=
  ∀ s t : State, s.Coherent → step s = .next t → t.Coherent

/-- R248, R87: an op only appends to its unit's output; at most so many DATA beats, then one DONE if it is
an END and none otherwise. -/
def Obligations.OpEmitsBoundedBeats : Prop :=
  ∀ (i : Instr) (s : State), ∃ t : State, exec i s = .next t ∧
    (i.unit = .pk → ∃ (d : List Byte) (o : List (Beat Byte)), t.pk.outq = s.pk.outq ++ (d.map Beat.data ++ o) ∧ d.length ≤ dataBeatBound i ∧
      o = if i.cls = .close then [.done t.pk.err t.pk.nOut] else []) ∧
    (i.unit = .up → ∃ (d : List BitOut) (o : List (Beat BitOut)), t.up.outq = s.up.outq ++ (d.map Beat.data ++ o) ∧ d.length ≤ dataBeatBound i ∧
      o = if i.cls = .close then [.done t.up.err t.up.nOut] else []) ∧
    (i.unit = .en → ∃ (d : List Byte) (o : List (Beat Byte)), t.en.outq = s.en.outq ++ (d.map Beat.data ++ o) ∧ d.length ≤ dataBeatBound i ∧
      o = if i.cls = .close then [.done t.en.err t.en.nOut] else []) ∧
    (i.unit = .de → ∃ (d : List BitOut) (o : List (Beat BitOut)), t.de.outq = s.de.outq ++ (d.map Beat.data ++ o) ∧ d.length ≤ dataBeatBound i ∧
      o = if i.cls = .close then [.done t.de.err t.de.nOut] else [])

/-- R217, R218, R219: once a frame is rejected, no op but END changes anything, so the first code stands, and the
END reports it and returns to IDLE.
The datapath registers are as the rules' pseudocode leaves them (log 4). -/
def Obligations.RejectedFrameWaitsForEnd : Prop :=
  ∀ (ops : List Instr) (s : State), (∀ i ∈ ops, i.cls ≠ .close) →
    (s.pk.mode = .err → (∀ i ∈ ops, i.unit = .pk) → execAll (ops ++ [.pkEnd]) s =
      .next { s with pk := { s.pk with mode := .idle, outq := s.pk.outq ++ [.done s.pk.err s.pk.nOut] } }) ∧
    (s.up.mode = .err → (∀ i ∈ ops, i.unit = .up) → execAll (ops ++ [.upEnd]) s =
      .next { s with up := { s.up with mode := .idle, outq := s.up.outq ++ [.done s.up.err s.up.nOut] } }) ∧
    (s.en.mode = .err → (∀ i ∈ ops, i.unit = .en) → execAll (ops ++ [.enEnd]) s =
      .next { s with en := { s.en with mode := .idle, outq := s.en.outq ++ [.done s.en.err s.en.nOut] } }) ∧
    (s.de.mode = .err → (∀ i ∈ ops, i.unit = .de) → execAll (ops ++ [.deEnd]) s =
      .next { s with de := { s.de with mode := .idle, outq := s.de.outq ++ [.done s.de.err s.de.nOut] } })

/-- R214: CapacityExceeded "has these causes, and no others". Before the op the unit is not in mode ERR, and in
mode RUN `err` is 0, as it always is. -/
def Obligations.CapacityExceededCauses : Prop :=
  ∀ (i : Instr) (s : State), ∃ t : State, exec i s = .next t ∧
    (i.unit = .pk → s.pk.mode ≠ .err → (s.pk.mode = .run → s.pk.err = .noError) →
      (t.pk.err = .capacityExceeded ↔
        s.pk.mode = .run ∧ ∃ e, i = .pkData e ∧ s.pk.nIn.toNat = s.config.cap)) ∧
    (i.unit = .up → s.up.mode ≠ .err → (s.up.mode = .run → s.up.err = .noError) →
      (t.up.err = .capacityExceeded ↔
        s.up.mode = .idle ∧ ∃ r c, i = .upStart r c ∧ 1 ≤ r.toNat ∧ 1 ≤ c.toNat ∧ s.config.cap < r.toNat * c.toNat)) ∧
    (i.unit = .en → s.en.mode ≠ .err → (s.en.mode = .run → s.en.err = .noError) →
      (t.en.err = .capacityExceeded ↔
        s.en.mode = .run ∧
          ((∃ b, i = .enData b ∧ (s.en.nIn.toNat = s.config.cap ∨
             (b ≠ s.en.dp.curVal ∧ s.en.nOut.toNat = s.config.cap) ∨
             (b = s.en.dp.curVal ∧ s.en.dp.curCnt.toNat = 255 ∧
               (s.en.nOut.toNat = s.config.cap ∨ s.en.nOut.toNat + 1 = s.config.cap)))) ∨
           (i = .enEnd ∧ s.en.dp.curCnt ≠ 0 ∧ s.en.nOut.toNat = s.config.cap)))) ∧
    (i.unit = .de → s.de.mode ≠ .err → (s.de.mode = .run → s.de.err = .noError) →
      (t.de.err = .capacityExceeded ↔
        (s.de.mode = .idle ∧ ∃ r c, i = .deStart r c ∧ 1 ≤ r.toNat ∧ 1 ≤ c.toNat ∧ s.config.cap < r.toNat * c.toNat) ∨
        (s.de.mode = .run ∧ ∃ e, i = .deData e ∧ s.de.nIn.toNat = s.config.cap)))

/-- R215: ProtocolViolation "has these causes, and no others". -/
def Obligations.ProtocolViolationCauses : Prop :=
  ∀ (i : Instr) (s : State), ∃ t : State, exec i s = .next t ∧
    (i.unit = .pk → s.pk.mode ≠ .err → (s.pk.mode = .run → s.pk.err = .noError) →
      (t.pk.err = .protocolViolation ↔
        (s.pk.mode = .run ∧ (i.cls = .start ∨ i.cls = .rsvd)) ∨ (s.pk.mode = .idle ∧ i.cls ≠ .start))) ∧
    (i.unit = .up → s.up.mode ≠ .err → (s.up.mode = .run → s.up.err = .noError) →
      (t.up.err = .protocolViolation ↔
        (s.up.mode = .run ∧ (i.cls = .start ∨ i.cls = .rsvd)) ∨ (s.up.mode = .idle ∧ i.cls ≠ .start) ∨
        (s.up.mode = .idle ∧ ∃ r c, i = .upStart r c ∧ (r.toNat = 0 ∨ c.toNat = 0)) ∨
        (s.up.mode = .run ∧ i.cls = .data ∧ s.up.nOut.toNat = s.up.dp.total.toNat) ∨
        (s.up.mode = .run ∧ i = .upEnd ∧ s.up.nOut.toNat < s.up.dp.total.toNat))) ∧
    (i.unit = .en → s.en.mode ≠ .err → (s.en.mode = .run → s.en.err = .noError) →
      (t.en.err = .protocolViolation ↔
        (s.en.mode = .run ∧ (i.cls = .start ∨ i.cls = .rsvd)) ∨ (s.en.mode = .idle ∧ i.cls ≠ .start))) ∧
    (i.unit = .de → s.de.mode ≠ .err → (s.de.mode = .run → s.de.err = .noError) →
      (t.de.err = .protocolViolation ↔
        (s.de.mode = .run ∧ (i.cls = .start ∨ i.cls = .rsvd)) ∨ (s.de.mode = .idle ∧ i.cls ≠ .start) ∨
        (s.de.mode = .idle ∧ ∃ r c, i = .deStart r c ∧ (r.toNat = 0 ∨ c.toNat = 0)) ∨
        (s.de.mode = .run ∧ ∃ e, i = .deData e ∧ s.de.nIn.toNat ≠ s.config.cap ∧ e ≠ 0 ∧
          s.de.dp.shape.total.toNat < s.de.nOut.toNat + e.toNat) ∨
        (s.de.mode = .run ∧ i = .deEnd ∧ s.de.nOut.toNat < s.de.dp.shape.total.toNat)))

/-- R212, R213: an op brings InvalidBitValue into `err` in one case only, and InvalidBitIndex in none. -/
def Obligations.BitErrorsCauses : Prop :=
  ∀ (i : Instr) (s : State), ∃ t : State, exec i s = .next t ∧
    (t.pk.err = .invalidBitValue → s.pk.err ≠ .invalidBitValue →
      s.pk.mode = .run ∧ ∃ e, i = .pkData e ∧ s.pk.nIn.toNat ≠ s.config.cap ∧ 2 ≤ e.toNat) ∧
    (∀ e, i = .pkData e → s.pk.mode = .run → s.pk.nIn.toNat < s.config.cap → 2 ≤ e.toNat →
      t.pk.mode = .err ∧ t.pk.err = .invalidBitValue) ∧
    (t.up.err = .invalidBitValue → s.up.err = .invalidBitValue) ∧
    (t.en.err = .invalidBitValue → s.en.err = .invalidBitValue) ∧
    (t.de.err = .invalidBitValue → s.de.err = .invalidBitValue) ∧
    (t.pk.err = .invalidBitIndex → s.pk.err = .invalidBitIndex) ∧
    (t.up.err = .invalidBitIndex → s.up.err = .invalidBitIndex) ∧
    (t.en.err = .invalidBitIndex → s.en.err = .invalidBitIndex) ∧
    (t.de.err = .invalidBitIndex → s.de.err = .invalidBitIndex)

/-! ## Whole frames -/

/-- R115, R31: after START and `N` legal elements the whole bytes are out, each emitted by its eighth element,
and the partial byte stands in `acc`. -/
def Obligations.PackerStreamsBytes : Prop :=
  ∀ (s : State) (R : List Bit), s.pk.mode = .idle → R.length ≤ s.config.cap →
    execAll (.pkStart :: R.map fun b => .pkData (bitElem b)) s =
      .next { s with pk := ⟨.run, .noError, BitVec.ofNat 16 R.length, BitVec.ofNat 16 (R.length / 8),
        ⟨packByte R (R.length / 8), BitVec.ofNat 3 (R.length % 8)⟩,
        s.pk.outq ++ ((List.range (R.length / 8)).map fun j => .data (packByte R j))⟩ }

/-- R115, R112: a whole frame over a legal raster; after `n` of its elements the first `n div 8` bytes are out, so
each whole byte is emitted by its eighth element and the last partial one by END.
The datapath registers are as the rules' pseudocode leaves them (log 4). -/
def Obligations.PackFrameIsPack : Prop :=
  ∀ (s : State) (R : List Bit), s.pk.mode = .idle → R.length ≤ s.config.cap →
    (∀ n, n ≤ R.length → ∃ t : State,
      execAll (.pkStart :: (R.take n).map fun b => .pkData (bitElem b)) s = .next t ∧
      t.pk.outq = s.pk.outq ++ ((pack R).take (n / 8)).map .data) ∧
    execAll ((pkFrame (R.map bitElem)).map pkInstr) s =
      .next { s with pk := ⟨.idle, .noError, BitVec.ofNat 16 R.length, BitVec.ofNat 16 (ceil8 R.length), ⟨0, 0⟩,
        s.pk.outq ++ (pack R).map .data ++ [.done .noError (BitVec.ofNat 16 (ceil8 R.length))]⟩ }

/-- R116: a frame whose first illegal element is at `p < CAP`, and a frame longer than `CAP`. -/
def Obligations.PackErrorFrames : Prop :=
  ∀ (s : State) (good : List Bit) (bad : Byte) (rest : List Byte), s.pk.mode = .idle →
    (good.length < s.config.cap → 2 ≤ bad.toNat →
      ∃ t : State, execAll ((pkFrame (good.map bitElem ++ bad :: rest)).map pkInstr) s = .next t ∧
        t.pk.mode = .idle ∧
        t.pk.outq = s.pk.outq ++ ((List.range (good.length / 8)).map fun j => .data (packByte good j)) ++
          [.done .invalidBitValue (BitVec.ofNat 16 (good.length / 8))]) ∧
    (good.length = s.config.cap →
      ∃ t : State, execAll ((pkFrame (good.map bitElem ++ bad :: rest)).map pkInstr) s = .next t ∧
        t.pk.mode = .idle ∧
        t.pk.outq = s.pk.outq ++ ((List.range (s.config.cap / 8)).map fun j => .data (packByte good j)) ++
          [.done .capacityExceeded (BitVec.ofNat 16 (s.config.cap / 8))])

/-- R136: a frame of exactly `ceil8(T)` bytes, of fewer, and of more. -/
def Obligations.UnpackFrameIsUnpack : Prop :=
  ∀ (s : State) (rows cols : Dim) (P : List Byte) (T : Nat), s.up.mode = .idle →
    1 ≤ rows.toNat → 1 ≤ cols.toNat → T = rows.toNat * cols.toNat → T ≤ s.config.cap →
    ∃ t : State, execAll ((upFrame rows cols P).map upInstr) s = .next t ∧ t.up.mode = .idle ∧
      (P.length = ceil8 T → t.up.outq =
        s.up.outq ++ (withEol cols.toNat (unpack P T)).map .data ++ [.done .noError (BitVec.ofNat 16 T)]) ∧
      (P.length < ceil8 T → t.up.outq =
        s.up.outq ++ (withEol cols.toNat (unpack P (8 * P.length))).map .data ++
          [.done .protocolViolation (BitVec.ofNat 16 (8 * P.length))]) ∧
      (ceil8 T < P.length → t.up.outq =
        s.up.outq ++ (withEol cols.toNat (unpack P T)).map .data ++
          [.done .protocolViolation (BitVec.ofNat 16 T)])

/-- R135, 93 U2: byte sequences that agree on the raster's bits, whatever their pad bits, leave the unpacker in
the same state, its output included. -/
def Obligations.UnpackerIgnoresPadBits : Prop :=
  ∀ (s : State) (rows cols : Dim) (P Q : List Byte), s.up.mode = .idle → P.length = Q.length →
    (∀ i, i < rows.toNat * cols.toNat → (P.getD (i / 8) 0).getLsbD (i % 8) = (Q.getD (i / 8) 0).getLsbD (i % 8)) →
    execAll ((upFrame rows cols P).map upInstr) s = execAll ((upFrame rows cols Q).map upInstr) s

/-- R157, R192, R158: a whole encoder frame over `N <= CAP` bits, accepted when the entries fit and otherwise
rejected by its END with the first `CAP` entries out. -/
def Obligations.EncodeFrameIsEncodeRuns : Prop :=
  ∀ (s : State) (B : List Bit), s.en.mode = .idle → B.length ≤ s.config.cap →
    ∃ t : State, execAll ((enFrame B).map enInstr) s = .next t ∧ t.en.mode = .idle ∧
      ((encodeRuns B).length ≤ s.config.cap → t.en.outq =
        s.en.outq ++ (encodeRuns B).map .data ++ [.done .noError (BitVec.ofNat 16 (encodeRuns B).length)]) ∧
      (s.config.cap < (encodeRuns B).length → t.en.outq =
        s.en.outq ++ ((encodeRuns B).take s.config.cap).map .data ++
          [.done .capacityExceeded (BitVec.ofNat 16 s.config.cap)])

/-- R157: the state machine's encoding is the closed form by maximal runs. -/
def Obligations.EncodingIsRunsSplit : Prop := ∀ B : List Bit, encodeRuns B = encodeClosed B

/-- R154: the split of a run at 255: its counts stand at the implied value of the run, its placeholders between them. -/
def Obligations.SplitRunLaws : Prop :=
  ∀ L : Nat, 1 ≤ L →
    (L ≤ 255 → splitRun L = [BitVec.ofNat 8 L]) ∧
    (256 ≤ L → splitRun L = [255, 0] ++ splitRun (L - 255)) ∧
    (splitRun L).length = 2 * ((L + 254) / 255) - 1 ∧ (splitRun L).length % 2 = 1 ∧ entrySum (splitRun L) = L ∧
    (∀ i, i < (splitRun L).length → (i % 2 = 0 ↔ (splitRun L).getD i 0 ≠ 0)) ∧
    (∀ v : Bit, decFrom v (splitRun L) = List.replicate L v)

/-- R158: how many entries an encoding has; the worst case, `N + 1`, is met by no sequence but the alternating
one that starts with 0. -/
def Obligations.EntryCount : Prop :=
  ∀ B : List Bit,
    (encodeRuns B).length = (leadEntry B).length + ((runsOf B).map fun r => 2 * ((r.2 + 254) / 255) - 1).sum ∧
    (encodeRuns B).length ≤ B.length + 1 ∧
    (1 ≤ B.length →
      ((encodeRuns B).length = B.length + 1 ↔ B = (List.range B.length).map fun i => decide (i % 2 = 1)))

/-- R205: where a zero entry can stand in an encoding. -/
def Obligations.ZeroEntriesOfEncodings : Prop :=
  ∀ B : List Bit,
    (∀ i, i < (encodeRuns B).length → (encodeRuns B).getD i 0 = 0 →
      i = 0 ∨ (encodeRuns B).getD (i - 1) 0 = 255) ∧
    (∀ i, i + 1 < (encodeRuns B).length → ¬((encodeRuns B).getD i 0 = 0 ∧ (encodeRuns B).getD (i + 1) 0 = 0)) ∧
    (encodeRuns B).getLast? ≠ some 0

/-- R175: a frame whose entries sum to `T`, to less, and one some prefix of which would pass `T`. -/
def Obligations.DecodeFrameIsDecodeRuns : Prop :=
  ∀ (s : State) (rows cols : Dim) (E : List Byte) (T : Nat), s.de.mode = .idle →
    1 ≤ rows.toNat → 1 ≤ cols.toNat → T = rows.toNat * cols.toNat → T ≤ s.config.cap → E.length ≤ s.config.cap →
    (entrySum E ≤ T →
      ∃ t : State, execAll ((deFrame rows cols E).map deInstr) s = .next t ∧ t.de.mode = .idle ∧
        t.de.outq = s.de.outq ++ (withEol cols.toNat (decodeRuns E)).map .data ++
          [.done (if entrySum E = T then .noError else .protocolViolation) (BitVec.ofNat 16 (entrySum E))]) ∧
    (∀ (fits : List Byte) (big : Byte) (rest : List Byte), E = fits ++ big :: rest → entrySum fits ≤ T →
      T < entrySum fits + big.toNat →
      ∃ t : State, execAll ((deFrame rows cols E).map deInstr) s = .next t ∧ t.de.mode = .idle ∧
        t.de.outq = s.de.outq ++ (withEol cols.toNat (decodeRuns fits)).map .data ++
          [.done .protocolViolation (BitVec.ofNat 16 (entrySum fits))])

/-- R222, R194: a frame ends with code 0 exactly when its input is legal and complete; then, by the frame
statements, its payloads are the frame function of its input. -/
def Obligations.FrameAcceptedIffLegal : Prop :=
  ∀ s : State,
    (∀ R : List Byte, s.pk.mode = .idle → ∃ t : State, execAll ((pkFrame R).map pkInstr) s = .next t ∧
      (t.pk.err = .noError ↔ R.length ≤ s.config.cap ∧ ∀ e ∈ R, e.toNat ≤ 1)) ∧
    (∀ (rows cols : Dim) (P : List Byte), s.up.mode = .idle →
      ∃ t : State, execAll ((upFrame rows cols P).map upInstr) s = .next t ∧
      (t.up.err = .noError ↔ 1 ≤ rows.toNat ∧ 1 ≤ cols.toNat ∧ rows.toNat * cols.toNat ≤ s.config.cap ∧
        P.length = ceil8 (rows.toNat * cols.toNat))) ∧
    (∀ B : List Bit, s.en.mode = .idle → ∃ t : State, execAll ((enFrame B).map enInstr) s = .next t ∧
      (t.en.err = .noError ↔ B.length ≤ s.config.cap ∧ (encodeRuns B).length ≤ s.config.cap)) ∧
    (∀ (rows cols : Dim) (E : List Byte), s.de.mode = .idle →
      ∃ t : State, execAll ((deFrame rows cols E).map deInstr) s = .next t ∧
      (t.de.err = .noError ↔ 1 ≤ rows.toNat ∧ 1 ≤ cols.toNat ∧ rows.toNat * cols.toNat ≤ s.config.cap ∧
        E.length ≤ s.config.cap ∧ entrySum E = rows.toNat * cols.toNat))

/-! ## The required properties -/

/-- R195: the round trip through the packer. -/
def Obligations.UnpackInvertsPack : Prop := ∀ R : List Bit, unpack (pack R) R.length = R

/-- R196: "decodeRuns(encodeRuns(B)) = B" for every bit sequence, and the whole pipeline of frame functions. -/
def Obligations.DecodeInvertsEncode : Prop :=
  ∀ B : List Bit, decodeRuns (encodeRuns B) = B ∧ decodeRuns (encodeRuns (unpack (pack B) B.length)) = B

/-- R197: the run-count invariant. -/
def Obligations.EntriesSumToLength : Prop :=
  (∀ B : List Bit, entrySum (encodeRuns B) = B.length) ∧
  (∀ E : List Byte, (decodeRuns E).length = entrySum E)

/-- R198, R199, R204: the document's own examples, and the empty boundary on functions and frames. -/
def Obligations.DocumentExamples : Prop :=
  encodeRuns (List.replicate 300 true) = [255, 0, 45] ∧
  encodeRuns (List.replicate 300 false) = [0, 255, 0, 45] ∧
  decodeRuns [255, 0, 45] = List.replicate 300 true ∧
  decodeRuns [0, 255, 0, 45] = List.replicate 300 false ∧
  pack [] = [] ∧ encodeRuns [] = [] ∧
  pack [true, true, true, false, false, false, true, true, true, false, false, false] = [0xC7, 0x01] ∧
  unpack [0xC7, 0x01] 12 = [true, true, true, false, false, false, true, true, true, false, false, false] ∧
  (0xC7 : Byte).toNat = 1 + 2 + 4 + 64 + 128 ∧
  (withEol 6 (unpack [0xC7, 0x01] 12)).map BitOut.eol =
    [false, false, false, false, false, true, false, false, false, false, false, true] ∧
  encodeRuns [true, true, true, false, false, false, true, true, true, false, false, false] = [3, 3, 3, 3] ∧
  decodeRuns [3, 3, 3, 3] = [true, true, true, false, false, false, true, true, true, false, false, false] ∧
  (pkRun Config.hw (pkFrame []) resetPk).outq = [.done .noError 0] ∧
  (enRun Config.hw (enFrame []) resetEn).outq = [.done .noError 0] ∧
  (upRun Config.hw (upFrame 0 0 []) resetUp).outq = [.done .protocolViolation 0] ∧
  (deRun Config.hw (deFrame 0 0 []) resetDe).outq = [.done .protocolViolation 0]

/-- R176: a decoder frame over what the encoder emits, of the matching shape, gives the bits back, with the
flags the unpacker gives the same bits. -/
def Obligations.DecoderFrameInvertsEncoder : Prop :=
  ∀ (s : State) (rows cols : Dim) (B : List Bit), s.de.mode = .idle → 1 ≤ rows.toNat → 1 ≤ cols.toNat →
    B.length = rows.toNat * cols.toNat → B.length ≤ s.config.cap → (encodeRuns B).length ≤ s.config.cap →
    ∃ t : State, execAll ((deFrame rows cols (encodeRuns B)).map deInstr) s = .next t ∧ t.de.mode = .idle ∧
      t.de.outq = s.de.outq ++ (withEol cols.toNat B).map .data ++ [.done .noError (BitVec.ofNat 16 B.length)]

/-- R196, R200, R201, R202, for every capacity: the cycle of a valid raster gives `pack`, the bits, the entries
and the raster again, and is accepted when the entries fit; otherwise it is rejected with CapacityExceeded. -/
def Obligations.CycleReproducesRaster : Prop :=
  ∀ (c : Config) (rows cols : Dim) (B : List Bit), 1 ≤ rows.toNat → 1 ≤ cols.toNat →
    B.length = rows.toNat * cols.toNat → B.length ≤ c.cap →
    payloads (cycle c rows cols (B.map bitElem)).pk = pack B ∧
    payloads (cycle c rows cols (B.map bitElem)).up = withEol cols.toNat B ∧
    ((encodeRuns B).length ≤ c.cap →
      payloads (cycle c rows cols (B.map bitElem)).en = encodeRuns B ∧
      payloads (cycle c rows cols (B.map bitElem)).de = withEol cols.toNat B ∧
      (cycle c rows cols (B.map bitElem)).status = some .noError) ∧
    (c.cap < (encodeRuns B).length →
      (cycle c rows cols (B.map bitElem)).status = some .capacityExceeded)

/-- R202: every cycle ends with a DONE of each unit, whatever the shape and the elements; its status is the most upstream
code, so an illegal element among the first `CAP` makes it InvalidBitValue. -/
def Obligations.CycleErrorIsMostUpstream : Prop :=
  ∀ (c : Config) (rows cols : Dim) (R : List Byte),
    (∃ a b d e, closingCode (cycle c rows cols R).pk = some a ∧ closingCode (cycle c rows cols R).up = some b ∧
      closingCode (cycle c rows cols R).en = some d ∧ closingCode (cycle c rows cols R).de = some e ∧
      (cycle c rows cols R).status = some (if a ≠ .noError then a else if b ≠ .noError then b
        else if d ≠ .noError then d else e)) ∧
    ((∃ e ∈ R.take c.cap, 2 ≤ e.toNat) → (cycle c rows cols R).status = some .invalidBitValue)

/-! ## What the environment may conclude -/

/-- R243, R241: the frames an environment may commit are exactly those the log shows closed by the delivery of a DONE
with code 0; a frame's payloads are the DATA delivered since the last DONE or reset before it, so that nothing of a frame
cut short by a reset, or closed with an error, is ever among them. The logs are the model's own fields (log 8). -/
def Obligations.CommittedFramesEndCleanly : Prop :=
  ∀ (α : Type) (log : List (Obs α)) (frame : List α),
    frame ∈ (heldOf log).committed ↔
      ∃ (newer during older : List (Obs α)) (c : Count), log = newer ++ .delivered (.done .noError c) :: (during ++ older) ∧
        (∀ o ∈ during, o.endsFrame = false) ∧ (∀ o ∈ older.head?, o.endsFrame = true) ∧
        beatsSinceReset during = frame.map .data

/-- R249: in a state whose logs explain its units, a unit that has accepted an op since reset is idle with nothing
pending exactly when its run is over: a DONE was the last beat delivered, with the code and the count that `err` and
`n_out` show. R200, R201: the events of a cycle, run from reset on a machine of any capacity, bring the cycle to its end
and deliver the beats of `cycle`. The order of these events and the logs are the model's choice (log 8, log 11). -/
def Obligations.RunsEndWithDone : Prop :=
  (∀ s : State, s.Coherent →
    ((∃ i ∈ opsSinceReset s.pkLog, i.unit = .pk) → (s.pk.mode = .idle ∧ s.pk.outq = [] ↔ s.pk.over s.pkLog = true)) ∧
    ((∃ i ∈ opsSinceReset s.upLog, i.unit = .up) → (s.up.mode = .idle ∧ s.up.outq = [] ↔ s.up.over s.upLog = true)) ∧
    ((∃ i ∈ opsSinceReset s.enLog, i.unit = .en) → (s.en.mode = .idle ∧ s.en.outq = [] ↔ s.en.over s.enLog = true)) ∧
    ((∃ i ∈ opsSinceReset s.deLog, i.unit = .de) → (s.de.mode = .idle ∧ s.de.outq = [] ↔ s.de.over s.deLog = true))) ∧
  (∀ (c : Config) (rows cols : Dim) (R : List Byte),
    runOver [.pk, .up, .en, .de] { State.resetWith c with script := cycleScript c rows cols R } = true ∧
    ∃ t : State, steps (cycleScript c rows cols R).length
        { State.resetWith c with script := cycleScript c rows cols R } = .next t ∧
      t.script = [] ∧ beatsSinceReset t.pkLog = (cycle c rows cols R).pk ∧ beatsSinceReset t.upLog = (cycle c rows cols R).up ∧
      beatsSinceReset t.enLog = (cycle c rows cols R).en ∧ beatsSinceReset t.deLog = (cycle c rows cols R).de)
end

