-- ==== Sys2Proof/Laws/State.lean ====
section
/-! SUPPORT. What each shared update of a unit does to each of its fields. -/

namespace Sys2Proof.Machine.UnitState

open Sys2Proof

variable {D α : Type} (u : UnitState D α)

@[simp] theorem emit_mode (b : Beat α) : (u.emit b).mode = u.mode := rfl
@[simp] theorem emit_err (b : Beat α) : (u.emit b).err = u.err := rfl
@[simp] theorem emit_nIn (b : Beat α) : (u.emit b).nIn = u.nIn := rfl
@[simp] theorem emit_nOut (b : Beat α) : (u.emit b).nOut = u.nOut := rfl
@[simp] theorem emit_dp (b : Beat α) : (u.emit b).dp = u.dp := rfl
@[simp] theorem emit_outq (b : Beat α) : (u.emit b).outq = u.outq ++ [b] := rfl

@[simp] theorem emitData_mode (v : α) : (u.emitData v).mode = u.mode := rfl
@[simp] theorem emitData_err (v : α) : (u.emitData v).err = u.err := rfl
@[simp] theorem emitData_nIn (v : α) : (u.emitData v).nIn = u.nIn := rfl
@[simp] theorem emitData_nOut (v : α) : (u.emitData v).nOut = u.nOut + 1 := rfl
@[simp] theorem emitData_dp (v : α) : (u.emitData v).dp = u.dp := rfl
@[simp] theorem emitData_outq (v : α) : (u.emitData v).outq = u.outq ++ [.data v] := rfl

@[simp] theorem openFrame_mode : u.openFrame.mode = .run := rfl
@[simp] theorem openFrame_err : u.openFrame.err = .noError := rfl
@[simp] theorem openFrame_nIn : u.openFrame.nIn = 0 := rfl
@[simp] theorem openFrame_nOut : u.openFrame.nOut = 0 := rfl
@[simp] theorem openFrame_dp : u.openFrame.dp = u.dp := rfl
@[simp] theorem openFrame_outq : u.openFrame.outq = u.outq := rfl

@[simp] theorem closeFrame_mode : u.closeFrame.mode = .idle := rfl
@[simp] theorem closeFrame_err : u.closeFrame.err = u.err := rfl
@[simp] theorem closeFrame_nIn : u.closeFrame.nIn = u.nIn := rfl
@[simp] theorem closeFrame_nOut : u.closeFrame.nOut = u.nOut := rfl
@[simp] theorem closeFrame_dp : u.closeFrame.dp = u.dp := rfl
@[simp] theorem closeFrame_outq : u.closeFrame.outq = u.outq ++ [.done u.err u.nOut] := rfl

@[simp] theorem clearCounts_mode : u.clearCounts.mode = u.mode := rfl
@[simp] theorem clearCounts_err : u.clearCounts.err = u.err := rfl
@[simp] theorem clearCounts_nIn : u.clearCounts.nIn = 0 := rfl
@[simp] theorem clearCounts_nOut : u.clearCounts.nOut = 0 := rfl
@[simp] theorem clearCounts_dp : u.clearCounts.dp = u.dp := rfl
@[simp] theorem clearCounts_outq : u.clearCounts.outq = u.outq := rfl

@[simp] theorem endWithoutFrame_mode : u.endWithoutFrame.mode = u.mode := rfl
@[simp] theorem endWithoutFrame_err : u.endWithoutFrame.err = .protocolViolation := rfl
@[simp] theorem endWithoutFrame_nIn : u.endWithoutFrame.nIn = 0 := rfl
@[simp] theorem endWithoutFrame_nOut : u.endWithoutFrame.nOut = 0 := rfl
@[simp] theorem endWithoutFrame_dp : u.endWithoutFrame.dp = u.dp := rfl
@[simp] theorem endWithoutFrame_outq : u.endWithoutFrame.outq = u.outq ++ [.done .protocolViolation 0] := rfl

@[simp] theorem dropHead_mode : u.dropHead.mode = u.mode := rfl
@[simp] theorem dropHead_err : u.dropHead.err = u.err := rfl
@[simp] theorem dropHead_nIn : u.dropHead.nIn = u.nIn := rfl
@[simp] theorem dropHead_nOut : u.dropHead.nOut = u.nOut := rfl
@[simp] theorem dropHead_dp : u.dropHead.dp = u.dp := rfl
@[simp] theorem dropHead_outq : u.dropHead.outq = u.outq.tail := rfl

/-- R211: outside mode ERR a `raise` sets the code and the mode, and nothing else. -/
theorem raise_of_ne {u : UnitState D α} (h : u.mode ≠ .err) (e : ErrCode) :
    u.raise e = { u with err := e, mode := .err } := by simp [raise, h]

/-- R211: in mode ERR a `raise` changes nothing. -/
theorem raise_of_err {u : UnitState D α} (h : u.mode = .err) (e : ErrCode) : u.raise e = u := by simp [raise, h]

@[simp] theorem raise_mode (e : ErrCode) : (u.raise e).mode = .err := by
  by_cases h : u.mode = .err <;> simp [raise, h]
@[simp] theorem raise_nIn (e : ErrCode) : (u.raise e).nIn = u.nIn := by
  by_cases h : u.mode = .err <;> simp [raise, h]
@[simp] theorem raise_nOut (e : ErrCode) : (u.raise e).nOut = u.nOut := by
  by_cases h : u.mode = .err <;> simp [raise, h]
@[simp] theorem raise_dp (e : ErrCode) : (u.raise e).dp = u.dp := by
  by_cases h : u.mode = .err <;> simp [raise, h]
@[simp] theorem raise_outq (e : ErrCode) : (u.raise e).outq = u.outq := by
  by_cases h : u.mode = .err <;> simp [raise, h]

@[simp] theorem openRejected_mode : u.openRejected.mode = .err := by simp [openRejected]
@[simp] theorem openRejected_nIn : u.openRejected.nIn = 0 := by simp [openRejected]
@[simp] theorem openRejected_nOut : u.openRejected.nOut = 0 := by simp [openRejected]
@[simp] theorem openRejected_dp : u.openRejected.dp = u.dp := by simp [openRejected]
@[simp] theorem openRejected_outq : u.openRejected.outq = u.outq := by simp [openRejected]

/-- R93: DATA or RSVD in IDLE leaves mode ERR, code 4 and cleared counts. -/
theorem openRejected_of_idle {u : UnitState D α} (h : u.mode = .idle) :
    u.openRejected = { u with err := .protocolViolation, mode := .err, nIn := 0, nOut := 0 } := by
  simp [openRejected, raise, clearCounts, h]

end Sys2Proof.Machine.UnitState

namespace Sys2Proof.Machine

@[simp] theorem resetWith_config (c : Config) : (State.resetWith c).config = c := rfl
@[simp] theorem resetWith_pk (c : Config) : (State.resetWith c).pk = resetPk := rfl
@[simp] theorem resetWith_up (c : Config) : (State.resetWith c).up = resetUp := rfl
@[simp] theorem resetWith_en (c : Config) : (State.resetWith c).en = resetEn := rfl
@[simp] theorem resetWith_de (c : Config) : (State.resetWith c).de = resetDe := rfl

@[simp] theorem resetPk_mode : resetPk.mode = .idle := rfl
@[simp] theorem resetPk_outq : resetPk.outq = [] := rfl
@[simp] theorem resetUp_mode : resetUp.mode = .idle := rfl
@[simp] theorem resetUp_outq : resetUp.outq = [] := rfl
@[simp] theorem resetEn_mode : resetEn.mode = .idle := rfl
@[simp] theorem resetEn_outq : resetEn.outq = [] := rfl
@[simp] theorem resetDe_mode : resetDe.mode = .idle := rfl
@[simp] theorem resetDe_outq : resetDe.outq = [] := rfl

end Sys2Proof.Machine
end

