-- ==== Sys2Proof/Laws/Ops.lean ====
section
/-! SUPPORT. The dispatch table entry by entry, and that no action reads the output queue. -/

namespace Sys2Proof.Machine

open Sys2Proof

section
variable {σ τ : Type}

@[simp] theorem Act.state_ok (u : σ) : (Act.ok u).state = u := rfl
@[simp] theorem Act.state_raised (u : σ) : (Act.raised u).state = u := rfl
@[simp] theorem Act.ok_andThen (u : σ) (f : σ → Act σ) : (Act.ok u).andThen f = f u := rfl
@[simp] theorem Act.raised_andThen (u : σ) (f : σ → Act σ) : (Act.raised u).andThen f = .raised u := rfl

/-- Apply a function to the unit an action leaves, keeping how it ended. -/
def Act.map (g : σ → τ) : Act σ → Act τ
  | .ok u => .ok (g u)
  | .raised u => .raised (g u)

@[simp] theorem Act.map_ok (g : σ → τ) (u : σ) : (Act.ok u).map g = .ok (g u) := rfl
@[simp] theorem Act.map_raised (g : σ → τ) (u : σ) : (Act.raised u).map g = .raised (g u) := rfl
@[simp] theorem Act.state_map (g : σ → τ) (a : Act σ) : (a.map g).state = g a.state := by cases a <;> rfl

theorem Act.map_andThen {g : σ → σ} {f : σ → Act σ} (hf : ∀ u, f (g u) = (f u).map g) (a : Act σ) :
    (a.map g).andThen f = (a.andThen f).map g := by cases a <;> simp [hf]

end

section
variable {D α A P : Type} {S : A → UnitState D α → Act (UnitState D α)}
  {T : P → UnitState D α → Act (UnitState D α)} {E : UnitState D α → Act (UnitState D α)} {u : UnitState D α}

theorem accept_idle_start (h : u.mode = .idle) (a : A) : accept S T E (.start a) u = (S a u.openFrame).state := by
  simp [accept, h]
theorem accept_idle_data (h : u.mode = .idle) (p : P) : accept S T E (.data p) u = u.openRejected := by
  simp [accept, h]
theorem accept_idle_close (h : u.mode = .idle) : accept S T E .close u = u.endWithoutFrame := by simp [accept, h]
theorem accept_idle_rsvd (h : u.mode = .idle) : accept S T E .rsvd u = u.openRejected := by simp [accept, h]
theorem accept_run_start (h : u.mode = .run) (a : A) : accept S T E (.start a) u = u.raise .protocolViolation := by
  simp [accept, h]
theorem accept_run_data (h : u.mode = .run) (p : P) : accept S T E (.data p) u = (T p u).state := by simp [accept, h]
theorem accept_run_close (h : u.mode = .run) : accept S T E .close u = (E u).state.closeFrame := by simp [accept, h]
theorem accept_run_rsvd (h : u.mode = .run) : accept S T E .rsvd u = u.raise .protocolViolation := by
  simp [accept, h]
theorem accept_err_close (h : u.mode = .err) : accept S T E .close u = u.closeFrame := by simp [accept, h]

/-- R93, R218: in mode ERR every op but END changes nothing. -/
theorem accept_err_of_ne_close (h : u.mode = .err) {op : Op A P} (hop : op ≠ .close) : accept S T E op u = u := by
  cases op <;> simp_all [accept]

end

/-- The unit with beats put before its pending ones. -/
def UnitState.prepend {D α : Type} (q : List (Beat α)) (u : UnitState D α) : UnitState D α :=
  { u with outq := q ++ u.outq }

section
variable {D α : Type} (q : List (Beat α)) (u : UnitState D α)

@[simp] theorem prepend_mode : (u.prepend q).mode = u.mode := rfl
@[simp] theorem prepend_err : (u.prepend q).err = u.err := rfl
@[simp] theorem prepend_nIn : (u.prepend q).nIn = u.nIn := rfl
@[simp] theorem prepend_nOut : (u.prepend q).nOut = u.nOut := rfl
@[simp] theorem prepend_dp : (u.prepend q).dp = u.dp := rfl
@[simp] theorem prepend_outq : (u.prepend q).outq = q ++ u.outq := rfl

theorem prepend_emit (b : Beat α) : (u.prepend q).emit b = (u.emit b).prepend q := by
  simp [UnitState.prepend, UnitState.emit]
theorem prepend_emitData (v : α) : (u.prepend q).emitData v = (u.emitData v).prepend q := by
  simp [UnitState.prepend, UnitState.emitData, UnitState.emit]
theorem prepend_raise (e : ErrCode) : (u.prepend q).raise e = (u.raise e).prepend q := by
  by_cases h : u.mode = .err <;> simp [UnitState.raise, UnitState.prepend, h]
theorem prepend_fail (e : ErrCode) : (u.prepend q).fail e = (u.fail e).map (UnitState.prepend q) := by
  simp [UnitState.fail, prepend_raise]
theorem prepend_closeFrame : (u.prepend q).closeFrame = u.closeFrame.prepend q := by
  simp [UnitState.prepend, UnitState.closeFrame, UnitState.emit]
theorem prepend_openFrame : (u.prepend q).openFrame = u.openFrame.prepend q := rfl
theorem prepend_openRejected : (u.prepend q).openRejected = u.openRejected.prepend q := by
  simp only [UnitState.openRejected]
  exact prepend_raise q u.clearCounts _
theorem prepend_endWithoutFrame : (u.prepend q).endWithoutFrame = u.endWithoutFrame.prepend q := by
  simp [UnitState.prepend, UnitState.endWithoutFrame, UnitState.emit, UnitState.clearCounts]

/-- An action that neither reads nor removes pending beats (R26: `emit` appends at the tail). -/
def Blind (act : UnitState D α → Act (UnitState D α)) : Prop :=
  ∀ q u, act (UnitState.prepend q u) = (act u).map (UnitState.prepend q)

variable {A P : Type} {S : A → UnitState D α → Act (UnitState D α)}
  {T : P → UnitState D α → Act (UnitState D α)} {E : UnitState D α → Act (UnitState D α)}

/-- R68: what an op does to a unit does not depend on the beats still pending. -/
theorem accept_prepend (hS : ∀ a, Blind (S a)) (hT : ∀ p, Blind (T p)) (hE : Blind E) (op : Op A P) :
    accept S T E op (u.prepend q) = (accept S T E op u).prepend q := by
  rcases hm : u.mode with _ | _ | _ <;> cases op <;>
    simp [accept, hm, prepend_openFrame, prepend_openRejected, prepend_endWithoutFrame, prepend_raise,
      prepend_closeFrame, hS _ _ _, hT _ _ _, hE _ _]

theorem Blind.andThen {f g : UnitState D α → Act (UnitState D α)} (hf : Blind f) (hg : Blind g) :
    Blind fun u => (f u).andThen g := fun q u => by
  simp only [hf q u]
  exact Act.map_andThen (hg q) _

theorem Blind.ite {p : UnitState D α → Prop} [DecidablePred p] {f g : UnitState D α → Act (UnitState D α)}
    (hp : ∀ q u, p (UnitState.prepend q u) ↔ p u) (hf : Blind f) (hg : Blind g) :
    Blind fun u => if p u then f u else g u := fun q u => by
  by_cases h : p u
  · simp only [if_pos h, if_pos ((hp q u).mpr h)]; exact hf q u
  · simp only [if_neg h, if_neg (mt (hp q u).mp h)]; exact hg q u

theorem Blind.ok {f : UnitState D α → UnitState D α} (h : ∀ q u, f (UnitState.prepend q u) = (f u).prepend q) :
    Blind fun u => .ok (f u) := fun q u => congrArg Act.ok (h q u)

theorem Blind.fail (e : ErrCode) : Blind (UnitState.fail (D := D) (α := α) e) := fun q u => prepend_fail q u e

theorem Blind.forEach {body : Nat → UnitState D α → Act (UnitState D α)} (h : ∀ k, Blind (body k)) (ks : List Nat) :
    Blind (Act.forEach body ks) := by
  induction ks with
  | nil => intro q u; rfl
  | cons k ks ih => exact (h k).andThen ih

end

theorem shape_ne_zero {rows cols : Dim} (h1 : 1 ≤ rows.toNat) (h2 : 1 ≤ cols.toNat) : ¬(rows = 0 ∨ cols = 0) := by
  rintro (rfl | rfl)
  · simp at h1
  · simp at h2

/-- The tests on a shape, by outcome (R130). -/
theorem checkShape_zero {D α : Type} {c : Config} {rows cols : Dim} {u : UnitState D α} (h : rows.toNat = 0 ∨ cols.toNat = 0) :
    checkShape c rows cols u = u.fail .protocolViolation := by
  have : rows = 0 ∨ cols = 0 := by
    rcases h with h | h
    · exact .inl (BitVec.eq_of_toNat_eq (by simpa using h))
    · exact .inr (BitVec.eq_of_toNat_eq (by simpa using h))
  rw [checkShape, if_pos this]

theorem checkShape_big {D α : Type} {c : Config} {rows cols : Dim} {u : UnitState D α} (h1 : 1 ≤ rows.toNat)
    (h2 : 1 ≤ cols.toNat) (h : c.cap < rows.toNat * cols.toNat) : checkShape c rows cols u = u.fail .capacityExceeded := by
  rw [checkShape, if_neg (shape_ne_zero h1 h2), if_pos h]

theorem checkShape_ok {D α : Type} {c : Config} {rows cols : Dim} {u : UnitState D α} (h1 : 1 ≤ rows.toNat)
    (h2 : 1 ≤ cols.toNat) (h : rows.toNat * cols.toNat ≤ c.cap) : checkShape c rows cols u = .ok u := by
  rw [checkShape, if_neg (shape_ne_zero h1 h2), if_neg (by omega)]

theorem checkShape_blind {D α : Type} (c : Config) (rows cols : Dim) : Blind (checkShape (D := D) (α := α) c rows cols) := by
  intro q u
  unfold checkShape
  split
  · exact prepend_fail q u _
  · split
    · exact prepend_fail q u _
    · rfl

/-- R203: the product of two 16-bit naturals is exact in 32 bits. -/
theorem shape_total_exact (r c : Dim) : (BitVec.ofNat 32 (r.toNat * c.toNat)).toNat = r.toNat * c.toNat := by
  have : r.toNat * c.toNat < 2 ^ 16 * 2 ^ 16 := Nat.mul_lt_mul'' r.isLt c.isLt
  simp only [BitVec.toNat_ofNat]
  exact Nat.mod_eq_of_lt (by omega)

end Sys2Proof.Machine
end

