-- ==== Sys2Proof/Laws/Flags.lean ====
section
/-! SUPPORT. The column counter and the end-of-row flag (42_bit_unpacker.md R134). -/

namespace Sys2Proof.Machine

open Sys2Proof

/-- The shape registers `n` bits later, the counter having been inside the row. -/
def ShapeRegs.after (r : ShapeRegs) (n : Nat) : ShapeRegs :=
  { r with col := BitVec.ofNat 16 ((r.col.toNat + n) % r.cols.toNat) }

@[simp] theorem ShapeRegs.after_rows (r : ShapeRegs) (n : Nat) : (r.after n).rows = r.rows := rfl
@[simp] theorem ShapeRegs.after_cols (r : ShapeRegs) (n : Nat) : (r.after n).cols = r.cols := rfl
@[simp] theorem ShapeRegs.after_total (r : ShapeRegs) (n : Nat) : (r.after n).total = r.total := rfl

theorem ShapeRegs.after_col {r : ShapeRegs} (h : r.col.toNat < r.cols.toNat) (n : Nat) :
    (r.after n).col.toNat = (r.col.toNat + n) % r.cols.toNat := by
  have h1 : (r.col.toNat + n) % r.cols.toNat < r.cols.toNat := Nat.mod_lt _ (by omega)
  have h2 := r.cols.isLt
  simp only [ShapeRegs.after, BitVec.toNat_ofNat]
  exact Nat.mod_eq_of_lt (by omega)

theorem ShapeRegs.after_lt {r : ShapeRegs} (h : r.col.toNat < r.cols.toNat) (n : Nat) :
    (r.after n).col.toNat < (r.after n).cols.toNat := by
  rw [ShapeRegs.after_col h]
  exact Nat.mod_lt _ (by omega)

theorem ShapeRegs.after_zero {r : ShapeRegs} (h : r.col.toNat < r.cols.toNat) : r.after 0 = r := by
  unfold ShapeRegs.after
  rw [Nat.add_zero, Nat.mod_eq_of_lt h]
  simp

/-- R134: the flag of the bit `n` places on. -/
theorem ShapeRegs.eol_after {r : ShapeRegs} (h : r.col.toNat < r.cols.toNat) (n : Nat) :
    (r.after n).eol = decide ((r.col.toNat + n) % r.cols.toNat = r.cols.toNat - 1) := by
  unfold ShapeRegs.eol
  rw [ShapeRegs.after_col h, ShapeRegs.after_cols]
  have : ((r.col.toNat + n) % r.cols.toNat + 1 = r.cols.toNat) ↔ ((r.col.toNat + n) % r.cols.toNat = r.cols.toNat - 1) := by
    omega
  exact decide_eq_decide.mpr this

/-- R134: the counter moves on by one, back to 0 after a row's last bit. -/
theorem ShapeRegs.advance_after {r : ShapeRegs} (h : r.col.toNat < r.cols.toNat) (n : Nat) :
    (r.after n).advance = r.after (n + 1) := by
  have hlt := ShapeRegs.after_lt h n
  have hcol := ShapeRegs.after_col h n
  have hr := r.cols.isLt
  have hsucc : (r.col.toNat + (n + 1)) % r.cols.toNat =
      if (r.col.toNat + n) % r.cols.toNat + 1 = r.cols.toNat then 0 else (r.col.toNat + n) % r.cols.toNat + 1 := by
    rw [← Nat.add_assoc, Nat.add_mod_eq_ite]
    have hm := Nat.mod_lt (r.col.toNat + n) (show 0 < r.cols.toNat by omega)
    by_cases h1 : r.cols.toNat = 1
    · simp [h1, Nat.mod_one]
    · rw [Nat.mod_eq_of_lt (show 1 < r.cols.toNat by omega)]
      split <;> split <;> omega
  unfold ShapeRegs.advance
  have hcond : (r.after n).eol = true ↔ (r.col.toNat + n) % r.cols.toNat + 1 = r.cols.toNat := by
    simp only [ShapeRegs.eol, decide_eq_true_eq, hcol, ShapeRegs.after_cols]
  by_cases he : (r.col.toNat + n) % r.cols.toNat + 1 = r.cols.toNat
  · rw [if_pos (hcond.mpr he)]
    simp only [ShapeRegs.after, hsucc, if_pos he]
    rfl
  · rw [if_neg (mt hcond.mp he)]
    simp only [ShapeRegs.after, hsucc, if_neg he, BitVec.ofNat_add]
    rfl

/-- The beats of bits emitted from a column on, each with its flag. -/
def bitBeats (cols col : Nat) (bits : List Bit) : List (Beat BitOut) :=
  bits.mapIdx fun i b => .data ⟨b, decide ((col + i) % cols = cols - 1)⟩

theorem bitBeats_snoc (cols col : Nat) (bits : List Bit) (b : Bit) :
    bitBeats cols col (bits ++ [b]) = bitBeats cols col bits ++ [.data ⟨b, decide ((col + bits.length) % cols = cols - 1)⟩] := by
  simp [bitBeats, List.mapIdx_append]

/-- R134: bits that follow `n` others of a frame. -/
theorem bitBeats_append (cols : Nat) (A B : List Bit) :
    bitBeats cols 0 (A ++ B) = bitBeats cols 0 A ++ bitBeats cols (A.length % cols) B := by
  have : ∀ i, (i + A.length) % cols = (A.length % cols + i) % cols := fun i => by
    rw [Nat.add_comm, Nat.mod_add_mod]
  simp [bitBeats, List.mapIdx_append, this]

theorem withEol_beats (cols : Nat) (B : List Bit) : (withEol cols B).map .data = bitBeats cols 0 B := by
  apply List.ext_getElem <;> simp [withEol, bitBeats]

end Sys2Proof.Machine
end

