-- ==== Sys2Proof/Laws/Decoder.lean ====
section
/-! SUPPORT. `rle_decoder` (44_rle_decoder.md): its repeat in closed form, and whole frames. -/

namespace Sys2Proof.Machine

open Sys2Proof

/-- The unit after emitting `n` bits of its current value. -/
def deAfter (n : Nat) (u : DeUnit) : DeUnit :=
  { u with
    nOut := u.nOut + BitVec.ofNat 16 n
    dp := ⟨u.dp.shape.after n, u.dp.curVal⟩
    outq := u.outq ++ bitBeats u.dp.shape.cols.toNat u.dp.shape.col.toNat (List.replicate n u.dp.curVal) }

/-- R171: the repeat in closed form. -/
theorem deRepeat {u : DeUnit} (h : u.dp.shape.col.toNat < u.dp.shape.cols.toNat) (n : Nat) :
    Nat.iterate deEmitBit n u = deAfter n u := by
  induction n with
  | zero => simp [deAfter, ShapeRegs.after_zero h, bitBeats]
  | succ n ih =>
    rw [Function.iterate_succ_apply', ih]
    simp only [deEmitBit, deAfter, UnitState.emitData, UnitState.emit, ShapeRegs.eol_after h, ShapeRegs.advance_after h,
      List.replicate_succ', bitBeats_snoc, List.length_replicate, BitVec.ofNat_add, List.append_assoc, BitVec.add_assoc]
    rfl

/-- R171, by outcome. -/
theorem deDataAct_full {c : Config} {u : DeUnit} (h : u.nIn.toNat = c.cap) (e : Byte) :
    deDataAct c e u = u.fail .capacityExceeded := by simp [deDataAct, h]
theorem deDataAct_zero {c : Config} {u : DeUnit} (h : u.nIn.toNat ≠ c.cap) :
    deDataAct c 0 u = .ok { deFlip u with nIn := u.nIn + 1 } := by rw [deDataAct, if_neg h, if_pos rfl]
theorem deDataAct_overrun {c : Config} {u : DeUnit} (h : u.nIn.toNat ≠ c.cap) {e : Byte} (he : e ≠ 0)
    (hT : u.dp.shape.total.toNat < u.nOut.toNat + e.toNat) : deDataAct c e u = u.fail .protocolViolation := by
  rw [deDataAct, if_neg h, if_neg he, if_pos hT]
theorem deDataAct_emits {c : Config} {u : DeUnit} (h : u.nIn.toNat ≠ c.cap) {e : Byte} (he : e ≠ 0)
    (hT : u.nOut.toNat + e.toNat ≤ u.dp.shape.total.toNat) (hc : u.dp.shape.col.toNat < u.dp.shape.cols.toNat) :
    deDataAct c e u = .ok { deFlip (deAfter e.toNat u) with nIn := u.nIn + 1 } := by
  rw [deDataAct, if_neg h, if_neg he, if_neg (by omega), deRepeat hc]

theorem deIterate_prepend (n : Nat) (q : List (Beat BitOut)) (u : DeUnit) :
    Nat.iterate deEmitBit n (u.prepend q) = (Nat.iterate deEmitBit n u).prepend q := by
  induction n generalizing u with
  | zero => rfl
  | succ n ih =>
    have : deEmitBit (u.prepend q) = (deEmitBit u).prepend q := by
      simp [deEmitBit, UnitState.prepend, UnitState.emitData, UnitState.emit]
    rw [Function.iterate_succ_apply, Function.iterate_succ_apply, this, ih]

theorem deStartAct_blind (c : Config) (a : Dim × Dim) : Blind (deStartAct c a) := fun q u =>
  checkShape_blind c a.1 a.2 q (⟨u.mode, u.err, u.nIn, u.nOut, ⟨ShapeRegs.ofShape a.1 a.2, initVal⟩, u.outq⟩ : DeUnit)

theorem deDataAct_blind (c : Config) (e : Byte) : Blind (deDataAct c e) := by
  refine .ite (p := fun u : DeUnit => u.nIn.toNat = c.cap) (fun _ _ => Iff.rfl) (.fail _) ?_
  intro q u
  by_cases he : e = 0
  · simp only [if_pos he]; rfl
  · simp only [if_neg he]
    by_cases hT : u.dp.shape.total.toNat < u.nOut.toNat + e.toNat
    · rw [if_pos hT, if_pos (by exact hT)]
      exact prepend_fail q u _
    · rw [if_neg hT, if_neg (by exact hT)]
      simp only [deIterate_prepend]
      rfl

theorem deEndAct_blind : Blind deEndAct :=
  .ite (p := fun u : DeUnit => u.nOut.toNat < u.dp.shape.total.toNat) (fun _ _ => Iff.rfl) (.fail _) (fun _ _ => rfl)

/-- R68 for the decoder. -/
theorem deAccept_prepend (c : Config) (op : DeOp) (q : List (Beat BitOut)) (u : DeUnit) :
    deAccept c op (u.prepend q) = (deAccept c op u).prepend q :=
  accept_prepend q u (deStartAct_blind c) (deDataAct_blind c) deEndAct_blind op

/-- R174: the implied value after `n` entries. -/
def impliedVal (n : Nat) : Bit := xor initVal (decide (n % 2 = 1))

theorem impliedVal_succ (n : Nat) : impliedVal (n + 1) = !impliedVal n := by
  unfold impliedVal
  rcases Nat.mod_two_eq_zero_or_one n with h | h
  · have : (n + 1) % 2 = 1 := by omega
    simp [h, this]
  · have : (n + 1) % 2 = 0 := by omega
    simp [h, this]

theorem decFrom_snoc (v : Bit) (E : List Byte) (e : Byte) :
    decFrom v (E ++ [e]) = decFrom v E ++ List.replicate e.toNat (xor v (decide (E.length % 2 = 1))) := by
  induction E generalizing v with
  | nil => simp [decFrom]
  | cons d E ih =>
    simp only [List.cons_append, decFrom, ih, List.append_assoc, List.length_cons]
    congr 3
    rcases Nat.mod_two_eq_zero_or_one E.length with h | h
    · have : (E.length + 1) % 2 = 1 := by omega
      simp [h, this]
    · have : (E.length + 1) % 2 = 0 := by omega
      simp [h, this]

/-- R174, R193: one entry more. -/
theorem decodeRuns_snoc (E : List Byte) (e : Byte) :
    decodeRuns (E ++ [e]) = decodeRuns E ++ List.replicate e.toNat (impliedVal E.length) := decFrom_snoc _ _ _

theorem entrySum_append (E F : List Byte) : entrySum (E ++ F) = entrySum E + entrySum F := by simp [entrySum]

theorem decFrom_length (v : Bit) (E : List Byte) : (decFrom v E).length = entrySum E := by
  induction E generalizing v with
  | nil => rfl
  | cons e E ih => simp only [decFrom, List.length_append, List.length_replicate, ih]; simp [entrySum]

theorem decodeRuns_length (E : List Byte) : (decodeRuns E).length = entrySum E := decFrom_length _ _

/-- The decoder in the middle of a legal frame, after entries that fit (R31). -/
def deMid (q : List (Beat BitOut)) (rows cols : Dim) (E : List Byte) : DeUnit :=
  ⟨.run, .noError, BitVec.ofNat 16 E.length, BitVec.ofNat 16 (entrySum E),
    ⟨⟨rows, cols, BitVec.ofNat 32 (rows.toNat * cols.toNat), BitVec.ofNat 16 (entrySum E % cols.toNat)⟩, impliedVal E.length⟩,
    q ++ bitBeats cols.toNat 0 (decodeRuns E)⟩

section
variable {c : Config} {rows cols : Dim} (q : List (Beat BitOut)) (E : List Byte)

theorem deMid_total : (deMid q rows cols E).dp.shape.total.toNat = rows.toNat * cols.toNat := shape_total_exact rows cols

theorem deMid_nIn (h : E.length ≤ c.cap) : (deMid q rows cols E).nIn.toNat = E.length := by
  have := c.cap_le
  simp only [deMid, BitVec.toNat_ofNat]; omega

theorem deMid_nOut (h : entrySum E ≤ c.cap) : (deMid q rows cols E).nOut.toNat = entrySum E := by
  have := c.cap_le
  simp only [deMid, BitVec.toNat_ofNat]; omega

theorem deMid_col (h2 : 1 ≤ cols.toNat) : (deMid q rows cols E).dp.shape.col.toNat = entrySum E % cols.toNat := by
  have h := Nat.mod_lt (entrySum E) (show 0 < cols.toNat by omega)
  have := cols.isLt
  simp only [deMid, BitVec.toNat_ofNat]
  exact Nat.mod_eq_of_lt (by omega)

/-- R171: an entry that fits. -/
theorem deAccept_mid (h2 : 1 ≤ cols.toNat) (h : rows.toNat * cols.toNat ≤ c.cap) (hE : E.length < c.cap) (e : Byte)
    (hT : entrySum E + e.toNat ≤ rows.toNat * cols.toNat) :
    deAccept c (.data e) (deMid q rows cols E) = deMid q rows cols (E ++ [e]) := by
  have hrun : (deMid q rows cols E).mode = .run := rfl
  have hin : (deMid q rows cols E).nIn.toNat ≠ c.cap := by rw [deMid_nIn (c := c) q E (by omega)]; omega
  have hsum : entrySum (E ++ [e]) = entrySum E + e.toNat := by simp [entrySum]
  rw [deAccept, accept_run_data hrun]
  by_cases he : e = 0
  · subst he
    rw [deDataAct_zero hin]
    simp [deMid, deFlip, decodeRuns_snoc, entrySum, impliedVal_succ, BitVec.ofNat_add]
  · have hc : (deMid q rows cols E).dp.shape.col.toNat < (deMid q rows cols E).dp.shape.cols.toNat := by
      rw [deMid_col q E h2]; exact Nat.mod_lt _ (by omega)
    rw [deDataAct_emits hin he (by rw [deMid_nOut (c := c) q E (by omega), deMid_total]; exact hT) hc]
    have hd : (deMid q rows cols E).dp.shape.after e.toNat =
        ⟨rows, cols, BitVec.ofNat 32 (rows.toNat * cols.toNat), BitVec.ofNat 16 ((entrySum E + e.toNat) % cols.toNat)⟩ := by
      unfold ShapeRegs.after
      rw [deMid_col q E h2]
      show (⟨rows, cols, _, _⟩ : ShapeRegs) = _
      rw [show (deMid q rows cols E).dp.shape.cols = cols from rfl, Nat.mod_add_mod]
      rfl
    have hb := bitBeats_append cols.toNat (decodeRuns E) (List.replicate e.toNat (impliedVal E.length))
    rw [decodeRuns_length] at hb
    simp only [Act.state_ok, deFlip, deAfter, hd, deMid_col q E h2]
    simp [deMid, decodeRuns_snoc, hb, hsum, impliedVal_succ, BitVec.ofNat_add]

theorem deRun_append (c : Config) (a b : List DeOp) (u : DeUnit) : deRun c (a ++ b) u = deRun c b (deRun c a u) :=
  List.foldl_append ..

/-- R170: START of a legal shape. -/
theorem deAccept_start (u : DeUnit) (hu : u.mode = .idle) (h1 : 1 ≤ rows.toNat) (h2 : 1 ≤ cols.toNat)
    (h : rows.toNat * cols.toNat ≤ c.cap) : deAccept c (.start (rows, cols)) u = deMid u.outq rows cols [] := by
  rw [deAccept, accept_idle_start hu, deStartAct, checkShape_ok h1 h2 h]
  simp [deMid, UnitState.openFrame, ShapeRegs.ofShape, entrySum, decodeRuns, decFrom, bitBeats, impliedVal]

/-- R171: the entries of a frame, all of them fitting. -/
theorem deRun_entries (h2 : 1 ≤ cols.toNat) (h : rows.toNat * cols.toNat ≤ c.cap) (hE : E.length ≤ c.cap)
    (hT : entrySum E ≤ rows.toNat * cols.toNat) :
    deRun c (E.map .data) (deMid q rows cols []) = deMid q rows cols E := by
  induction E using List.reverseRecOn with
  | nil => rfl
  | append_singleton E e ih =>
    have hsum : entrySum (E ++ [e]) = entrySum E + e.toNat := by simp [entrySum]
    have hl : E.length < c.cap := by simp at hE; omega
    rw [List.map_append, deRun_append, ih (by omega) (by omega)]
    exact deAccept_mid q E h2 h hl e (by omega)

/-- R218: in mode ERR data changes nothing. -/
theorem deRun_err_data {u : DeUnit} (hu : u.mode = .err) : deRun c (E.map .data) u = u := by
  induction E with
  | nil => rfl
  | cons e E ih =>
    show deRun c (E.map .data) (deAccept c (.data e) u) = u
    rw [deAccept, accept_err_of_ne_close hu (by simp), ih]

/-- R175: a frame whose entries fit. -/
theorem deRun_frame (u : DeUnit) (hu : u.mode = .idle) (h1 : 1 ≤ rows.toNat) (h2 : 1 ≤ cols.toNat)
    (h : rows.toNat * cols.toNat ≤ c.cap) (hE : E.length ≤ c.cap) (hT : entrySum E ≤ rows.toNat * cols.toNat) :
    deRun c (deFrame rows cols E) u =
      let e : ErrCode := if entrySum E = rows.toNat * cols.toNat then .noError else .protocolViolation
      { deMid u.outq rows cols E with
        mode := .idle, err := e
        outq := (deMid u.outq rows cols E).outq ++ [.done e (BitVec.ofNat 16 (entrySum E))] } := by
  have hfr : deFrame rows cols E = [.start (rows, cols)] ++ (E.map .data ++ [.close]) := by simp [deFrame]
  have hs : deRun c [.start (rows, cols)] u = deMid u.outq rows cols [] := deAccept_start u hu h1 h2 h
  have hrun : (deMid u.outq rows cols E).mode = .run := rfl
  rw [hfr, deRun_append, hs, deRun_append, deRun_entries u.outq E h2 h hE hT]
  show deAccept c .close (deMid u.outq rows cols E) = _
  rw [deAccept, accept_run_close hrun, deEndAct, deMid_total, deMid_nOut (c := c) u.outq E (by omega)]
  by_cases hlt : entrySum E < rows.toNat * cols.toNat
  · rw [if_pos hlt]
    simp only [if_neg (Nat.ne_of_lt hlt)]
    rfl
  · rw [if_neg hlt]
    simp only [if_pos (show entrySum E = rows.toNat * cols.toNat by omega)]
    rfl

/-- R175, R214: a frame whose next entry raises. -/
theorem deRun_frame_raises (u : DeUnit) (hu : u.mode = .idle) (h1 : 1 ≤ rows.toNat) (h2 : 1 ≤ cols.toNat)
    (h : rows.toNat * cols.toNat ≤ c.cap) (hE : E.length ≤ c.cap) (hT : entrySum E ≤ rows.toNat * cols.toNat)
    (bad : Byte) (rest : List Byte) (e : ErrCode)
    (hbad : deDataAct c bad (deMid u.outq rows cols E) = (deMid u.outq rows cols E).fail e) :
    deRun c (deFrame rows cols (E ++ bad :: rest)) u =
      { deMid u.outq rows cols E with
        mode := .idle, err := e
        outq := (deMid u.outq rows cols E).outq ++ [.done e (BitVec.ofNat 16 (entrySum E))] } := by
  have hfr : deFrame rows cols (E ++ bad :: rest) =
      [.start (rows, cols)] ++ (E.map .data ++ ([.data bad] ++ (rest.map .data ++ [.close]))) := by simp [deFrame]
  have hs : deRun c [.start (rows, cols)] u = deMid u.outq rows cols [] := deAccept_start u hu h1 h2 h
  have hrun : (deMid u.outq rows cols E).mode = .run := rfl
  have hx : deRun c [.data bad] (deMid u.outq rows cols E) = (deMid u.outq rows cols E).raise e := by
    show deAccept c (.data bad) (deMid u.outq rows cols E) = _
    rw [deAccept, accept_run_data hrun, hbad]; rfl
  rw [hfr, deRun_append, hs, deRun_append, deRun_entries u.outq E h2 h hE hT, deRun_append, hx, deRun_append,
    deRun_err_data _ (by simp)]
  show deAccept c .close ((deMid u.outq rows cols E).raise e) = _
  rw [deAccept, accept_err_close (by simp), UnitState.raise_of_ne (by simp [hrun])]
  rfl

end

end Sys2Proof.Machine
end

