-- ==== Sys2Proof/Laws/Encoder.lean ====
section
/-! SUPPORT. `rle_encoder` (43_rle_encoder.md): its registers and entries as a fold over the bits, and whole frames. -/

namespace Sys2Proof.Machine

open Sys2Proof

/-- R151 without the capacities: the run's registers and the entries so far, one bit later. -/
def encNext (r : EnRegs × List Byte) (b : Bit) : EnRegs × List Byte :=
  if b = r.1.curVal then
    if r.1.curCnt = runMax then (⟨r.1.curVal, 1⟩, r.2 ++ [runMax, 0]) else (⟨r.1.curVal, r.1.curCnt + 1⟩, r.2)
  else (⟨b, 1⟩, r.2 ++ [r.1.curCnt])

/-- R150, R151: the registers and the entries after the bits `B`. -/
def encTrack (B : List Bit) : EnRegs × List Byte := B.foldl encNext (⟨initVal, 0⟩, [])

/-- R152: the final flush. -/
def flushed (r : EnRegs × List Byte) : List Byte := r.2 ++ if r.1.curCnt ≠ 0 then [r.1.curCnt] else []

theorem encTrack_snoc (B : List Bit) (b : Bit) : encTrack (B ++ [b]) = encNext (encTrack B) b := List.foldl_append ..

/-- R192 against R150 to R152. -/
theorem foldl_encNext (B : List Bit) (r : EnRegs × List Byte) :
    flushed (B.foldl encNext r) = r.2 ++ encFrom r.1.curVal r.1.curCnt B := by
  induction B generalizing r with
  | nil => rfl
  | cons b B ih =>
    rw [List.foldl_cons, ih, encFrom]
    unfold encNext
    split
    · split <;> simp
    · simp

theorem encodeRuns_eq_flushed (B : List Bit) : encodeRuns B = flushed (encTrack B) := by
  rw [encTrack, foldl_encNext]; rfl

theorem byte_add_one {c : Byte} (h : c ≠ runMax) : (c + 1).toNat = c.toNat + 1 := by
  have : c.toNat ≠ 255 := fun hc => h (BitVec.eq_of_toNat_eq hc)
  have := c.isLt
  rw [BitVec.toNat_add]
  exact Nat.mod_eq_of_lt (by have : (1 : Byte).toNat = 1 := rfl; omega)

theorem byte_eq_zero_iff {c : Byte} : c = 0 ↔ c.toNat = 0 :=
  ⟨fun h => by rw [h]; rfl, fun h => BitVec.eq_of_toNat_eq h⟩

/-- R31, R158: entries and unflushed count never pass the bits by more than one. -/
theorem encTrack_bound (B : List Bit) :
    (encTrack B).2.length + (encTrack B).1.curCnt.toNat ≤ B.length + 1 ∧ ((encTrack B).1.curCnt = 0 ↔ B = []) := by
  induction B using List.reverseRecOn with
  | nil => decide
  | append_singleton B b ih =>
    rw [encTrack_snoc]
    obtain ⟨h1, h2⟩ := ih
    unfold encNext
    split
    · split
      · rename_i hmax
        have : (encTrack B).1.curCnt.toNat = 255 := by rw [hmax]; rfl
        simp; omega
      · rename_i hmax
        have := byte_add_one hmax
        refine ⟨by simp only [List.length_append, List.length_singleton]; omega, ?_⟩
        rw [byte_eq_zero_iff]; simp only [this]; simp
    · refine ⟨?_, by simp⟩
      rw [byte_eq_zero_iff] at h2
      by_cases hB : B = []
      · subst hB
        simp only [encTrack, List.foldl_nil, List.nil_append, List.length_singleton]
        decide
      · have := mt h2.mp hB
        simp; omega

/-- The encoder in the middle of a frame whose entries fit. -/
def enMid (q : List (Beat Byte)) (B : List Bit) : EnUnit :=
  ⟨.run, .noError, BitVec.ofNat 16 B.length, BitVec.ofNat 16 (encTrack B).2.length, (encTrack B).1,
    q ++ (encTrack B).2.map .data⟩

theorem emitEntry_full {c : Config} {u : EnUnit} (h : u.nOut.toNat = c.cap) (v : Byte) :
    emitEntry c v u = u.fail .capacityExceeded := by simp [emitEntry, h]
theorem emitEntry_ok {c : Config} {u : EnUnit} (h : u.nOut.toNat ≠ c.cap) (v : Byte) :
    emitEntry c v u = .ok (u.emitData v) := by simp [emitEntry, h]

section
variable {c : Config} (q : List (Beat Byte)) {B : List Bit}

theorem enMid_nIn (h : B.length ≤ c.cap) : (enMid q B).nIn.toNat = B.length := by
  have := c.cap_le
  simp [enMid]; omega

theorem enMid_nOut (h : (encTrack B).2.length ≤ c.cap) : (enMid q B).nOut.toNat = (encTrack B).2.length := by
  have := c.cap_le
  simp [enMid]; omega

/-- R151: one bit more. Within `CAP` bits no emission finds the output full. -/
theorem enAccept_mid (b : Bit) (h : B.length < c.cap) : enAccept c (.data b) (enMid q B) = enMid q (B ++ [b]) := by
  have hcap := c.cap_le
  obtain ⟨h1, h2⟩ := encTrack_bound B
  rw [byte_eq_zero_iff] at h2
  have hE : (encTrack B).2.length ≤ B.length := by
    by_cases hB : B = []
    · subst hB; decide
    · have := mt h2.mp hB
      omega
  have hrun : (enMid q B).mode = .run := rfl
  have hin : (enMid q B).nIn.toNat ≠ c.cap := by rw [enMid_nIn (c := c) q (by omega)]; omega
  have hout := enMid_nOut (c := c) q (B := B) (by omega)
  have hne : (enMid q B).nOut.toNat ≠ c.cap := by omega
  rw [enAccept, accept_run_data hrun, enDataAct, if_neg hin, enCountBit]
  have hdp : (enMid q B).dp = (encTrack B).1 := rfl
  rw [hdp]
  have hnext := encTrack_snoc B b
  unfold encNext at hnext
  by_cases hv : b = (encTrack B).1.curVal
  · rw [if_pos hv] at hnext ⊢
    by_cases hc : (encTrack B).1.curCnt = runMax
    · have : (encTrack B).1.curCnt.toNat = 255 := by rw [hc]; rfl
      have hne2 : ((enMid q B).emitData runMax).nOut.toNat ≠ c.cap := by
        rw [UnitState.emitData_nOut, BitVec.toNat_add, hout]; simp; omega
      rw [if_pos hc] at hnext ⊢
      rw [emitEntry_ok hne, Act.ok_andThen, emitEntry_ok hne2]
      simp [enMid, hnext, UnitState.emitData, UnitState.emit, BitVec.ofNat_add, BitVec.add_assoc]
    · rw [if_neg hc] at hnext ⊢
      simp [enMid, hnext, BitVec.ofNat_add]
  · rw [if_neg hv] at hnext ⊢
    rw [emitEntry_ok hne]
    simp [enMid, hnext, UnitState.emitData, UnitState.emit, BitVec.ofNat_add]

theorem enRun_append (c : Config) (a b : List EnOp) (u : EnUnit) : enRun c (a ++ b) u = enRun c b (enRun c a u) :=
  List.foldl_append ..

/-- R150, R151: a frame's START and its bits. -/
theorem enRun_bits (u : EnUnit) (hu : u.mode = .idle) (h : B.length ≤ c.cap) :
    enRun c (.start () :: B.map .data) u = enMid u.outq B := by
  induction B using List.reverseRecOn with
  | nil =>
    show enAccept c (.start ()) u = _
    rw [enAccept, accept_idle_start hu]
    simp [enStartAct, enMid, encTrack, UnitState.openFrame]
  | append_singleton B b ih =>
    have hlt : B.length < c.cap := by simpa using h
    have := ih (Nat.le_of_lt hlt)
    simp only [enRun, List.map_append, List.foldl_cons, List.foldl_append, List.map_cons, List.map_nil, List.foldl_nil] at this ⊢
    rw [this]
    exact enAccept_mid u.outq b hlt

/-- R152: END of a frame whose entries fit. -/
theorem enAccept_mid_close (h : (encodeRuns B).length ≤ c.cap) :
    enAccept c .close (enMid q B) = ⟨.idle, .noError, BitVec.ofNat 16 B.length, BitVec.ofNat 16 (encodeRuns B).length,
      ⟨(encTrack B).1.curVal, 0⟩,
      q ++ (encodeRuns B).map .data ++ [.done .noError (BitVec.ofNat 16 (encodeRuns B).length)]⟩ := by
  have hrun : (enMid q B).mode = .run := rfl
  rw [encodeRuns_eq_flushed] at h ⊢
  have hdp : (enMid q B).dp = (encTrack B).1 := rfl
  rw [enAccept, accept_run_close hrun, enEndAct, hdp]
  by_cases h0 : (encTrack B).1.curCnt = 0
  · rw [if_neg (by simpa using h0)]
    have hfl : flushed (encTrack B) = (encTrack B).2 := by simp only [flushed, if_neg (not_not.mpr h0), List.append_nil]
    have hr : (encTrack B).1 = ⟨(encTrack B).1.curVal, 0⟩ := by rw [← h0]
    rw [hfl]
    simp only [Act.state_ok, UnitState.closeFrame, UnitState.emit, enMid, ← hr]
  · rw [if_pos h0]
    have hfl : flushed (encTrack B) = (encTrack B).2 ++ [(encTrack B).1.curCnt] := by simp only [flushed, if_pos h0]
    rw [hfl] at h ⊢
    have hl : (encTrack B).2.length + 1 ≤ c.cap := by simpa using h
    have hne : (enMid q B).nOut.toNat ≠ c.cap := by rw [enMid_nOut (c := c) q (by omega)]; omega
    rw [emitEntry_ok hne]
    simp [UnitState.closeFrame, UnitState.emitData, UnitState.emit, enMid, BitVec.ofNat_add]

/-- R158: END of a frame with one entry too many. -/
theorem enAccept_mid_close_full (hB : B.length ≤ c.cap) (h : c.cap < (encodeRuns B).length) :
    enAccept c .close (enMid q B) = { enMid q B with
      mode := .idle, err := .capacityExceeded
      outq := q ++ ((encodeRuns B).take c.cap).map .data ++ [.done .capacityExceeded (BitVec.ofNat 16 c.cap)] } := by
  have hrun : (enMid q B).mode = .run := rfl
  obtain ⟨h1, h2⟩ := encTrack_bound B
  rw [byte_eq_zero_iff] at h2
  rw [encodeRuns_eq_flushed] at h ⊢
  have h0 : (encTrack B).1.curCnt ≠ 0 := by
    intro h0
    have hB0 := h2.mp (byte_eq_zero_iff.mp h0)
    subst hB0
    simp [flushed, encTrack] at h
  have hc1 : (encTrack B).1.curCnt.toNat ≠ 0 := mt byte_eq_zero_iff.mpr h0
  have hfl : flushed (encTrack B) = (encTrack B).2 ++ [(encTrack B).1.curCnt] := by simp only [flushed, if_pos h0]
  rw [hfl] at h ⊢
  have hl : (encTrack B).2.length = c.cap := by
    have : c.cap < (encTrack B).2.length + 1 := by simpa using h
    omega
  have hdp : (enMid q B).dp = (encTrack B).1 := rfl
  have hout : (enMid q B).nOut.toNat = c.cap := by rw [enMid_nOut (c := c) q (by omega)]; omega
  rw [enAccept, accept_run_close hrun, enEndAct, hdp, if_pos h0, emitEntry_full hout]
  have ht : ((encTrack B).2 ++ [(encTrack B).1.curCnt]).take c.cap = (encTrack B).2 := by rw [← hl]; simp
  rw [ht]
  simp [UnitState.fail, UnitState.raise, UnitState.closeFrame, UnitState.emit, enMid, hl]

/-- R218: in mode ERR data changes nothing. -/
theorem enRun_err_data {u : EnUnit} (hu : u.mode = .err) (B : List Bit) : enRun c (B.map .data) u = u := by
  induction B with
  | nil => rfl
  | cons b B ih =>
    show enRun c (B.map .data) (enAccept c (.data b) u) = u
    rw [enAccept, accept_err_of_ne_close hu (by simp), ih]

/-- R157: a whole frame whose entries fit. -/
theorem enRun_frame (u : EnUnit) (hu : u.mode = .idle) (hB : B.length ≤ c.cap) (h : (encodeRuns B).length ≤ c.cap) :
    enRun c (enFrame B) u = ⟨.idle, .noError, BitVec.ofNat 16 B.length, BitVec.ofNat 16 (encodeRuns B).length,
      ⟨(encTrack B).1.curVal, 0⟩,
      u.outq ++ (encodeRuns B).map .data ++ [.done .noError (BitVec.ofNat 16 (encodeRuns B).length)]⟩ := by
  have : enFrame B = (.start () :: B.map .data) ++ [.close] := by simp [enFrame]
  rw [this, enRun_append, enRun_bits u hu hB]
  exact enAccept_mid_close u.outq h

/-- R158: a whole frame with one entry too many. -/
theorem enRun_frame_full (u : EnUnit) (hu : u.mode = .idle) (hB : B.length ≤ c.cap) (h : c.cap < (encodeRuns B).length) :
    enRun c (enFrame B) u = { enMid u.outq B with
      mode := .idle, err := .capacityExceeded
      outq := u.outq ++ ((encodeRuns B).take c.cap).map .data ++ [.done .capacityExceeded (BitVec.ofNat 16 c.cap)] } := by
  have : enFrame B = (.start () :: B.map .data) ++ [.close] := by simp [enFrame]
  rw [this, enRun_append, enRun_bits u hu hB]
  exact enAccept_mid_close_full u.outq hB h

/-- R151: a frame of more than `CAP` bits. -/
theorem enRun_frame_long (u : EnUnit) (hu : u.mode = .idle) (hB : B.length = c.cap) (b : Bit) (rest : List Bit) :
    enRun c (enFrame (B ++ b :: rest)) u = { enMid u.outq B with
      mode := .idle, err := .capacityExceeded
      outq := (enMid u.outq B).outq ++ [.done .capacityExceeded (enMid u.outq B).nOut] } := by
  have : enFrame (B ++ b :: rest) = (.start () :: B.map .data) ++ ([.data b] ++ (rest.map .data ++ [.close])) := by
    simp [enFrame]
  have hrun : (enMid u.outq B).mode = .run := rfl
  rw [this, enRun_append, enRun_bits u hu (by omega), enRun_append]
  have h1 : enRun c [.data b] (enMid u.outq B) = (enMid u.outq B).raise .capacityExceeded := by
    show enAccept c (.data b) (enMid u.outq B) = _
    rw [enAccept, accept_run_data hrun, enDataAct, if_pos (by rw [enMid_nIn (c := c) _ (by omega)]; exact hB)]
    rfl
  rw [h1, enRun_append, enRun_err_data (by simp)]
  show enAccept c .close ((enMid u.outq B).raise .capacityExceeded) = _
  rw [enAccept, accept_err_close (by simp), UnitState.raise_of_ne (by simp [hrun])]
  rfl

end

theorem enStartAct_blind (a : Unit) : Blind (enStartAct a) := fun _ _ => rfl

theorem emitEntry_blind (c : Config) (v : Byte) : Blind (emitEntry c v) :=
  .ite (p := fun u : EnUnit => u.nOut.toNat = c.cap) (fun _ _ => Iff.rfl) (.fail _)
    fun q u => by simp [prepend_emitData]

theorem enCountBit_blind (c : Config) (b : Bit) : Blind (enCountBit c b) := by
  refine .ite (p := fun u : EnUnit => b = u.dp.curVal) (fun _ _ => Iff.rfl) ?_ ?_
  · refine .ite (p := fun u : EnUnit => u.dp.curCnt = runMax) (fun _ _ => Iff.rfl) ?_ (fun _ _ => rfl)
    exact (emitEntry_blind c _).andThen ((emitEntry_blind c _).andThen fun _ _ => rfl)
  · intro q u
    exact ((emitEntry_blind c u.dp.curCnt).andThen (g := fun u => .ok { u with dp := ⟨b, 1⟩ }) fun _ _ => rfl) q u

theorem enDataAct_blind (c : Config) (b : Bit) : Blind (enDataAct c b) :=
  .ite (p := fun u : EnUnit => u.nIn.toNat = c.cap) (fun _ _ => Iff.rfl) (.fail _)
    ((enCountBit_blind c b).andThen fun _ _ => rfl)

theorem enEndAct_blind (c : Config) : Blind (enEndAct c) := by
  refine .ite (p := fun u : EnUnit => u.dp.curCnt ≠ 0) (fun _ _ => Iff.rfl) ?_ (fun _ _ => rfl)
  intro q u
  exact ((emitEntry_blind c u.dp.curCnt).andThen
    (g := fun u => .ok { u with dp := { u.dp with curCnt := 0 } }) fun _ _ => rfl) q u

/-- R68 for the encoder. -/
theorem enAccept_prepend (c : Config) (op : EnOp) (q : List (Beat Byte)) (u : EnUnit) :
    enAccept c op (u.prepend q) = (enAccept c op u).prepend q :=
  accept_prepend q u enStartAct_blind (enDataAct_blind c) (enEndAct_blind c) op

end Sys2Proof.Machine
end

