-- ==== Sys2Proof/Laws/Exec.lean ====
section
/-! SUPPORT. `exec` and `execAll` through the units: every op is an op of one unit, and changes that unit alone (10_state.md R20). -/

namespace Sys2Proof.Machine

open Sys2Proof

theorem exec_pk (op : PkOp) (s : State) : exec (pkInstr op) s = .next { s with pk := pkAccept s.config op s.pk } := by
  cases op <;> rfl
theorem exec_up (op : UpOp) (s : State) : exec (upInstr op) s = .next { s with up := upAccept s.config op s.up } := by
  cases op <;> rfl
theorem exec_en (op : EnOp) (s : State) : exec (enInstr op) s = .next { s with en := enAccept s.config op s.en } := by
  cases op <;> rfl
theorem exec_de (op : DeOp) (s : State) : exec (deInstr op) s = .next { s with de := deAccept s.config op s.de } := by
  cases op <;> rfl

/-- Every op is an op of one of the four units. -/
theorem instr_cases (i : Instr) :
    (∃ op, i = pkInstr op) ∨ (∃ op, i = upInstr op) ∨ (∃ op, i = enInstr op) ∨ (∃ op, i = deInstr op) := by
  cases i with
  | pkStart => exact .inl ⟨.start (), rfl⟩
  | pkData e => exact .inl ⟨.data e, rfl⟩
  | pkEnd => exact .inl ⟨.close, rfl⟩
  | pkRsvd => exact .inl ⟨.rsvd, rfl⟩
  | upStart r c => exact .inr (.inl ⟨.start (r, c), rfl⟩)
  | upData b => exact .inr (.inl ⟨.data b, rfl⟩)
  | upEnd => exact .inr (.inl ⟨.close, rfl⟩)
  | upRsvd => exact .inr (.inl ⟨.rsvd, rfl⟩)
  | enStart => exact .inr (.inr (.inl ⟨.start (), rfl⟩))
  | enData b => exact .inr (.inr (.inl ⟨.data b, rfl⟩))
  | enEnd => exact .inr (.inr (.inl ⟨.close, rfl⟩))
  | enRsvd => exact .inr (.inr (.inl ⟨.rsvd, rfl⟩))
  | deStart r c => exact .inr (.inr (.inr ⟨.start (r, c), rfl⟩))
  | deData e => exact .inr (.inr (.inr ⟨.data e, rfl⟩))
  | deEnd => exact .inr (.inr (.inr ⟨.close, rfl⟩))
  | deRsvd => exact .inr (.inr (.inr ⟨.rsvd, rfl⟩))

@[simp] theorem pkInstr_unit (op : PkOp) : (pkInstr op).unit = .pk := by cases op <;> rfl
@[simp] theorem upInstr_unit (op : UpOp) : (upInstr op).unit = .up := by cases op <;> rfl
@[simp] theorem enInstr_unit (op : EnOp) : (enInstr op).unit = .en := by cases op <;> rfl
@[simp] theorem deInstr_unit (op : DeOp) : (deInstr op).unit = .de := by cases op <;> rfl

theorem execAll_pk (ops : List PkOp) (s : State) :
    execAll (ops.map pkInstr) s = .next { s with pk := pkRun s.config ops s.pk } := by
  induction ops generalizing s with
  | nil => rfl
  | cons op ops ih => simp only [List.map_cons, execAll, exec_pk, ih]; rfl
theorem execAll_up (ops : List UpOp) (s : State) :
    execAll (ops.map upInstr) s = .next { s with up := upRun s.config ops s.up } := by
  induction ops generalizing s with
  | nil => rfl
  | cons op ops ih => simp only [List.map_cons, execAll, exec_up, ih]; rfl
theorem execAll_en (ops : List EnOp) (s : State) :
    execAll (ops.map enInstr) s = .next { s with en := enRun s.config ops s.en } := by
  induction ops generalizing s with
  | nil => rfl
  | cons op ops ih => simp only [List.map_cons, execAll, exec_en, ih]; rfl
theorem execAll_de (ops : List DeOp) (s : State) :
    execAll (ops.map deInstr) s = .next { s with de := deRun s.config ops s.de } := by
  induction ops generalizing s with
  | nil => rfl
  | cons op ops ih => simp only [List.map_cons, execAll, exec_de, ih]; rfl

/-- Every op completes, in every state: nothing stops the machine (log 19). -/
theorem exec_next (i : Instr) (s : State) : ∃ t, exec i s = .next t := by
  rcases instr_cases i with ⟨op, rfl⟩ | ⟨op, rfl⟩ | ⟨op, rfl⟩ | ⟨op, rfl⟩
  · exact ⟨_, exec_pk op s⟩
  · exact ⟨_, exec_up op s⟩
  · exact ⟨_, exec_en op s⟩
  · exact ⟨_, exec_de op s⟩

/-- R5: no op changes the capacity. -/
theorem exec_config {i : Instr} {s t : State} (h : exec i s = .next t) : t.config = s.config := by
  rcases instr_cases i with ⟨op, rfl⟩ | ⟨op, rfl⟩ | ⟨op, rfl⟩ | ⟨op, rfl⟩ <;>
    simp only [exec_pk, exec_up, exec_en, exec_de] at h <;> cases h <;> rfl

theorem execAll_config {ops : List Instr} {s t : State} (h : execAll ops s = .next t) : t.config = s.config := by
  induction ops generalizing s with
  | nil => cases h; rfl
  | cons a ops ih =>
    obtain ⟨x, hx⟩ := exec_next a s
    rw [execAll, hx] at h
    rw [ih h, exec_config hx]

/-- The model's bookkeeping leaves the capacity alone. -/
@[simp] theorem note_config (i : Instr) (s : State) : (s.note i).config = s.config := by unfold State.note; split <;> rfl
@[simp] theorem deliverPk_config (s : State) : s.deliverPk.config = s.config := by unfold State.deliverPk; split <;> rfl
@[simp] theorem deliverUp_config (s : State) : s.deliverUp.config = s.config := by unfold State.deliverUp; split <;> rfl
@[simp] theorem deliverEn_config (s : State) : s.deliverEn.config = s.config := by unfold State.deliverEn; split <;> rfl
@[simp] theorem deliverDe_config (s : State) : s.deliverDe.config = s.config := by unfold State.deliverDe; split <;> rfl
@[simp] theorem resetPkUnit_config (s : State) : s.resetPkUnit.config = s.config := rfl
@[simp] theorem resetUpUnit_config (s : State) : s.resetUpUnit.config = s.config := rfl
@[simp] theorem resetEnUnit_config (s : State) : s.resetEnUnit.config = s.config := rfl
@[simp] theorem resetDeUnit_config (s : State) : s.resetDeUnit.config = s.config := rfl

theorem execAll_snoc {ops : List Instr} {s t : State} (h : execAll ops s = .next t) (i : Instr) :
    execAll (ops ++ [i]) s = exec i t := by
  induction ops generalizing s with
  | nil =>
    obtain ⟨x, hx⟩ := exec_next i t
    have : s = t := by simpa [execAll] using h
    subst this
    simp [execAll, hx]
  | cons a ops ih =>
    obtain ⟨x, hx⟩ := exec_next a s
    rw [execAll, hx] at h
    rw [List.cons_append, execAll, hx]
    exact ih h

end Sys2Proof.Machine
end

