-- ==== Sys2Proof/Laws/Operands.lean ====
section
/-! SUPPORT. The functions on single bits, bit by bit (40_bitops.md R100 to R104). -/

namespace Sys2Proof.Machine

open Sys2Proof

theorem getBit_ok {byte : Byte} {k : Nat} (h : k ≤ 7) : getBit byte k = .ok (byte.getLsbD k) := by simp [getBit, h]

theorem one_shift_bit {i k : Nat} (hk : k < 8) : ((1#8) <<< i).getLsbD k = decide (k = i) := by
  simp only [BitVec.getLsbD_shiftLeft, BitVec.getLsbD_one, hk, decide_true, Bool.true_and]
  by_cases h : k < i
  · simp [h, Nat.ne_of_lt h]
  · have : (k - i = 0) ↔ k = i := by omega
    simp [h, this]

/-- R101, bit by bit. -/
theorem setBit_bits {byte : Byte} {i : Nat} (h : i ≤ 7) :
    ∃ r, setBit byte i = .ok r ∧ ∀ k, k < 8 → r.getLsbD k = (decide (k = i) || byte.getLsbD k) :=
  ⟨byte ||| (1#8 <<< i), by simp [setBit, h], fun k hk => by rw [BitVec.getLsbD_or, one_shift_bit hk, Bool.or_comm]⟩

/-- R102, bit by bit. -/
theorem clearBit_bits {byte : Byte} {i : Nat} (h : i ≤ 7) :
    ∃ r, clearBit byte i = .ok r ∧ ∀ k, k < 8 → r.getLsbD k = (!decide (k = i) && byte.getLsbD k) :=
  ⟨byte &&& ~~~(1#8 <<< i), by simp [clearBit, h], fun k hk => by
    rw [BitVec.getLsbD_and, BitVec.getLsbD_not, one_shift_bit hk, Bool.and_comm, decide_eq_true hk, Bool.true_and]⟩

/-- R111 (c): the placed byte, bit by bit. -/
theorem placeElem_bits (acc : Byte) {i : Nat} (h : i ≤ 7) (elem : Byte) :
    ∃ r, placeElem acc i elem = .ok r ∧
      ∀ k, k < 8 → r.getLsbD k = if k = i then decide (elem = 1) else acc.getLsbD k := by
  unfold placeElem
  split
  · rename_i he
    obtain ⟨r, hr, hb⟩ := setBit_bits (byte := acc) h
    exact ⟨r, hr, fun k hk => by rw [hb k hk]; by_cases hki : k = i <;> simp [hki, he]⟩
  · rename_i he
    have hd : decide (elem = 1) = false := decide_eq_false he
    obtain ⟨r, hr, hb⟩ := clearBit_bits (byte := acc) h
    exact ⟨r, hr, fun k hk => by rw [hb k hk, hd]; by_cases hki : k = i <;> simp [hki]⟩

/-- A byte is known by its bits 0 to 7. -/
theorem byte_ext {a b : Byte} (h : ∀ k, k < 8 → a.getLsbD k = b.getLsbD k) : a = b := by
  apply BitVec.eq_of_getLsbD_eq
  intro k hk
  exact h k hk

/-- The byte with the given bits, as a sum of powers of 2 (R190). -/
theorem ofNat_bits : ∀ x0 x1 x2 x3 x4 x5 x6 x7 : Bool, ∀ k : Fin 8,
    (BitVec.ofNat 8 (x0.toNat + 2 * x1.toNat + 4 * x2.toNat + 8 * x3.toNat + 16 * x4.toNat + 32 * x5.toNat +
      64 * x6.toNat + 128 * x7.toNat)).getLsbD k = [x0, x1, x2, x3, x4, x5, x6, x7].getD k false := by decide

end Sys2Proof.Machine
end

