-- ==== Sys2Proof/Laws/Packer.lean ====
section
/-! SUPPORT. `bit_packer` (41_bit_packer.md): its actions by case, and the packed byte bit by bit. -/

namespace Sys2Proof.Machine

open Sys2Proof

theorem pkDataAct_full {c : Config} {u : PkUnit} (h : u.nIn.toNat = c.cap) (e : Byte) :
    pkDataAct c e u = u.fail .capacityExceeded := by simp [pkDataAct, h]

theorem pkDataAct_illegal {c : Config} {u : PkUnit} {e : Byte} (h : u.nIn.toNat ≠ c.cap) (he : 2 ≤ e.toNat) :
    pkDataAct c e u = u.fail .invalidBitValue := by
  have h0 : e ≠ 0 ∧ e ≠ 1 := by constructor <;> (rintro rfl; simp at he)
  rw [pkDataAct, if_neg h, if_pos h0]

/-- R111 on a legal element: the byte `a` is `acc` with bit `bitpos` set to the element. -/
theorem pkDataAct_legal {c : Config} {u : PkUnit} {e : Byte} (h : u.nIn.toNat ≠ c.cap) (he : e.toNat ≤ 1) :
    ∃ a : Byte,
      (∀ k, k < 8 → a.getLsbD k = if k = u.dp.bitpos.toNat then decide (e.toNat = 1) else u.dp.acc.getLsbD k) ∧
      pkDataAct c e u =
        if u.dp.bitpos.toNat = 7 then .ok { u.emitData a with nIn := u.nIn + 1, dp := ⟨0, 0⟩ }
        else .ok { u with nIn := u.nIn + 1, dp := ⟨a, u.dp.bitpos + 1⟩ } := by
  obtain ⟨a, ha, hbits⟩ := placeElem_bits u.dp.acc (i := u.dp.bitpos.toNat) (by have := u.dp.bitpos.isLt; omega) e
  have h1 : (e = 1) ↔ e.toNat = 1 := by
    constructor
    · rintro rfl; rfl
    · intro h; exact BitVec.eq_of_toNat_eq (by simpa using h)
  have h0 : ¬(e ≠ 0 ∧ e ≠ 1) := by
    rintro ⟨h0, hne⟩
    apply h0
    have : e.toNat ≠ 1 := fun hc => hne (h1.mpr hc)
    exact BitVec.eq_of_toNat_eq (by simp; omega)
  have h7 : u.dp.bitpos = 7 ↔ u.dp.bitpos.toNat = 7 := by
    constructor
    · intro h; rw [h]; rfl
    · intro h; exact BitVec.eq_of_toNat_eq (by simpa using h)
  refine ⟨a, fun k hk => by rw [hbits k hk]; simp only [h1], ?_⟩
  rw [pkDataAct, if_neg h, if_neg h0, ha]
  simp only [h7]

theorem pkDataAct_blind (c : Config) (e : Byte) : Blind (pkDataAct c e) := by
  refine .ite (p := fun u => u.nIn.toNat = c.cap) (fun _ _ => Iff.rfl) (.fail _) ?_
  refine .ite (p := fun _ => e ≠ 0 ∧ e ≠ 1) (fun _ _ => Iff.rfl) (.fail _) ?_
  intro q u
  beta_reduce
  show (match placeElem u.dp.acc u.dp.bitpos.toNat e with | .error _ => _ | .ok _ => _) = _
  cases placeElem u.dp.acc u.dp.bitpos.toNat e with
  | error e => exact prepend_fail q u _
  | ok a =>
    dsimp only
    by_cases h : u.dp.bitpos = 7
    · have h' : (u.prepend q).dp.bitpos = 7 := h
      rw [if_pos h, if_pos h']
      simp [UnitState.prepend, UnitState.emitData, UnitState.emit]
    · have h' : (u.prepend q).dp.bitpos ≠ 7 := h
      rw [if_neg h, if_neg h']
      rfl

theorem pkEndAct_blind : Blind pkEndAct := by
  refine .ite (p := fun u : PkUnit => u.dp.bitpos ≠ 0) (fun _ _ => Iff.rfl) (fun q u => ?_) (fun _ _ => rfl)
  simp [UnitState.prepend, UnitState.emitData, UnitState.emit]

/-- R68 for the packer. -/
theorem pkAccept_prepend (c : Config) (op : PkOp) (q : List (Beat Byte)) (u : PkUnit) :
    pkAccept c op (u.prepend q) = (pkAccept c op u).prepend q :=
  accept_prepend q u (fun _ _ _ => rfl) (pkDataAct_blind c) pkEndAct_blind op

/-- R190: bit `k` of `P[j]` is `R[8j + k]`, and a pad bit is 0. -/
theorem packByte_bit (R : List Bit) (j : Nat) {k : Nat} (hk : k < 8) :
    (packByte R j).getLsbD k = R.getD (8 * j + k) false := by
  have hterm : ∀ i, (if 8 * j + i < R.length then (R.getD (8 * j + i) false).toNat * 2 ^ i else 0)
      = 2 ^ i * (R.getD (8 * j + i) false).toNat := by
    intro i
    split
    · exact Nat.mul_comm _ _
    · rename_i h
      rw [List.getD_eq_default _ _ (by omega)]
      rfl
  have := ofNat_bits (R.getD (8 * j + 0) false) (R.getD (8 * j + 1) false) (R.getD (8 * j + 2) false)
    (R.getD (8 * j + 3) false) (R.getD (8 * j + 4) false) (R.getD (8 * j + 5) false) (R.getD (8 * j + 6) false)
    (R.getD (8 * j + 7) false) ⟨k, hk⟩
  unfold packByte
  simp only [hterm]
  have hr : List.range 8 = [0, 1, 2, 3, 4, 5, 6, 7] := rfl
  rw [hr]
  simp only [List.map_cons, List.map_nil, List.sum_cons, List.sum_nil]
  have e : ∀ x0 x1 x2 x3 x4 x5 x6 x7 : Nat, 2 ^ 0 * x0 + (2 ^ 1 * x1 + (2 ^ 2 * x2 + (2 ^ 3 * x3 + (2 ^ 4 * x4 +
      (2 ^ 5 * x5 + (2 ^ 6 * x6 + (2 ^ 7 * x7 + 0))))))) =
      x0 + 2 * x1 + 4 * x2 + 8 * x3 + 16 * x4 + 32 * x5 + 64 * x6 + 128 * x7 := by intros; omega
  rw [e, this]
  interval_cases k <;> rfl

/-- The whole bytes are not changed by later elements. -/
theorem packByte_append_of_full {R : List Bit} {j : Nat} (h : 8 * j + 8 ≤ R.length) (S : List Bit) :
    packByte (R ++ S) j = packByte R j :=
  byte_ext fun k hk => by
    rw [packByte_bit _ _ hk, packByte_bit _ _ hk, List.getD_append _ _ _ _ (by omega)]

/-- One more element, in the byte it goes to. -/
theorem packByte_snoc (R : List Bit) (b : Bit) {k : Nat} (hk : k < 8) :
    (packByte (R ++ [b]) (R.length / 8)).getLsbD k =
      if k = R.length % 8 then b else (packByte R (R.length / 8)).getLsbD k := by
  rw [packByte_bit _ _ hk, packByte_bit _ _ hk]
  have hl := Nat.div_add_mod R.length 8
  have hm := Nat.mod_lt R.length (show 0 < 8 by omega)
  by_cases h : k = R.length % 8
  · rw [if_pos h, List.getD_append_right _ _ _ _ (by omega)]
    have : 8 * (R.length / 8) + k - R.length = 0 := by omega
    rw [this]; rfl
  · rw [if_neg h]
    by_cases hlt : 8 * (R.length / 8) + k < R.length
    · rw [List.getD_append _ _ _ _ hlt]
    · rw [List.getD_eq_default _ _ (by simp; omega), List.getD_eq_default _ _ (by omega)]

theorem packByte_empty {R : List Bit} {j : Nat} (h : R.length ≤ 8 * j) : packByte R j = 0 :=
  byte_ext fun k hk => by rw [packByte_bit _ _ hk, List.getD_eq_default _ _ (by omega)]; simp

/-- The packer in the middle of a frame, after the elements `R` (R31, R115). -/
def pkMid (q : List (Beat Byte)) (R : List Bit) : PkUnit :=
  ⟨.run, .noError, BitVec.ofNat 16 R.length, BitVec.ofNat 16 (R.length / 8),
    ⟨packByte R (R.length / 8), BitVec.ofNat 3 (R.length % 8)⟩,
    q ++ (List.range (R.length / 8)).map fun j => .data (packByte R j)⟩

theorem pkMid_nIn {c : Config} {q : List (Beat Byte)} {R : List Bit} (h : R.length ≤ c.cap) :
    (pkMid q R).nIn.toNat = R.length := by
  have := c.cap_le
  simp [pkMid]; omega

theorem bitElem_toNat (b : Bit) : (bitElem b).toNat = b.toNat := by cases b <;> rfl

/-- R111: one element more. -/
theorem pkAccept_mid {c : Config} (q : List (Beat Byte)) {R : List Bit} (b : Bit) (h : R.length < c.cap) :
    pkAccept c (.data (bitElem b)) (pkMid q R) = pkMid q (R ++ [b]) := by
  have hb : (bitElem b).toNat ≤ 1 := by rw [bitElem_toNat]; cases b <;> decide
  have hn : (pkMid q R).nIn.toNat ≠ c.cap := by rw [pkMid_nIn (Nat.le_of_lt h)]; omega
  obtain ⟨a, hbits, hact⟩ := pkDataAct_legal (c := c) (u := pkMid q R) hn hb
  have hpos : (pkMid q R).dp.bitpos.toNat = R.length % 8 := by simp [pkMid]
  have hl := Nat.div_add_mod R.length 8
  have hm := Nat.mod_lt R.length (show 0 < 8 by omega)
  have ha : a = packByte (R ++ [b]) (R.length / 8) := byte_ext fun k hk => by
    rw [hbits k hk, packByte_snoc R b hk, hpos, bitElem_toNat]
    by_cases hki : k = R.length % 8
    · simp only [hki, if_true]; cases b <;> rfl
    · simp only [hki, if_false]; rfl
  have hlen : (R ++ [b]).length = R.length + 1 := by simp
  have hprev : ∀ j, j < R.length / 8 → packByte (R ++ [b]) j = packByte R j := fun j hj =>
    packByte_append_of_full (by omega) _
  have hmap : ((List.range (R.length / 8)).map fun j => Beat.data (packByte (R ++ [b]) j))
      = (List.range (R.length / 8)).map fun j => Beat.data (packByte R j) :=
    List.map_congr_left fun j hj => by rw [hprev j (List.mem_range.mp hj)]
  have hrun : (pkMid q R).mode = .run := rfl
  rw [pkAccept, accept_run_data hrun, hact, hpos, ha]
  by_cases h7 : R.length % 8 = 7
  · have hd : (R.length + 1) / 8 = R.length / 8 + 1 := by omega
    have hm0 : (R.length + 1) % 8 = 0 := by omega
    rw [if_pos h7]
    simp only [pkMid, Act.state_ok, UnitState.emitData, UnitState.emit, hlen, hd, hm0, List.range_succ, List.map_append,
      hmap, List.append_assoc, List.map_cons, List.map_nil]
    rw [packByte_empty (R := R ++ [b]) (j := R.length / 8 + 1) (by simp only [hlen]; omega)]
    simp [BitVec.ofNat_add]
  · have hd : (R.length + 1) / 8 = R.length / 8 := by omega
    have hm1 : (R.length + 1) % 8 = R.length % 8 + 1 := by omega
    rw [if_neg h7]
    simp only [pkMid, Act.state_ok, hlen, hd, hm1, hmap]
    simp [BitVec.ofNat_add]

/-- R110, R115: a frame's START and its legal elements. -/
theorem pkRun_elems {c : Config} (u : PkUnit) (hu : u.mode = .idle) {R : List Bit} (h : R.length ≤ c.cap) :
    pkRun c (.start () :: R.map fun b => .data (bitElem b)) u = pkMid u.outq R := by
  induction R using List.reverseRecOn with
  | nil =>
    show pkAccept c (.start ()) u = _
    rw [pkAccept, accept_idle_start hu]
    simp [pkStartAct, pkMid, UnitState.openFrame, packByte_empty]
  | append_singleton R b ih =>
    have hlt : R.length < c.cap := by simpa using h
    have := ih (Nat.le_of_lt hlt)
    simp only [pkRun, List.map_append, List.foldl_cons, List.foldl_append, List.map_cons, List.map_nil, List.foldl_nil] at this ⊢
    rw [this]
    exact pkAccept_mid u.outq b hlt

/-- R112: END of a legal frame. -/
theorem pkAccept_mid_close (c : Config) (q : List (Beat Byte)) (R : List Bit) :
    pkAccept c .close (pkMid q R) = ⟨.idle, .noError, BitVec.ofNat 16 R.length, BitVec.ofNat 16 (ceil8 R.length), ⟨0, 0⟩,
      q ++ (pack R).map .data ++ [.done .noError (BitVec.ofNat 16 (ceil8 R.length))]⟩ := by
  have hrun : (pkMid q R).mode = .run := rfl
  have hl := Nat.div_add_mod R.length 8
  have hm := Nat.mod_lt R.length (show 0 < 8 by omega)
  rw [pkAccept, accept_run_close hrun]
  by_cases h0 : R.length % 8 = 0
  · have hc : ceil8 R.length = R.length / 8 := by unfold ceil8; omega
    have hp : (pkMid q R).dp.bitpos = 0 := by simp [pkMid, h0]
    rw [pkEndAct, if_neg (by simp [hp])]
    simp [pkMid, UnitState.closeFrame, UnitState.emit, hc, pack, h0, packByte_empty (R := R) (j := R.length / 8) (by omega)]
  · have hc : ceil8 R.length = R.length / 8 + 1 := by unfold ceil8; omega
    have hp : (pkMid q R).dp.bitpos ≠ 0 := by
      intro hcon
      have := congrArg BitVec.toNat hcon
      simp [pkMid] at this
      omega
    rw [pkEndAct, if_pos hp]
    simp [pkMid, UnitState.closeFrame, UnitState.emitData, UnitState.emit, hc, pack, List.range_succ, BitVec.ofNat_add]

theorem pkRun_append (c : Config) (a b : List PkOp) (u : PkUnit) : pkRun c (a ++ b) u = pkRun c b (pkRun c a u) :=
  List.foldl_append ..

/-- R115: a whole legal frame, for every capacity. -/
theorem pkRun_frame {c : Config} (u : PkUnit) (hu : u.mode = .idle) {R : List Bit} (h : R.length ≤ c.cap) :
    pkRun c (pkFrame (R.map bitElem)) u =
      ⟨.idle, .noError, BitVec.ofNat 16 R.length, BitVec.ofNat 16 (ceil8 R.length), ⟨0, 0⟩,
        u.outq ++ (pack R).map .data ++ [.done .noError (BitVec.ofNat 16 (ceil8 R.length))]⟩ := by
  have : pkFrame (R.map bitElem) = (.start () :: R.map fun b => .data (bitElem b)) ++ [.close] := by simp [pkFrame, Function.comp_def]
  rw [this, pkRun_append, pkRun_elems u hu h]
  exact pkAccept_mid_close c u.outq R

/-- R218: in mode ERR data changes nothing. -/
theorem pkRun_err_data {c : Config} {u : PkUnit} (hu : u.mode = .err) (R : List Byte) : pkRun c (R.map .data) u = u := by
  induction R with
  | nil => rfl
  | cons e R ih =>
    show pkRun c (R.map .data) (pkAccept c (.data e) u) = u
    rw [pkAccept, accept_err_of_ne_close hu (by simp), ih]

/-- R116: a frame that raises at its element number `good.length`. -/
theorem pkRun_frame_raises {c : Config} (u : PkUnit) (hu : u.mode = .idle) {good : List Bit} (h : good.length ≤ c.cap)
    (bad : Byte) (rest : List Byte) (e : ErrCode) (hbad : pkDataAct c bad (pkMid u.outq good) = (pkMid u.outq good).fail e) :
    pkRun c (pkFrame (good.map bitElem ++ bad :: rest)) u =
      { pkMid u.outq good with
        mode := .idle, err := e,
        outq := (pkMid u.outq good).outq ++ [.done e (BitVec.ofNat 16 (good.length / 8))] } := by
  have : pkFrame (good.map bitElem ++ bad :: rest) =
      (.start () :: good.map fun b => .data (bitElem b)) ++ ([.data bad] ++ (rest.map .data ++ [.close])) := by
    simp [pkFrame, Function.comp_def]
  rw [this, pkRun_append, pkRun_elems u hu h, pkRun_append]
  have hrun : (pkMid u.outq good).mode = .run := rfl
  have h1 : pkRun c [.data bad] (pkMid u.outq good) = (pkMid u.outq good).raise e := by
    show pkAccept c (.data bad) (pkMid u.outq good) = _
    rw [pkAccept, accept_run_data hrun, hbad]; rfl
  rw [h1, pkRun_append, pkRun_err_data (by simp)]
  show pkAccept c .close ((pkMid u.outq good).raise e) = _
  rw [pkAccept, accept_err_close (by simp), UnitState.raise_of_ne (by simp [hrun])]
  rfl

end Sys2Proof.Machine
end

