-- ==== Sys2Proof/Laws/Unpacker.lean ====
section
/-! SUPPORT. `bit_unpacker` (42_bit_unpacker.md): its loop in closed form, and whole frames. -/

namespace Sys2Proof.Machine

open Sys2Proof

/-- The unit after emitting some bits. -/
def upAfter (bits : List Bit) (u : UpUnit) : UpUnit :=
  { u with
    nOut := u.nOut + BitVec.ofNat 16 bits.length
    dp := u.dp.after bits.length
    outq := u.outq ++ bitBeats u.dp.cols.toNat u.dp.col.toNat bits }

theorem upEmitBit_after {u : UpUnit} (h : u.dp.col.toNat < u.dp.cols.toNat) (bits : List Bit) (b : Bit) :
    upEmitBit b (upAfter bits u) = upAfter (bits ++ [b]) u := by
  simp only [upEmitBit, upAfter, UnitState.emitData, UnitState.emit, ShapeRegs.eol_after h, ShapeRegs.advance_after h,
    bitBeats_snoc, List.length_append, List.length_cons, List.length_nil, BitVec.ofNat_add, List.append_assoc, BitVec.add_assoc]
  rfl

theorem upAfter_nil {u : UpUnit} (h : u.dp.col.toNat < u.dp.cols.toNat) : upAfter [] u = u := by
  simp [upAfter, ShapeRegs.after_zero h, bitBeats]

/-- R131: the loop takes as many of the listed bits as the frame still wants. -/
theorem upLoop {u : UpUnit} (h : u.dp.col.toNat < u.dp.cols.toNat) (ht : u.dp.total.toNat < 2 ^ 16) (byte : Byte) (ks : List Nat)
    (hks : ∀ k ∈ ks, k ≤ 7) (bits : List Bit) (hb : u.nOut.toNat + bits.length ≤ u.dp.total.toNat) :
    Act.forEach (upBitTurn byte) ks (upAfter bits u) =
      .ok (upAfter (bits ++ (ks.take (u.dp.total.toNat - u.nOut.toNat - bits.length)).map fun k => byte.getLsbD k) u) := by
  have hn : ∀ bits : List Bit, u.nOut.toNat + bits.length ≤ u.dp.total.toNat →
      (upAfter bits u).nOut.toNat = u.nOut.toNat + bits.length := fun bits hb => by
    simp only [upAfter, BitVec.toNat_add, BitVec.toNat_ofNat]; omega
  induction ks generalizing bits with
  | nil => simp [Act.forEach]
  | cons k ks ih =>
    have hk : k ≤ 7 := hks k (by simp)
    by_cases hlt : u.nOut.toNat + bits.length < u.dp.total.toNat
    · have hturn : upBitTurn byte k (upAfter bits u) = .ok (upAfter (bits ++ [byte.getLsbD k]) u) := by
        rw [upBitTurn, hn bits hb, if_pos (by exact hlt), getBit_ok hk]
        exact congrArg Act.ok (upEmitBit_after h bits _)
      have hnext := ih (fun k hk => hks k (by simp [hk])) (bits ++ [byte.getLsbD k]) (by simp; omega)
      simp only [Act.forEach, hturn, Act.ok_andThen, hnext]
      have : u.dp.total.toNat - u.nOut.toNat - bits.length =
          (u.dp.total.toNat - u.nOut.toNat - (bits ++ [byte.getLsbD k]).length) + 1 := by simp; omega
      rw [this, List.take_succ_cons]
      simp
    · have hturn : upBitTurn byte k (upAfter bits u) = .ok (upAfter bits u) := by
        rw [upBitTurn, hn bits hb, if_neg (by exact hlt)]
      have h0 : u.dp.total.toNat - u.nOut.toNat - bits.length = 0 := by omega
      have hnext := ih (fun k hk => hks k (by simp [hk])) bits hb
      simp only [Act.forEach, hturn, Act.ok_andThen, hnext, h0, List.take_zero]

/-- R131 in closed form. -/
theorem upDataAct_emits {u : UpUnit} (h : u.dp.col.toNat < u.dp.cols.toNat) (ht : u.dp.total.toNat < 2 ^ 16)
    (hlt : u.nOut.toNat < u.dp.total.toNat) (byte : Byte) :
    upDataAct byte u = .ok { upAfter ((List.range (min 8 (u.dp.total.toNat - u.nOut.toNat))).map fun k => byte.getLsbD k) u with
      nIn := u.nIn + 1 } := by
  have := upLoop h ht byte [0, 1, 2, 3, 4, 5, 6, 7] (by decide) [] (by simp; omega)
  rw [upAfter_nil h] at this
  have htake : [0, 1, 2, 3, 4, 5, 6, 7].take (u.dp.total.toNat - u.nOut.toNat) = List.range (min 8 (u.dp.total.toNat - u.nOut.toNat)) := by
    have : [0, 1, 2, 3, 4, 5, 6, 7] = List.range 8 := rfl
    rw [this, List.take_range, Nat.min_comm]
  simp only [List.length_nil, Nat.sub_zero, List.nil_append, htake] at this
  rw [upDataAct, if_neg (by omega), this]
  rfl

theorem upDataAct_excess {u : UpUnit} (h : u.nOut.toNat = u.dp.total.toNat) (byte : Byte) :
    upDataAct byte u = u.fail .protocolViolation := by simp [upDataAct, h]

theorem upStartAct_blind (c : Config) (a : Dim × Dim) : Blind (upStartAct c a) := fun q u =>
  checkShape_blind c a.1 a.2 q { u with dp := ShapeRegs.ofShape a.1 a.2 }

theorem upBitTurn_blind (byte : Byte) (k : Nat) : Blind (upBitTurn byte k) := by
  refine .ite (p := fun u : UpUnit => u.nOut.toNat < u.dp.total.toNat) (fun _ _ => Iff.rfl) ?_ (fun _ _ => rfl)
  intro q u
  cases getBit byte k with
  | error e => exact prepend_fail q u _
  | ok b => simp [upEmitBit, UnitState.prepend, UnitState.emitData, UnitState.emit]

theorem upDataAct_blind (byte : Byte) : Blind (upDataAct byte) := by
  refine .ite (p := fun u : UpUnit => u.nOut.toNat = u.dp.total.toNat) (fun _ _ => Iff.rfl) (.fail _) ?_
  exact (Blind.forEach (upBitTurn_blind byte) _).andThen fun _ _ => rfl

theorem upEndAct_blind : Blind upEndAct :=
  .ite (p := fun u : UpUnit => u.nOut.toNat < u.dp.total.toNat) (fun _ _ => Iff.rfl) (.fail _) (fun _ _ => rfl)

/-- R68 for the unpacker. -/
theorem upAccept_prepend (c : Config) (op : UpOp) (q : List (Beat BitOut)) (u : UpUnit) :
    upAccept c op (u.prepend q) = (upAccept c op u).prepend q :=
  accept_prepend q u (upStartAct_blind c) upDataAct_blind upEndAct_blind op

/-- The unpacker in the middle of a legal frame of `rows*cols` bits, after the bytes `P` (R31). -/
def upMid (q : List (Beat BitOut)) (rows cols : Dim) (P : List Byte) : UpUnit :=
  let m := min (8 * P.length) (rows.toNat * cols.toNat)
  ⟨.run, .noError, BitVec.ofNat 16 P.length, BitVec.ofNat 16 m,
    ⟨rows, cols, BitVec.ofNat 32 (rows.toNat * cols.toNat), BitVec.ofNat 16 (m % cols.toNat)⟩,
    q ++ bitBeats cols.toNat 0 (unpack P m)⟩

theorem unpack_length (P : List Byte) (T : Nat) : (unpack P T).length = T := by simp [unpack]

theorem unpack_snoc {P : List Byte} (b : Byte) {m : Nat} (hm : m ≤ 8) :
    unpack (P ++ [b]) (8 * P.length + m) = unpack P (8 * P.length) ++ (List.range m).map fun k => b.getLsbD k := by
  unfold unpack
  rw [List.range_add, List.map_append, List.map_map]
  congr 1
  · refine List.map_congr_left fun i hi => ?_
    have := List.mem_range.mp hi
    rw [List.getD_append _ _ _ _ (by omega)]
  · refine List.map_congr_left fun k hk => ?_
    have := List.mem_range.mp hk
    have h1 : (8 * P.length + k) / 8 = P.length := by omega
    have h2 : (8 * P.length + k) % 8 = k := by omega
    simp only [Function.comp, h1, h2]
    rw [List.getD_append_right _ _ _ _ (Nat.le_refl _)]
    simp

/-- Bits past the ones read do not matter. -/
theorem unpack_append {P : List Byte} {T : Nat} (h : T ≤ 8 * P.length) (Q : List Byte) : unpack (P ++ Q) T = unpack P T := by
  unfold unpack
  refine List.map_congr_left fun i hi => ?_
  have := List.mem_range.mp hi
  rw [List.getD_append _ _ _ _ (by omega)]

section
variable {c : Config} {rows cols : Dim} (q : List (Beat BitOut)) (P : List Byte)

theorem upMid_total : (upMid q rows cols P).dp.total.toNat = rows.toNat * cols.toNat := shape_total_exact rows cols

theorem upMid_nOut (h : rows.toNat * cols.toNat ≤ c.cap) :
    (upMid q rows cols P).nOut.toNat = min (8 * P.length) (rows.toNat * cols.toNat) := by
  have := c.cap_le
  simp only [upMid, BitVec.toNat_ofNat]; omega

theorem upMid_col (h2 : 1 ≤ cols.toNat) :
    (upMid q rows cols P).dp.col.toNat = min (8 * P.length) (rows.toNat * cols.toNat) % cols.toNat := by
  have h := Nat.mod_lt (min (8 * P.length) (rows.toNat * cols.toNat)) (show 0 < cols.toNat by omega)
  have := cols.isLt
  simp only [upMid, BitVec.toNat_ofNat]
  exact Nat.mod_eq_of_lt (by omega)

/-- R130, R131: a byte the frame still wants. -/
theorem upAccept_mid (h2 : 1 ≤ cols.toNat) (h : rows.toNat * cols.toNat ≤ c.cap)
    (hlt : 8 * P.length < rows.toNat * cols.toNat) (b : Byte) :
    upAccept c (.data b) (upMid q rows cols P) = upMid q rows cols (P ++ [b]) := by
  have hcap := c.cap_le
  have hm : min (8 * P.length) (rows.toNat * cols.toNat) = 8 * P.length := by omega
  have hcol := upMid_col (rows := rows) (cols := cols) q P h2
  have hcols : (upMid q rows cols P).dp.cols = cols := rfl
  have hc : (upMid q rows cols P).dp.col.toNat < (upMid q rows cols P).dp.cols.toNat := by
    rw [hcol, hcols]; exact Nat.mod_lt _ (by omega)
  have hn := upMid_nOut (c := c) q P h
  have ht := upMid_total (rows := rows) (cols := cols) q P
  have hrun : (upMid q rows cols P).mode = .run := rfl
  rw [upAccept, accept_run_data hrun, upDataAct_emits hc (by omega) (by omega), Act.state_ok]
  rw [hn, ht, hm]
  generalize hk : min 8 (rows.toNat * cols.toNat - 8 * P.length) = k
  have hm' : min (8 * (P ++ [b]).length) (rows.toNat * cols.toNat) = 8 * P.length + k := by simp; omega
  have hk8 : k ≤ 8 := by omega
  have hq : q ++ bitBeats cols.toNat 0 (unpack (P ++ [b]) (8 * P.length + k)) =
      (upMid q rows cols P).outq ++ bitBeats cols.toNat (upMid q rows cols P).dp.col.toNat ((List.range k).map fun k => b.getLsbD k) := by
    rw [unpack_snoc b hk8, bitBeats_append, unpack_length, hcol, hm]
    simp [upMid, hm]
  have hd : (upMid q rows cols P).dp.after k =
      ⟨rows, cols, BitVec.ofNat 32 (rows.toNat * cols.toNat), BitVec.ofNat 16 ((8 * P.length + k) % cols.toNat)⟩ := by
    unfold ShapeRegs.after
    rw [hcol, hm, hcols, Nat.mod_add_mod]
    rfl
  have hO : (upMid q rows cols P).nOut + BitVec.ofNat 16 k = BitVec.ofNat 16 (8 * P.length + k) := by
    show BitVec.ofNat 16 (min (8 * P.length) (rows.toNat * cols.toNat)) + _ = _
    rw [hm, BitVec.ofNat_add]
  have hR : upMid q rows cols (P ++ [b]) = ⟨.run, .noError, BitVec.ofNat 16 (P.length + 1), BitVec.ofNat 16 (8 * P.length + k),
      ⟨rows, cols, BitVec.ofNat 32 (rows.toNat * cols.toNat), BitVec.ofNat 16 ((8 * P.length + k) % cols.toNat)⟩,
      q ++ bitBeats cols.toNat 0 (unpack (P ++ [b]) (8 * P.length + k))⟩ := by
    unfold upMid
    simp only [hm']
    simp
  rw [hR, hq]
  simp only [upAfter, List.length_map, List.length_range, hd, hO, hcols]
  simp [upMid, BitVec.ofNat_add]

theorem upRun_append (c : Config) (a b : List UpOp) (u : UpUnit) : upRun c (a ++ b) u = upRun c b (upRun c a u) :=
  List.foldl_append ..

/-- R130: START of a legal shape. -/
theorem upAccept_start (u : UpUnit) (hu : u.mode = .idle) (h1 : 1 ≤ rows.toNat) (h2 : 1 ≤ cols.toNat)
    (h : rows.toNat * cols.toNat ≤ c.cap) : upAccept c (.start (rows, cols)) u = upMid u.outq rows cols [] := by
  rw [upAccept, accept_idle_start hu, upStartAct, checkShape_ok h1 h2 h]
  simp [upMid, UnitState.openFrame, ShapeRegs.ofShape, unpack, bitBeats]

/-- The bytes of a frame, all of them wanted. -/
theorem upRun_bytes (h2 : 1 ≤ cols.toNat) (h : rows.toNat * cols.toNat ≤ c.cap) (hlt : 8 * P.length < rows.toNat * cols.toNat + 8) :
    upRun c (P.map .data) (upMid q rows cols []) = upMid q rows cols P := by
  induction P using List.reverseRecOn with
  | nil => rfl
  | append_singleton P b ih =>
    have hl : 8 * P.length < rows.toNat * cols.toNat := by simp at hlt; omega
    rw [List.map_append, upRun_append, ih (by omega)]
    exact upAccept_mid q P h2 h hl b

/-- R218: in mode ERR data changes nothing. -/
theorem upRun_err_data {u : UpUnit} (hu : u.mode = .err) : upRun c (P.map .data) u = u := by
  induction P with
  | nil => rfl
  | cons e P ih =>
    show upRun c (P.map .data) (upAccept c (.data e) u) = u
    rw [upAccept, accept_err_of_ne_close hu (by simp), ih]

/-- R132: END of a frame. -/
theorem upAccept_mid_close (h : rows.toNat * cols.toNat ≤ c.cap) :
    upAccept c .close (upMid q rows cols P) =
      { upMid q rows cols P with
        mode := .idle
        err := if 8 * P.length < rows.toNat * cols.toNat then .protocolViolation else .noError
        outq := (upMid q rows cols P).outq ++
          [.done (if 8 * P.length < rows.toNat * cols.toNat then .protocolViolation else .noError) (upMid q rows cols P).nOut] } := by
  have hrun : (upMid q rows cols P).mode = .run := rfl
  rw [upAccept, accept_run_close hrun, upEndAct, upMid_total, upMid_nOut q P h]
  by_cases hlt : 8 * P.length < rows.toNat * cols.toNat
  · rw [if_pos (by omega)]
    simp only [if_pos hlt]
    rfl
  · rw [if_neg (by omega)]
    simp only [if_neg hlt]
    rfl

/-- R136: the unit after a frame of legal shape, whatever its length: the wanted bytes count, and an excess or
a lack of bytes is a ProtocolViolation. -/
theorem upRun_frame (u : UpUnit) (hu : u.mode = .idle) (h1 : 1 ≤ rows.toNat) (h2 : 1 ≤ cols.toNat)
    (h : rows.toNat * cols.toNat ≤ c.cap) :
    upRun c (upFrame rows cols P) u =
      let W := P.take (ceil8 (rows.toNat * cols.toNat))
      let e : ErrCode := if P.length = ceil8 (rows.toNat * cols.toNat) then .noError else .protocolViolation
      { upMid u.outq rows cols W with
        mode := .idle, err := e, outq := (upMid u.outq rows cols W).outq ++ [.done e (upMid u.outq rows cols W).nOut] } := by
  have hfr : upFrame rows cols P = [.start (rows, cols)] ++ (P.map .data ++ [.close]) := by simp [upFrame]
  have hs : upRun c [.start (rows, cols)] u = upMid u.outq rows cols [] := upAccept_start u hu h1 h2 h
  rw [hfr, upRun_append, hs, upRun_append]
  have hT : 1 ≤ rows.toNat * cols.toNat := Nat.mul_pos h1 h2
  have hc8 : ceil8 (rows.toNat * cols.toNat) = (rows.toNat * cols.toNat + 7) / 8 := rfl
  by_cases hle : P.length ≤ ceil8 (rows.toNat * cols.toNat)
  · have hW : P.take (ceil8 (rows.toNat * cols.toNat)) = P := List.take_of_length_le hle
    rw [upRun_bytes u.outq P h2 h (by omega), hW]
    have : (P.length = ceil8 (rows.toNat * cols.toNat)) ↔ ¬ 8 * P.length < rows.toNat * cols.toNat := by omega
    show upAccept c .close (upMid u.outq rows cols P) = _
    rw [upAccept_mid_close u.outq P h]
    by_cases hlt : 8 * P.length < rows.toNat * cols.toNat
    · simp only [if_pos hlt, if_neg (show ¬ P.length = ceil8 (rows.toNat * cols.toNat) by omega)]
    · simp only [if_neg hlt, if_pos (this.mpr hlt)]
  · generalize hWdef : P.take (ceil8 (rows.toNat * cols.toNat)) = W
    have hWl : W.length = ceil8 (rows.toNat * cols.toNat) := by rw [← hWdef]; simp; omega
    obtain ⟨x, X, hX⟩ : ∃ x X, P = W ++ x :: X := by
      have hd : P.drop (ceil8 (rows.toNat * cols.toNat)) ≠ [] := by
        intro hnil; have := congrArg List.length hnil; simp at this; omega
      obtain ⟨x, X, hx⟩ := List.exists_cons_of_ne_nil hd
      exact ⟨x, X, by rw [← hWdef, ← hx, List.take_append_drop]⟩
    have hPm : P.map Op.data = W.map Op.data ++ ([(Op.data x : UpOp)] ++ X.map Op.data) := by rw [hX]; simp
    rw [hPm, upRun_append, upRun_bytes u.outq W h2 h (by omega), upRun_append]
    have hrun : (upMid u.outq rows cols W).mode = .run := rfl
    have hx : upRun c [.data x] (upMid u.outq rows cols W) = (upMid u.outq rows cols W).raise .protocolViolation := by
      show upAccept c (.data x) (upMid u.outq rows cols W) = _
      rw [upAccept, accept_run_data hrun, upDataAct_excess]
      · rfl
      · rw [upMid_nOut (c := c) u.outq W h, upMid_total]; omega
    rw [hx, upRun_err_data _ (by simp)]
    show upAccept c .close ((upMid u.outq rows cols W).raise .protocolViolation) = _
    rw [upAccept, accept_err_close (by simp), UnitState.raise_of_ne (by simp [hrun])]
    simp only [if_neg (show ¬ P.length = ceil8 (rows.toNat * cols.toNat) by omega)]
    rfl

end

end Sys2Proof.Machine
end

