-- ==== Sys2Proof/Laws/Frames.lean ====
section
/-! SUPPORT. The frame functions (45_core_pipeline.md R190 to R193) from any run, and the closed form of an encoding. -/

namespace Sys2Proof.Machine

open Sys2Proof

/-- R154: a run of at most 255 is one entry. -/
theorem splitRun_small {L : Nat} (h1 : 1 ≤ L) (h : L ≤ 255) : splitRun L = [BitVec.ofNat 8 L] := by
  have : (L - 1) / 255 = 0 := by omega
  simp [splitRun, this]

/-- R154: 255 bits more are one pair more. -/
theorem splitRun_add {L : Nat} (h1 : 1 ≤ L) : splitRun (255 + L) = [runMax, 0] ++ splitRun L := by
  have h : (255 + L - 1) / 255 = (L - 1) / 255 + 1 := by omega
  have h2 : 255 + L - 255 * ((L - 1) / 255 + 1) = L - 255 * ((L - 1) / 255) := by omega
  unfold splitRun
  rw [h, h2, List.replicate_succ, List.flatten_cons, List.append_assoc]

/-- The entries of runs, one after another (R157). -/
def runEntries (rs : List (Bit × Nat)) : List Byte := (rs.map fun r => splitRun r.2).flatten

theorem runsOf_pos {B : List Bit} {r : Bit × Nat} (h : r ∈ runsOf B) : 1 ≤ r.2 := by
  induction B generalizing r with
  | nil => simp [runsOf] at h
  | cons b B ih =>
    simp only [runsOf] at h
    split at h
    · simp at h; subst h; exact Nat.le_refl 1
    · rename_i v n more heq
      split at h
      · rcases List.mem_cons.mp h with h | h
        · subst h; simp
        · exact ih (by rw [heq]; exact List.mem_cons_of_mem _ h)
      · rcases List.mem_cons.mp h with h | h
        · subst h; exact Nat.le_refl 1
        · exact ih (by rw [heq]; exact h)

/-- R157, from inside a run: `c` bits of value `v` counted, the bits `B` to come. -/
theorem encFrom_runs (B : List Bit) (v : Bit) (c : Byte) (hc : c.toNat ≠ 0) :
    encFrom v c B =
      match runsOf B with
      | [] => [c]
      | (w, n) :: more =>
        if w = v then splitRun (c.toNat + n) ++ runEntries more else c :: splitRun n ++ runEntries more := by
  have h1 : splitRun 1 = [1] := rfl
  have hone : ((1 : Byte)).toNat = 1 := rfl
  induction B generalizing v c with
  | nil =>
    have : c ≠ 0 := mt byte_eq_zero_iff.mp hc
    simp only [encFrom, if_pos this, runsOf]
  | cons b B ih =>
    have hpos := fun r (hr : r ∈ runsOf B) => runsOf_pos hr
    have ih1 := fun v => ih v 1 (by decide)
    have hs : c ≠ runMax → splitRun (c.toNat + 1) = [c + 1] := fun hmax => by
      have hs := byte_add_one hmax
      rw [← hs, splitRun_small (by omega) (by have := (c + 1).isLt; omega)]
      simp only [BitVec.ofNat_toNat, BitVec.setWidth_eq]
    by_cases hb : b = v
    · subst hb
      by_cases hmax : c = runMax
      · have h255 : c.toNat = 255 := by rw [hmax]; rfl
        rw [encFrom, if_pos rfl, if_pos hmax, ih1, h255]
        rcases heq : runsOf B with _ | ⟨⟨w, n⟩, more⟩
        · simp [runsOf, heq, splitRun_add (Nat.le_refl 1), h1, runEntries]
        · have hn : 1 ≤ n := hpos (w, n) (by simp [heq])
          by_cases hw : b = w
          · subst hw
            simp [runsOf, heq, Nat.add_comm n 1, splitRun_add (show 1 ≤ 1 + n by omega)]
          · simp [runsOf, heq, hw, Ne.symm hw, splitRun_add (Nat.le_refl 1), h1, runEntries]
      · rw [encFrom, if_pos rfl, if_neg hmax, ih b (c + 1) (by have := byte_add_one hmax; omega), byte_add_one hmax]
        rcases heq : runsOf B with _ | ⟨⟨w, n⟩, more⟩
        · simp only [runsOf, heq, if_true, hs hmax, runEntries, List.map_nil, List.flatten_nil, List.append_nil]
        · by_cases hw : b = w
          · subst hw
            simp only [runsOf, heq, if_true, Nat.add_assoc, Nat.add_comm 1 n]
          · simp only [runsOf, heq, if_neg hw, if_neg (Ne.symm hw), if_true, hs hmax]
            rfl
    · rw [encFrom, if_neg hb, ih1]
      rcases heq : runsOf B with _ | ⟨⟨w, n⟩, more⟩
      · simp [runsOf, heq, hb, h1, runEntries]
      · by_cases hw : b = w
        · subst hw
          simp [runsOf, heq, hb, Nat.add_comm n 1]
        · simp [runsOf, heq, hw, Ne.symm hw, hb, h1, runEntries]

/-- R196, from inside a run. -/
theorem decFrom_encFrom (B : List Bit) (v : Bit) (c : Byte) :
    decFrom v (encFrom v c B) = List.replicate c.toNat v ++ B := by
  induction B generalizing v c with
  | nil =>
    by_cases h : c = 0
    · subst h; rfl
    · rw [encFrom, if_pos h]
      simp [decFrom]
  | cons b B ih =>
    unfold encFrom
    by_cases hb : b = v
    · subst hb
      by_cases hmax : c = runMax
      · have h255 : c.toNat = 255 := by rw [hmax]; rfl
        rw [if_pos rfl, if_pos hmax, h255]
        show List.replicate 255 b ++ (List.replicate 0 (!b) ++ decFrom (!!b) (encFrom b 1 B)) = _
        rw [Bool.not_not, ih]
        rfl
      · rw [if_pos rfl, if_neg hmax, ih, byte_add_one hmax, List.replicate_succ']
        simp
    · have hv : (!v) = b := by cases b <;> cases v <;> simp_all
      rw [if_neg hb]
      simp [decFrom, hv, ih]

/-- R197, from inside a run. -/
theorem entrySum_encFrom (B : List Bit) (v : Bit) (c : Byte) : entrySum (encFrom v c B) = c.toNat + B.length := by
  rw [← decFrom_length v, decFrom_encFrom]
  simp

/-- R190, R191: the bits of a packed raster. -/
theorem pack_getD {R : List Bit} {i : Nat} (hi : i < R.length) :
    ((pack R).getD (i / 8) 0).getLsbD (i % 8) = R.getD i false := by
  have hj : i / 8 < ceil8 R.length := by unfold ceil8; omega
  have hp : (pack R).getD (i / 8) 0 = packByte R (i / 8) := by
    simp [pack, List.getD_eq_getElem?_getD, List.getElem?_map, List.getElem?_range hj]
  rw [hp, packByte_bit R (i / 8) (k := i % 8) (by omega)]
  have : 8 * (i / 8) + i % 8 = i := by omega
  rw [this]

end Sys2Proof.Machine
end

