-- ==== Sys2Proof/Laws/Invariant.lean ====
section
/-! SUPPORT. Each unit keeps its invariant (10_state.md R31) over every op it accepts. -/

namespace Sys2Proof.Machine

open Sys2Proof

/-- R211: a `raise` keeps the control invariant. -/
theorem ctrlInv_raise {D α : Type} {c : Config} {u : UnitState D α} (h : u.CtrlInv c) {e : ErrCode} (he : e ≠ .noError) (hi : e ≠ .invalidBitIndex) :
    (u.raise e).CtrlInv c := by
  by_cases hm : u.mode = .err
  · rwa [UnitState.raise_of_err hm]
  · rw [UnitState.raise_of_ne hm]; obtain ⟨a,b,_⟩ := h
    exact ⟨a,b,hi, fun _ => he, by simp⟩

theorem ctrlInv_clearCounts {D α : Type} {c : Config} {u : UnitState D α} (h : u.CtrlInv c) : u.clearCounts.CtrlInv c := ⟨Nat.zero_le _, Nat.zero_le _, h.2.2.1, h.2.2.2.1, h.2.2.2.2⟩

/-- R93: the dispatch keeps the control invariant and, in mode RUN, the unit's own, if its three actions do. -/
theorem accept_keeps {D α A P : Type} {S : A → UnitState D α → Act (UnitState D α)}
  {T : P → UnitState D α → Act (UnitState D α)} {E : UnitState D α → Act (UnitState D α)} {c : Config} {R : UnitState D α → Prop}
  (hS : ∀ a u, u.mode = .run → u.err = .noError → u.nIn = 0 → u.nOut = 0 →
    (S a u).state.CtrlInv c ∧ ((S a u).state.mode = .run → R (S a u).state))
  (hT : ∀ p u, u.CtrlInv c → u.mode = .run → R u →
    (T p u).state.CtrlInv c ∧ ((T p u).state.mode = .run → R (T p u).state))
  (hE : ∀ u, u.CtrlInv c → u.mode = .run → R u →
    (E u).state.nIn.toNat ≤ c.cap ∧ (E u).state.nOut.toNat ≤ c.cap ∧ (E u).state.err ≠ .invalidBitIndex)
  (op : Op A P) (u : UnitState D α) (h : u.CtrlInv c ∧ (u.mode = .run → R u)) :
  (accept S T E op u).CtrlInv c ∧ ((accept S T E op u).mode = .run → R (accept S T E op u)) := by
  obtain ⟨hc, hr⟩ := h
  match hm : u.mode with
  | .idle =>
    cases op with
    | start a => rw [accept_idle_start hm]; exact hS a _ rfl rfl rfl rfl
    | data p => rw [accept_idle_data hm]; exact ⟨ctrlInv_raise (ctrlInv_clearCounts hc) (by simp) (by simp), by simp⟩
    | close => rw [accept_idle_close hm]; exact ⟨⟨Nat.zero_le _, Nat.zero_le _, by simp, by simp [hm], by simp [hm]⟩, by simp [hm]⟩
    | rsvd => rw [accept_idle_rsvd hm]; exact ⟨ctrlInv_raise (ctrlInv_clearCounts hc) (by simp) (by simp), by simp⟩
  | .run =>
    cases op with
    | start a => rw [accept_run_start hm]; exact ⟨ctrlInv_raise hc (by simp) (by simp), by simp⟩
    | data p => rw [accept_run_data hm]; exact hT p u hc hm (hr hm)
    | close =>
      rw [accept_run_close hm]; obtain ⟨a,b,d⟩ := hE u hc hm (hr hm)
      exact ⟨⟨a,b,d, by simp, by simp⟩, by simp⟩
    | rsvd => rw [accept_run_rsvd hm]; exact ⟨ctrlInv_raise hc (by simp) (by simp), by simp⟩
  | .err =>
    by_cases ho : op = .close
    · subst ho; rw [accept_err_close hm]
      exact ⟨⟨hc.1,hc.2.1,hc.2.2.1, by simp, by simp⟩, by simp⟩
    · rw [accept_err_of_ne_close hm ho]; exact ⟨hc, hr⟩

/-- A counter below its width's end counts on. -/
theorem count_succ {n : Nat} {x : BitVec 16} (h : x.toNat = n) (hl : n < 65535) : (x + 1).toNat = n + 1 := by
  simp [BitVec.toNat_add]; omega

/-- R31 for the packer. -/
theorem pkInv_accept (c : Config) (op : PkOp) (u : PkUnit) (h : PkInv c u) : PkInv c (pkAccept c op u) := by
  have hcap := c.cap_le
  refine accept_keeps (S := pkStartAct) (T := pkDataAct c) (E := pkEndAct) (c := c) (R := fun u : PkUnit => u.dp.bitpos.toNat = u.nIn.toNat % 8 ∧ u.nOut.toNat = u.nIn.toNat / 8 ∧
    ∀ k, u.dp.bitpos.toNat ≤ k → u.dp.acc.getLsbD k = false) ?_ ?_ ?_ op u h
  · intro a u hm he hi ho
    simp [pkStartAct, UnitState.CtrlInv, hm, he, hi, ho]
  · intro e u hc hm hr
    obtain ⟨c1,c2,c3,c4,c5⟩ := hc
    obtain ⟨r1,r2,r3⟩ := hr
    by_cases hf : u.nIn.toNat = c.cap
    · rw [pkDataAct_full hf]; exact ⟨ctrlInv_raise ⟨c1,c2,c3,c4,c5⟩ (by simp) (by simp), by simp [UnitState.fail]⟩
    · by_cases hl : e.toNat ≤ 1
      · obtain ⟨a, hb, ha⟩ := pkDataAct_legal hf hl
        rw [ha]
        have hin := count_succ (x := u.nIn) rfl (by omega)
        have hon := count_succ (x := u.nOut) rfl (by omega)
        split
        · rename_i h7
          refine ⟨⟨?_, ?_, c3, by simp [hm], by simp [hm, c5]⟩, fun _ => ⟨?_, ?_, by simp⟩⟩
          · simp only [Act.state_ok]; omega
          · simp only [Act.state_ok, UnitState.emitData_nOut]; omega
          · simp only [Act.state_ok]; rw [hin]; simp; omega
          · simp only [Act.state_ok, UnitState.emitData_nOut]; omega
        · rename_i h7
          have hbp : (u.dp.bitpos + 1).toNat = u.dp.bitpos.toNat + 1 := by have := u.dp.bitpos.isLt; simp [BitVec.toNat_add]; omega
          refine ⟨⟨?_, c2, c3, by simp [hm], by simp [hm, c5]⟩, fun _ => ⟨?_, ?_, ?_⟩⟩
          · simp only [Act.state_ok]; omega
          · simp only [Act.state_ok]; rw [hbp, hin]; omega
          · simp only [Act.state_ok]; rw [hin]; omega
          · simp only [Act.state_ok]; rw [hbp]; intro k hk
            by_cases hk8 : k < 8
            · rw [hb k hk8, if_neg (by omega)]; exact r3 k (by omega)
            · exact BitVec.getLsbD_of_ge _ _ (by omega)
      · rw [pkDataAct, if_neg hf, if_pos]
        · exact ⟨ctrlInv_raise ⟨c1,c2,c3,c4,c5⟩ (by simp) (by simp), by simp [UnitState.fail]⟩
        · constructor <;> rintro rfl <;> simp at hl
  · intro u hc hm hr
    obtain ⟨c1,c2,c3,c4,c5⟩ := hc
    obtain ⟨r1,r2,r3⟩ := hr
    unfold pkEndAct
    have hon := count_succ (x := u.nOut) rfl (by omega)
    have := c.cap_pos
    split
    · rename_i h0
      have : u.dp.bitpos.toNat ≠ 0 := fun h => h0 (BitVec.eq_of_toNat_eq h)
      simp only [Act.state_ok, UnitState.emitData_nOut, UnitState.emitData_nIn, UnitState.emitData_err, hon]
      exact ⟨c1, by omega, c3⟩
    · exact ⟨c1,c2,c3⟩

/-- R31 for the unpacker. -/
theorem upInv_accept (c : Config) (op : UpOp) (u : UpUnit) (h : UpInv c u) : UpInv c (upAccept c op u) := by
  have hcap := c.cap_le
  refine accept_keeps (S := upStartAct c) (T := upDataAct) (E := upEndAct) (c := c) (R := fun u : UpUnit => u.dp.Inv c u.nOut.toNat ∧ u.nOut.toNat = min (8 * u.nIn.toNat) u.dp.total.toNat) ?_ ?_ ?_ op u h
  · intro a u hm he hi ho
    unfold upStartAct
    have hu : ({ u with dp := ShapeRegs.ofShape a.1 a.2 } : UpUnit).CtrlInv c := by simp [UnitState.CtrlInv, hm, he, hi, ho]
    by_cases h0 : a.1.toNat = 0 ∨ a.2.toNat = 0
    · rw [checkShape_zero h0]; exact ⟨ctrlInv_raise hu (by simp) (by simp), by simp [UnitState.fail]⟩
    · by_cases hb : c.cap < a.1.toNat * a.2.toNat
      · rw [checkShape_big (by omega) (by omega) hb]; exact ⟨ctrlInv_raise hu (by simp) (by simp), by simp [UnitState.fail]⟩
      · rw [checkShape_ok (by omega) (by omega) (by omega)]
        refine ⟨hu, fun _ => ⟨⟨?_,?_,?_,?_,?_,?_⟩,?_⟩⟩ <;> simp only [Act.state_ok, ShapeRegs.ofShape, shape_total_exact, hi, ho] <;> (try simp) <;> omega
  · intro b u hc hm hr
    obtain ⟨c1,c2,c3,c4,c5⟩ := hc
    obtain ⟨⟨r1,r2,r3,r4,r5,r6⟩,r7⟩ := hr
    by_cases hx : u.nOut.toNat = u.dp.total.toNat
    · rw [upDataAct_excess hx]; exact ⟨ctrlInv_raise ⟨c1,c2,c3,c4,c5⟩ (by simp) (by simp), by simp [UnitState.fail]⟩
    · have hcol : u.dp.col.toNat < u.dp.cols.toNat := by rw [r6]; exact Nat.mod_lt _ (by omega)
      have hin := count_succ (x := u.nIn) rfl (by omega)
      rw [upDataAct_emits hcol (by omega) (by omega)]
      generalize hk : min 8 (u.dp.total.toNat - u.nOut.toNat) = k
      have hO : (u.nOut + BitVec.ofNat 16 k).toNat = u.nOut.toNat + k := by simp [BitVec.toNat_add]; omega
      refine ⟨⟨?_, ?_, c3, by simp [hm, upAfter], by simp [hm, c5, upAfter]⟩, fun _ => ⟨⟨r1,r2,r3,r4,?_,?_⟩,?_⟩⟩
      · simp only [Act.state_ok]; omega
      · simp only [Act.state_ok, upAfter, List.length_map, List.length_range]; omega
      · simp only [Act.state_ok, upAfter, List.length_map, List.length_range, ShapeRegs.after_total]; omega
      · simp only [Act.state_ok, upAfter, List.length_map, List.length_range, ShapeRegs.after_cols, ShapeRegs.after_col hcol]; rw [hO, r6]; simp
      · simp only [Act.state_ok, upAfter, List.length_map, List.length_range, ShapeRegs.after_total]; omega
  · intro u hc hm hr
    obtain ⟨c1,c2,c3,c4,c5⟩ := hc
    unfold upEndAct
    split
    · refine ⟨by simpa [UnitState.fail] using c1, by simpa [UnitState.fail] using c2, ?_⟩
      simp [UnitState.fail, UnitState.raise, hm]
    · exact ⟨c1,c2,c3⟩

/-- R31 for the encoder. -/
theorem enInv_accept (c : Config) (op : EnOp) (u : EnUnit) (h : EnInv c u) : EnInv c (enAccept c op u) := by
  have hcap := c.cap_le
  have emit : ∀ v (u : EnUnit), u.CtrlInv c → (emitEntry c v u).state.CtrlInv c ∧ ((emitEntry c v u) = .raised (u.raise .capacityExceeded) ∨ (emitEntry c v u = .ok (u.emitData v))) := by
    intro v u hu
    by_cases hf : u.nOut.toNat = c.cap
    · rw [emitEntry_full hf]; exact ⟨ctrlInv_raise hu (by simp) (by simp), .inl rfl⟩
    · rw [emitEntry_ok hf]; obtain ⟨c1,c2,c3,c4,c5⟩ := hu
      refine ⟨⟨c1, ?_, c3,c4,c5⟩, .inr rfl⟩
      have hin := count_succ (x := u.nOut) rfl (by omega)
      simp only [Act.state_ok, UnitState.emitData_nOut]; omega
  refine accept_keeps (S := enStartAct) (T := enDataAct c) (E := enEndAct c) (c := c) (R := fun u : EnUnit => (u.dp.curCnt = 0 ↔ u.nIn = 0)) ?_ ?_ ?_ op u h
  · intro a u hm he hi ho
    simp [enStartAct, UnitState.CtrlInv, hm, he, hi, ho]
  · intro b u hc hm hr
    by_cases hf : u.nIn.toNat = c.cap
    · rw [enDataAct, if_pos hf]; exact ⟨ctrlInv_raise hc (by simp) (by simp), by simp [UnitState.fail]⟩
    rw [enDataAct, if_neg hf]
    have hin := count_succ (x := u.nIn) rfl (by have := hc.1; omega)
    have hn0 : ¬ (u.nIn + 1 = 0) := by intro h; rw [h] at hin; simp at hin
    have fin : ∀ (v : EnUnit), v.CtrlInv c → v.nIn = u.nIn → v.dp.curCnt ≠ 0 → (Act.ok { v with nIn := v.nIn + 1 } : Act EnUnit).state.CtrlInv c ∧ ((Act.ok { v with nIn := v.nIn + 1 } : Act EnUnit).state.mode = .run → (({ v with nIn := v.nIn + 1 } : EnUnit).dp.curCnt = 0 ↔ ({ v with nIn := v.nIn + 1 } : EnUnit).nIn = 0)) := by
      intro v hv hvn hvc
      refine ⟨⟨?_, hv.2⟩, fun _ => ?_⟩
      · simp only [Act.state_ok, hvn]; have := hc.1; omega
      · simp only [hvn]; exact iff_of_false hvc hn0
    unfold enCountBit
    split
    · split
      · obtain ⟨h1, h2 | h2⟩ := emit runMax u hc
        · rw [h2]; exact ⟨ctrlInv_raise hc (by simp) (by simp), by simp⟩
        · rw [h2] at h1 ⊢
          obtain ⟨h3, h4 | h4⟩ := emit 0 (u.emitData runMax) h1
          · rw [Act.ok_andThen, h4]; exact ⟨ctrlInv_raise h1 (by simp) (by simp), by simp⟩
          · rw [Act.ok_andThen, h4] ; rw [h4] at h3
            exact fin _ h3 rfl (by simp)
      · rename_i hne
        have := byte_add_one hne
        exact fin { u with dp := _ } hc rfl (by rw [Ne, byte_eq_zero_iff, this]; omega)
    · obtain ⟨h1, h2 | h2⟩ := emit u.dp.curCnt u hc
      · rw [h2]; exact ⟨ctrlInv_raise hc (by simp) (by simp), by simp⟩
      · rw [h2] at h1 ⊢
        exact fin { u.emitData u.dp.curCnt with dp := _ } h1 rfl (by simp)
  · intro u hc hm hr
    unfold enEndAct
    split
    · obtain ⟨h1, h2 | h2⟩ := emit u.dp.curCnt u hc
      · rw [h2] at h1 ⊢; exact ⟨h1.1,h1.2.1,h1.2.2.1⟩
      · rw [h2] at h1 ⊢; exact ⟨h1.1,h1.2.1,h1.2.2.1⟩
    · exact ⟨hc.1,hc.2.1,hc.2.2.1⟩

/-- R31 for the decoder. -/
theorem deInv_accept (c : Config) (op : DeOp) (u : DeUnit) (h : DeInv c u) : DeInv c (deAccept c op u) := by
  have hcap := c.cap_le
  refine accept_keeps (S := deStartAct c) (T := deDataAct c) (E := deEndAct) (c := c) (R := fun u : DeUnit => u.dp.shape.Inv c u.nOut.toNat ∧ u.dp.curVal = xor initVal (decide (u.nIn.toNat % 2 = 1))) ?_ ?_ ?_ op u h
  · intro a u hm he hi ho
    unfold deStartAct
    have hu : ({ u with dp := ⟨ShapeRegs.ofShape a.1 a.2, initVal⟩ } : DeUnit).CtrlInv c := by simp [UnitState.CtrlInv, hm, he, hi, ho]
    by_cases h0 : a.1.toNat = 0 ∨ a.2.toNat = 0
    · rw [checkShape_zero h0]; exact ⟨ctrlInv_raise hu (by simp) (by simp), by simp [UnitState.fail]⟩
    · by_cases hb : c.cap < a.1.toNat * a.2.toNat
      · rw [checkShape_big (by omega) (by omega) hb]; exact ⟨ctrlInv_raise hu (by simp) (by simp), by simp [UnitState.fail]⟩
      · rw [checkShape_ok (by omega) (by omega) (by omega)]
        refine ⟨hu, fun _ => ⟨⟨?_,?_,?_,?_,?_,?_⟩,?_⟩⟩ <;> simp only [Act.state_ok, ShapeRegs.ofShape, shape_total_exact, hi, ho] <;> (try simp) <;> omega
  · intro b u hc hm hr
    have hc' := hc
    obtain ⟨c1,c2,c3,c4,c5⟩ := hc
    obtain ⟨⟨r1,r2,r3,r4,r5,r6⟩,r7⟩ := hr
    have flip : ∀ n, (xor initVal (decide ((n+1) % 2 = 1))) = !(xor initVal (decide (n % 2 = 1))) := impliedVal_succ
    by_cases hf : u.nIn.toNat = c.cap
    · rw [deDataAct_full hf]; exact ⟨ctrlInv_raise hc' (by simp) (by simp), by simp [UnitState.fail]⟩
    have hin := count_succ (x := u.nIn) rfl (by omega)
    by_cases h0 : b = 0
    · subst h0; rw [deDataAct_zero hf]
      refine ⟨⟨?_, c2,c3,c4,c5⟩, fun _ => ⟨⟨r1,r2,r3,r4,r5,r6⟩,?_⟩⟩
      · simp only [Act.state_ok]; omega
      · show (!u.dp.curVal) = impliedVal (u.nIn+1).toNat; rw [hin, impliedVal_succ, r7]; rfl
    by_cases hx : u.dp.shape.total.toNat < u.nOut.toNat + b.toNat
    · rw [deDataAct_overrun hf h0 hx]; exact ⟨ctrlInv_raise hc' (by simp) (by simp), by simp [UnitState.fail]⟩
    have hcol : u.dp.shape.col.toNat < u.dp.shape.cols.toNat := by rw [r6]; exact Nat.mod_lt _ (by omega)
    rw [deDataAct_emits hf h0 (by omega) hcol]
    have hO : (u.nOut + BitVec.ofNat 16 b.toNat).toNat = u.nOut.toNat + b.toNat := by have := b.isLt; simp only [BitVec.toNat_add, BitVec.toNat_ofNat]; omega
    refine ⟨⟨?_, ?_, c3, c4, c5⟩, fun _ => ⟨⟨r1,r2,r3,r4,?_,?_⟩,?_⟩⟩
    · simp only [Act.state_ok]; omega
    · simp only [Act.state_ok, deFlip, deAfter]; omega
    · simp only [Act.state_ok, deFlip, deAfter, ShapeRegs.after_total]; omega
    · simp only [Act.state_ok, deFlip, deAfter, ShapeRegs.after_cols, ShapeRegs.after_col hcol]; rw [hO, r6]; simp
    · show (!u.dp.curVal) = impliedVal (u.nIn+1).toNat; rw [hin, impliedVal_succ, r7]; rfl
  · intro u hc hm hr
    obtain ⟨c1,c2,c3,c4,c5⟩ := hc
    unfold deEndAct
    split
    · refine ⟨by simpa [UnitState.fail] using c1, by simpa [UnitState.fail] using c2, ?_⟩
      simp [UnitState.fail, UnitState.raise, hm]
    · exact ⟨c1,c2,c3⟩

end Sys2Proof.Machine
end

