-- ==== Sys2Proof/Laws/Observed.lean ====
section
/-! SUPPORT. What the logs say, one observation at a time, and that an idle unit has just emitted the DONE its status shows (70_reset_and_hazards.md R243, R249). -/

namespace Sys2Proof.Machine

open Sys2Proof

variable {α : Type} (log : List (Obs α))

@[simp] theorem heldOf_nil : heldOf ([] : List (Obs α)) = ⟨[], []⟩ := rfl
@[simp] theorem heldOf_accepted (i : Instr) : heldOf (.accepted i :: log) = heldOf log := rfl
@[simp] theorem heldOf_data (v : α) :
    heldOf (.delivered (.data v) :: log) = ⟨(heldOf log).committed, (heldOf log).provisional ++ [v]⟩ := rfl
@[simp] theorem heldOf_done_clean (c : Count) :
    heldOf (.delivered (.done .noError c) :: log) = ⟨(heldOf log).committed ++ [(heldOf log).provisional], []⟩ := rfl
theorem heldOf_done_rejected {e : ErrCode} (h : e ≠ .noError) (c : Count) :
    heldOf (.delivered (.done e c) :: log) = ⟨(heldOf log).committed, []⟩ := by
  show Held.mk (if e = .noError then _ else _) _ = _
  rw [if_neg h]
  rfl
@[simp] theorem heldOf_reset : heldOf (.reset :: log) = ⟨(heldOf log).committed, []⟩ := rfl

@[simp] theorem opsSinceReset_accepted (i : Instr) : opsSinceReset (.accepted i :: log) = opsSinceReset log ++ [i] := rfl
@[simp] theorem opsSinceReset_delivered (b : Beat α) : opsSinceReset (.delivered b :: log) = opsSinceReset log := rfl
@[simp] theorem opsSinceReset_reset : opsSinceReset (.reset :: log) = [] := rfl
@[simp] theorem beatsSinceReset_accepted (i : Instr) : beatsSinceReset (.accepted i :: log) = beatsSinceReset log := rfl
@[simp] theorem beatsSinceReset_delivered (b : Beat α) : beatsSinceReset (.delivered b :: log) = beatsSinceReset log ++ [b] := rfl
@[simp] theorem beatsSinceReset_reset : beatsSinceReset (.reset :: log) = [] := rfl

/-- R249: an op that leaves a unit in IDLE was an END, and the last beat emitted is the DONE that `err` and `n_out`
show, if no START or DATA action leaves mode RUN for IDLE. -/
theorem accept_idle_shows_done {D A P : Type} {S : A → UnitState D α → Act (UnitState D α)}
    {T : P → UnitState D α → Act (UnitState D α)} {E : UnitState D α → Act (UnitState D α)}
    (hS : ∀ a u, u.mode = .run → (S a u).state.mode ≠ .idle) (hT : ∀ p u, u.mode = .run → (T p u).state.mode ≠ .idle)
    (op : Op A P) (u : UnitState D α) (h : (accept S T E op u).mode = .idle) :
    (accept S T E op u).outq.getLast? = some (.done (accept S T E op u).err (accept S T E op u).nOut) := by
  match hm : u.mode with
  | .idle =>
    cases op <;> simp [accept, hm] at h ⊢
    exact absurd h (hS _ _ rfl)
  | .run =>
    cases op <;> simp [accept, hm] at h ⊢
    exact absurd h (hT _ _ hm)
  | .err => cases op <;> simp [accept, hm] at h ⊢

end Sys2Proof.Machine
end

