-- ==== Sys2Proof/Laws/PerInstr.lean ====
section
/-! SUPPORT. Facts about every op as syntax, one lemma per constructor. -/

namespace Sys2Proof.Laws

open Sys2Proof

/-- R88, R91: the canonical word of the op fits its unit's channel, and the op is well formed in its raw form. -/
def EncodeFits.Statement (i : Instr) : Prop := encode i < 2 ^ i.unit.wordWidth ∧ i.toRaw.wellFormed = true

theorem EncodeFits.pkStart : EncodeFits.Statement .pkStart := by unfold EncodeFits.Statement; decide
theorem EncodeFits.pkData (elem : Byte) : EncodeFits.Statement (.pkData elem) := by
  have h := elem.isLt
  refine ⟨?_, ?_⟩
  · show 0x100 + elem.toNat < 2 ^ 10
    omega
  · show (decide (elem.toNat < 2 ^ 8) && true) = true
    rw [decide_eq_true h]; rfl
theorem EncodeFits.pkEnd : EncodeFits.Statement .pkEnd := by unfold EncodeFits.Statement; decide
theorem EncodeFits.pkRsvd : EncodeFits.Statement .pkRsvd := by unfold EncodeFits.Statement; decide
theorem EncodeFits.upStart (rows cols : Dim) : EncodeFits.Statement (.upStart rows cols) := by
  have h1 := rows.isLt
  have h2 := cols.isLt
  refine ⟨?_, ?_⟩
  · show rows.toNat * 2 ^ 16 + cols.toNat < 2 ^ 34
    omega
  · show (decide (rows.toNat < 2 ^ 16) && (decide (cols.toNat < 2 ^ 16) && true)) = true
    rw [decide_eq_true h1, decide_eq_true h2]; rfl
theorem EncodeFits.upData (byte : Byte) : EncodeFits.Statement (.upData byte) := by
  have h := byte.isLt
  refine ⟨?_, ?_⟩
  · show 0x100000000 + byte.toNat < 2 ^ 34
    omega
  · show (decide (byte.toNat < 2 ^ 8) && true) = true
    rw [decide_eq_true h]; rfl
theorem EncodeFits.upEnd : EncodeFits.Statement .upEnd := by unfold EncodeFits.Statement; decide
theorem EncodeFits.upRsvd : EncodeFits.Statement .upRsvd := by unfold EncodeFits.Statement; decide
theorem EncodeFits.enStart : EncodeFits.Statement .enStart := by unfold EncodeFits.Statement; decide
theorem EncodeFits.enData (bit : Bit) : EncodeFits.Statement (.enData bit) := by
  unfold EncodeFits.Statement; revert bit; decide
theorem EncodeFits.enEnd : EncodeFits.Statement .enEnd := by unfold EncodeFits.Statement; decide
theorem EncodeFits.enRsvd : EncodeFits.Statement .enRsvd := by unfold EncodeFits.Statement; decide
theorem EncodeFits.deStart (rows cols : Dim) : EncodeFits.Statement (.deStart rows cols) := by
  have h1 := rows.isLt
  have h2 := cols.isLt
  refine ⟨?_, ?_⟩
  · show rows.toNat * 2 ^ 16 + cols.toNat < 2 ^ 34
    omega
  · show (decide (rows.toNat < 2 ^ 16) && (decide (cols.toNat < 2 ^ 16) && true)) = true
    rw [decide_eq_true h1, decide_eq_true h2]; rfl
theorem EncodeFits.deData (entry : Byte) : EncodeFits.Statement (.deData entry) := by
  have h := entry.isLt
  refine ⟨?_, ?_⟩
  · show 0x100000000 + entry.toNat < 2 ^ 34
    omega
  · show (decide (entry.toNat < 2 ^ 8) && true) = true
    rw [decide_eq_true h]; rfl
theorem EncodeFits.deEnd : EncodeFits.Statement .deEnd := by unfold EncodeFits.Statement; decide
theorem EncodeFits.deRsvd : EncodeFits.Statement .deRsvd := by unfold EncodeFits.Statement; decide

end Sys2Proof.Laws
end

