-- ==== Sys2Proof/Tests/Slice0.lean ====
section
/-! SUPPORT. The model's own tests: words and results from 95_test_vectors.md, refusals of ill-formed ops, and for each statement with hypotheses a state that meets them. -/

namespace Sys2Proof.Tests

open Sys2Proof Sys2Proof.Machine

/-! ## Words, bit by bit from 30_encoding.md R81 to R84 -/

theorem test_word_pkStart : decodePk 0b0000000000 = .pkStart := by decide
theorem test_word_pkData : decodePk 0b0101111111 = .pkData 0x7F := by decide
theorem test_word_pkEnd : decodePk 0b1011111111 = .pkEnd := by decide
theorem test_word_pkRsvd : decodePk 0b1100000000 = .pkRsvd := by decide
theorem test_word_upStart : decodeUp 0b0000000000000000100000000000000110 = .upStart 2 6 := by decide
theorem test_word_upData : decodeUp 0b0110101011110011010001001011000111 = .upData 0xC7 := by decide
theorem test_word_upEnd : decodeUp 0b1000000000000000000000000000000000 = .upEnd := by decide
theorem test_word_upRsvd : decodeUp 0b1100000000000000000000000000000001 = .upRsvd := by decide
theorem test_word_enStart : decodeEn 0b001 = .enStart := by decide
theorem test_word_enData : decodeEn 0b011 = .enData true ∧ decodeEn 0b010 = .enData false := by decide
theorem test_word_enEnd : decodeEn 0b101 = .enEnd := by decide
theorem test_word_enRsvd : decodeEn 0b110 = .enRsvd := by decide
theorem test_word_deStart : decodeDe 0b0000000000000000110000000001100100 = .deStart 3 100 := by decide
theorem test_word_deData : decodeDe 0b0100000000000000000000000000101101 = .deData 45 := by decide
theorem test_word_deEnd : decodeDe 0b1000000000000000000000000000000000 = .deEnd := by decide
theorem test_word_deRsvd : decodeDe 0b1111111111111111111111111111111111 = .deRsvd := by decide

/-- R91: the canonical words. -/
theorem test_encode : [Instr.pkData 1, .pkEnd, .upStart 2 6, .upData 0xC7, .upEnd, .enData true, .enEnd, .deStart 3 100, .deRsvd].map encode
    = [0x101, 0x200, 0x000020006, 0x1000000C7, 0x200000000, 0b011, 0b100, 0x000030064, 0x300000000] := by decide

/-- A number no channel can carry is refused by name (log 6). -/
theorem test_too_wide : decodeWord .pk 0x400 = .error .wordTooWide ∧ decodeWord .en 8 = .error .wordTooWide ∧
    decodeWord .up (2 ^ 34) = .error .wordTooWide ∧ decodeTable 12 0 = .error .noSuchFormat := by decide

/-- The host's numbering: whole bytes, bit 34 naming the decoder's channel (log 6). -/
theorem test_table_word : decodeTableWord 16 0x101 = some (.pkData 1) ∧ decodeTableWord 40 0x1000000C7 = some (.upData 0xC7) ∧
    decodeTableWord 8 0b011 = some (.enData true) ∧ decodeTableWord 40 (2 ^ 34 + 0x10000002D) = some (.deData 45) := by decide

/-! ## Ill-formed ops, refused (R89) -/

theorem test_illformed_arity : RawOp.wellFormed ⟨⟨.pk, .start⟩, [0]⟩ = false ∧ RawOp.wellFormed ⟨⟨.up, .start⟩, [2]⟩ = false ∧
    RawOp.wellFormed ⟨⟨.de, .data⟩, []⟩ = false ∧ RawOp.wellFormed ⟨⟨.en, .close⟩, [1]⟩ = false := by decide
theorem test_illformed_width : RawOp.wellFormed ⟨⟨.pk, .data⟩, [256]⟩ = false ∧ RawOp.wellFormed ⟨⟨.up, .start⟩, [65536, 1]⟩ = false ∧
    RawOp.wellFormed ⟨⟨.up, .start⟩, [1, 65536]⟩ = false ∧ RawOp.wellFormed ⟨⟨.up, .data⟩, [256]⟩ = false ∧
    RawOp.wellFormed ⟨⟨.en, .data⟩, [2]⟩ = false ∧ RawOp.wellFormed ⟨⟨.de, .start⟩, [65536, 0]⟩ = false ∧
    RawOp.wellFormed ⟨⟨.de, .data⟩, [256]⟩ = false := by decide
theorem test_wellformed_edge : RawOp.wellFormed ⟨⟨.pk, .data⟩, [255]⟩ = true ∧ RawOp.wellFormed ⟨⟨.de, .start⟩, [65535, 65535]⟩ = true := by decide
theorem test_illegal_operands : Instr.legal Config.hw (.pkData 2) = false ∧ Instr.legal Config.hw (.upStart 0 5) = false ∧
    Instr.legal Config.hw (.upStart 71 71) = false ∧ Instr.legal Config.hw (.deStart 1 5001) = false ∧
    Instr.legal Config.hw (.upStart 50 100) = true := by decide

/-! ## The assembler (R89, R90) -/

theorem test_asm_frame : assemble "PK.START\nPK.BITS \"10\" ; two\n\nPK.DATA 0x1\nPK.END".toList =
    .ok [.pkStart, .pkData 1, .pkData 0, .pkData 1, .pkEnd] := by decide
theorem test_asm_rept : assemble "EN.START\n.rept 2\n.rept 2\nEN.DATA 1\n.endr\nEN.RSVD\n.endr".toList =
    .ok [.enStart, .enData true, .enData true, .enRsvd, .enData true, .enData true, .enRsvd] := by decide
theorem test_asm_lists : assemble "UP.START 2, 6\nUP.BYTES 0xC7, 0x01\nDE.ENTRIES 255, 0, 45".toList =
    .ok [.upStart 2 6, .upData 0xC7, .upData 1, .deData 255, .deData 0, .deData 45] := by decide
theorem test_asm_errors : assemble "PK.DATA 256".toList = .error .operandDoesNotFit ∧ assemble "PK.FOO".toList = .error .unknownMnemonic ∧
    assemble "EN.BITS \"012\"".toList = .error .badRasterString ∧ assemble ".endr".toList = .error .endrWithoutRept ∧
    assemble ".rept 3".toList = .error .unclosedRept ∧ assemble "UP.START 2 6".toList = .error .badOperands := by decide
/-- The model's choice where R89 and R90 are silent (log 21): what an empty repetition encloses is read, and not fitted. -/
theorem test_asm_rept_zero : assemble ".rept 0\nPK.DATA 256\n.endr".toList = .ok [] ∧
    assemble ".rept 0\nPK.FOO\n.endr".toList = .error .unknownMnemonic := by decide
theorem test_write_beats : writeByteBeat (.data 0xC7) = "D(199)" ∧ writeBitBeat (.data ⟨true, false⟩) = "D(1,0)" ∧
    writeByteBeat (.done .capacityExceeded 625) = "DONE(3,625)" := by decide

/-! ## Vectors of 95_test_vectors.md -/

theorem test_bitops : getBit 0xC7 2 = .ok true ∧ getBit 0xC7 3 = .ok false ∧ setBit 0x07 6 = .ok 0x47 ∧ clearBit 0xC7 6 = .ok 0x87 ∧
    setBit 0 8 = .error .invalidBitIndex ∧ clearBit 0xFF 255 = .error .invalidBitIndex := by decide

/-- V-PK-8, V-PK-17, V-PK-15. -/
theorem test_pk_byte : (pkRun Config.hw (pkFrame [0, 1, 0, 1, 0, 1, 0, 1, 0, 1]) resetPk).outq
    = [.data 0xAA, .data 0x02, .done .noError 2] := by decide
theorem test_pk_bad_element : pkRun Config.hw (pkFrame [1, 1, 1, 1, 1, 1, 1, 1, 1, 1, 2, 1, 1]) resetPk
    = ⟨.idle, .invalidBitValue, 10, 1, ⟨0x03, 2⟩, [.data 0xFF, .done .invalidBitValue 1]⟩ := by decide
theorem test_pk_no_mask : (pkRun Config.hw (pkFrame [255]) resetPk).outq = [.done .invalidBitValue 0] := by decide

/-- V-UP-1 and V-UP-2, V-UP-13, V-UP-14. -/
theorem test_up_example : (upRun Config.hw (upFrame 2 6 [0xC7, 0xF1]) resetUp).outq =
    ([⟨true, false⟩, ⟨true, false⟩, ⟨true, false⟩, ⟨false, false⟩, ⟨false, false⟩, ⟨false, true⟩,
      ⟨true, false⟩, ⟨true, false⟩, ⟨true, false⟩, ⟨false, false⟩, ⟨false, false⟩, ⟨false, true⟩] : List BitOut).map .data ++
      [.done .noError 12] := by decide
theorem test_up_counts : (upRun Config.hw (upFrame 2 6 [0xC7, 1, 0]) resetUp).outq.getLast? = some (.done .protocolViolation 12) ∧
    (upRun Config.hw (upFrame 2 6 [0xC7]) resetUp).outq.getLast? = some (.done .protocolViolation 8) := by decide

/-- V-UP-10, V-UP-12, V-DE-14. -/
theorem test_shapes : (upRun Config.hw (upFrame 0 5 [0xFF]) resetUp).outq = [.done .protocolViolation 0] ∧
    (upRun Config.hw (upFrame 65535 65535 []) resetUp).outq = [.done .capacityExceeded 0] ∧
    (deRun Config.hw (deFrame 71 71 []) resetDe).outq = [.done .capacityExceeded 0] := by decide

/-- V-EN-9, and the single steps V-EN-27, V-EN-29 to V-EN-31. -/
theorem test_en_runs : (enRun Config.hw (enFrame [false, false, true, true, false]) resetEn).outq
    = [.data 0, .data 2, .data 2, .data 1, .done .noError 4] := by decide
theorem test_en_split : enAccept Config.hw (.data true) ⟨.run, .noError, 255, 0, ⟨true, 255⟩, []⟩
    = ⟨.run, .noError, 256, 2, ⟨true, 1⟩, [.data 255, .data 0]⟩ := by decide
theorem test_en_flip_at_255 : enAccept Config.hw (.data false) ⟨.run, .noError, 255, 0, ⟨true, 255⟩, []⟩
    = ⟨.run, .noError, 256, 1, ⟨false, 1⟩, [.data 255]⟩ := by decide
theorem test_en_first_zero : enAccept Config.hw (.data false) ⟨.run, .noError, 0, 0, ⟨true, 0⟩, []⟩
    = ⟨.run, .noError, 1, 1, ⟨false, 1⟩, [.data 0]⟩ := by decide
theorem test_en_half_split : enAccept Config.hw (.data true) ⟨.run, .noError, 300, 4999, ⟨true, 255⟩, []⟩
    = ⟨.err, .capacityExceeded, 300, 5000, ⟨true, 255⟩, [.data 255]⟩ := by decide

/-- V-DE-9, V-DE-6, V-DE-11, V-DE-16. -/
theorem test_de_row_end : (deRun Config.hw (deFrame 2 2 [1, 2, 1]) resetDe).outq
    = [.data ⟨true, false⟩, .data ⟨false, true⟩, .data ⟨false, false⟩, .data ⟨true, true⟩, .done .noError 4] := by decide
theorem test_de_zeros : (deRun Config.hw (deFrame 1 4 [4, 0, 0]) resetDe).outq.getLast? = some (.done .noError 4) := by decide
theorem test_de_overrun : (deRun Config.hw (deFrame 2 6 [3, 3, 3, 4]) resetDe).outq.getLast? = some (.done .protocolViolation 9) ∧
    (deRun Config.hw (deFrame 1 4 [5, 4]) resetDe).outq = [.done .protocolViolation 0] := by decide

/-- V-PR-1, V-PR-3, V-PR-5, V-PR-6. -/
theorem test_pr_end_alone : pkAccept Config.hw .close resetPk = { resetPk with err := .protocolViolation, outq := [.done .protocolViolation 0] } := by decide
theorem test_pr_start_inside : (pkRun Config.hw [.start (), .data 1, .start (), .data 1, .close] resetPk).outq = [.done .protocolViolation 0] ∧
    (pkRun Config.hw [.rsvd, .start (), .data 1, .close] resetPk).outq = [.done .protocolViolation 0] := by decide
theorem test_pr_next_frame : (pkRun Config.hw (pkFrame [2] ++ pkFrame [1]) resetPk).outq
    = [.done .invalidBitValue 0, .data 1, .done .noError 1] := by decide

/-- Whether an outcome is a next state, and this one. -/
def nextIs (o : Host.Outcome State Fault Refusal) (t : State) : Bool :=
  match o with
  | .next s => decide (s = t)
  | .fault _ => false
  | .refused _ => false

/-- V-RS-1: reset in the middle of a frame. -/
theorem test_reset_edge : nextIs (step { State.reset with pk := pkRun Config.hw [.start (), .data 1] resetPk, script := [.pk ⟨true, true, true, 0x101, true⟩] })
    { State.reset with pkLog := [.reset] } = true := by decide

/-- One edge that takes a beat and accepts an op: the head goes first, the op's beat goes last. -/
theorem test_edge_both : nextIs (step { State.reset with pk := { resetPk with outq := [.data 7] }, script := [.pk ⟨false, true, true, 0x200, true⟩] })
    { State.reset with pk := { resetPk with err := .protocolViolation, outq := [.done .protocolViolation 0] },
                               pkLog := [.accepted .pkEnd, .delivered (.data 7)] } = true := by decide

/-- A word the host places is run by the next step. -/
theorem test_fetch : nextIs (step (State.reset.withFetchWord 40 0x000020006))
    { State.reset with up := ⟨.run, .noError, 0, 0, ⟨2, 6, 12, 0⟩, []⟩, upLog := [.accepted (.upStart 2 6)] } = true := by decide

/-! ## Each statement's hypotheses are met -/

/-- Small states: reset but for one unit. -/
def withPk (m : Mode) (e : ErrCode) (nIn nOut : Count) (dp : PkRegs) : State := { State.reset with pk := ⟨m, e, nIn, nOut, dp, [.data 1]⟩ }
def withUp (m : Mode) (e : ErrCode) (nIn nOut : Count) (dp : ShapeRegs) : State :=
  { State.reset with up := ⟨m, e, nIn, nOut, dp, [.data ⟨true, false⟩]⟩ }
def withEn (m : Mode) (e : ErrCode) (nIn nOut : Count) (dp : EnRegs) : State := { State.reset with en := ⟨m, e, nIn, nOut, dp, [.data 1]⟩ }
def withDe (m : Mode) (e : ErrCode) (nIn nOut : Count) (dp : DeRegs) : State :=
  { State.reset with de := ⟨m, e, nIn, nOut, dp, [.data ⟨true, false⟩]⟩ }

/-- A shape of 2 rows and 6 columns at column `col`. -/
def shape26 (col : Dim) : ShapeRegs := ⟨2, 6, 12, col⟩

theorem test_meets_ResetEdge : ∃ (s : State) (e : Edge 10) (rest : List Event), e.rst = true ∧ s.script = .pk e :: rest ∧ s.pk.mode = .err :=
  ⟨{ withPk .err .capacityExceeded 3 1 ⟨7, 3⟩ with script := [.pk ⟨true, true, true, 0, true⟩] }, _, _, rfl, rfl, rfl⟩
theorem test_meets_ResetEdge_others :
    (∃ (s : State) (e : Edge 34), e.rst = true ∧ s.script = [.up e]) ∧ (∃ (s : State) (e : Edge 3), e.rst = true ∧ s.script = [.en e]) ∧
    (∃ (s : State) (e : Edge 34), e.rst = true ∧ s.script = [.de e]) :=
  ⟨⟨{ State.reset with script := [.up ⟨true, false, false, 0, false⟩] }, _, rfl, rfl⟩,
   ⟨{ State.reset with script := [.en ⟨true, false, false, 0, false⟩] }, _, rfl, rfl⟩,
   ⟨{ State.reset with script := [.de ⟨true, false, false, 0, false⟩] }, _, rfl, rfl⟩⟩
theorem test_meets_StepRuns :
    (∃ s : State, s.script = [.pk ⟨false, true, true, 0x101, true⟩]) ∧ (∃ s : State, s.script = [.up ⟨false, true, true, 0, false⟩]) ∧
    (∃ s : State, s.script = [.en ⟨false, true, true, 3, true⟩]) ∧ (∃ s : State, s.script = [.de ⟨false, true, true, 0, false⟩]) :=
  ⟨⟨{ State.reset with script := [_] }, rfl⟩, ⟨{ State.reset with script := [_] }, rfl⟩, ⟨{ State.reset with script := [_] }, rfl⟩,
   ⟨{ State.reset with script := [_] }, rfl⟩⟩
theorem test_meets_EdgeDelivers :
    (∃ (s : State) (e : Edge 10), e.rst = false ∧ (e.sValid && e.sReady) = false ∧ s.script = [.pk e] ∧ e.mReady = true ∧ s.pk.outq = [.data 1]) ∧
    (∃ (s : State) (e : Edge 34), e.rst = false ∧ (e.sValid && e.sReady) = false ∧ s.script = [.up e] ∧ e.mReady = true ∧ s.up.outq ≠ []) ∧
    (∃ (s : State) (e : Edge 3), e.rst = false ∧ (e.sValid && e.sReady) = false ∧ s.script = [.en e] ∧ e.mReady = true ∧ s.en.outq = [.data 1]) ∧
    (∃ (s : State) (e : Edge 34), e.rst = false ∧ (e.sValid && e.sReady) = false ∧ s.script = [.de e] ∧ e.mReady = false ∧ s.de.outq ≠ []) :=
  ⟨⟨{ withPk .run .noError 1 0 ⟨1, 1⟩ with script := [.pk ⟨false, true, false, 0, true⟩] }, _, rfl, rfl, rfl, rfl, rfl⟩,
   ⟨{ withUp .run .noError 1 8 (shape26 2) with script := [.up ⟨false, false, true, 0, true⟩] }, _, rfl, rfl, rfl, rfl, by decide⟩,
   ⟨{ withEn .run .noError 1 0 ⟨true, 1⟩ with script := [.en ⟨false, false, false, 0, true⟩] }, _, rfl, rfl, rfl, rfl, rfl⟩,
   ⟨{ withDe .run .noError 1 0 ⟨shape26 0, true⟩ with script := [.de ⟨false, true, false, 0, false⟩] }, _, rfl, rfl, rfl, rfl, by decide⟩⟩
/-- The last case of EdgeDeliversHead. -/
theorem test_meets_Idle : ∃ s : State, s.script = [] ∧ s.pk.mode = .run := ⟨withPk .run .noError 0 0 ⟨0, 0⟩, rfl, rfl⟩
theorem test_meets_Fetched : decodeTableWord 16 0x1FF = some (.pkData 0xFF) ∧ decodeTableWord 40 (2 ^ 34) = some (.deStart 0 0) := by decide
theorem test_meets_Link :
    (∃ s : State, s.script = [.link .pkToUp] ∧ s.pk.outq = [.done .invalidBitValue 0]) ∧
    (∃ s : State, s.script = [.link .upToEn] ∧ s.up.outq = [.data ⟨true, true⟩]) ∧
    (∃ s : State, s.script = [.link .enToDe] ∧ s.en.outq = [.data 255]) :=
  ⟨⟨{ State.reset with pk := { resetPk with outq := [_] }, script := [_] }, rfl, rfl⟩,
   ⟨{ State.reset with up := { resetUp with outq := [_] }, script := [_] }, rfl, rfl⟩,
   ⟨{ State.reset with en := { resetEn with outq := [_] }, script := [_] }, rfl, rfl⟩⟩
theorem test_meets_Outputs : (withPk .run .noError 0 0 ⟨0, 0⟩).pk.outq = .data 1 :: [] ∧
    (withUp .run .noError 1 8 (shape26 2)).up.outq = .data ⟨true, false⟩ :: [] := by decide

/-- The words whose op field has each of its four values, in each format. -/
theorem test_meets_op_fields :
    (0x0AB : BitVec 10).extractLsb' 8 2 = 0b00 ∧ (0x1FF : BitVec 10).extractLsb' 8 2 = 0b01 ∧
    (0x2FF : BitVec 10).extractLsb' 8 2 = 0b10 ∧ (0x300 : BitVec 10).extractLsb' 8 2 = 0b11 ∧
    (0x0FFFFFFFF : BitVec 34).extractLsb' 32 2 = 0b00 ∧ (0x1ABCD12C7 : BitVec 34).extractLsb' 32 2 = 0b01 ∧
    (0x200000001 : BitVec 34).extractLsb' 32 2 = 0b10 ∧ (0x3FFFFFFFF : BitVec 34).extractLsb' 32 2 = 0b11 ∧
    (0b001 : BitVec 3).extractLsb' 1 2 = 0b00 ∧ (0b011 : BitVec 3).extractLsb' 1 2 = 0b01 ∧
    (0b100 : BitVec 3).extractLsb' 1 2 = 0b10 ∧ (0b111 : BitVec 3).extractLsb' 1 2 = 0b11 := by decide
theorem test_meets_modes : ∀ m : Mode, (withPk m .noError 0 0 ⟨0, 0⟩).pk.mode = m ∧ (withUp m .noError 0 0 (shape26 0)).up.mode = m ∧
    (withEn m .noError 0 0 ⟨true, 0⟩).en.mode = m ∧ (withDe m .noError 0 0 ⟨shape26 0, true⟩).de.mode = m := fun _ => ⟨rfl, rfl, rfl, rfl⟩
theorem test_meets_decode_range : ∃ i, decodeWord .up (2 ^ 34 - 1) = .ok i ∧ 2 ^ UnitId.up.wordWidth ≤ 2 ^ 34 := ⟨.upRsvd, by decide, by decide⟩
theorem test_meets_toInstr : RawOp.toInstr ⟨⟨.up, .start⟩, [65535, 0]⟩ = .ok (.upStart 65535 0) := by decide

/-- PkDataPacksElement: `n_in` at the capacity and one below it; an element of 2 and of 255; `bitpos` 7 and 6. -/
theorem test_meets_PkData :
    (withPk .run .noError 5000 625 ⟨0, 0⟩).pk.nIn.toNat = Config.hw.cap ∧
    ((withPk .run .noError 4999 624 ⟨0x7F, 7⟩).pk.nIn.toNat ≠ Config.hw.cap ∧ 2 ≤ (2 : Byte).toNat ∧ 2 ≤ (255 : Byte).toNat ∧
      (1 : Byte).toNat ≤ 1 ∧ (0 : Byte).toNat ≤ 1) ∧
    ((withPk .run .noError 4999 624 ⟨0x7F, 7⟩).pk.dp.bitpos.toNat = 7 ∧ (withPk .run .noError 4998 624 ⟨0x3F, 6⟩).pk.dp.bitpos.toNat ≠ 7) := by decide
theorem test_meets_PkData_upper : ∀ k, (withPk .run .noError 6 0 ⟨0x3F, 6⟩).pk.dp.bitpos.toNat ≤ k →
    (withPk .run .noError 6 0 ⟨0x3F, 6⟩).pk.dp.acc.getLsbD k = false := by
  intro k hk
  obtain h | h := Nat.lt_or_ge k 8
  · exact (by decide : ∀ j : Fin 8, 6 ≤ j.val → (0x3F : Byte).getLsbD j.val = false) ⟨k, h⟩ hk
  · exact BitVec.getLsbD_of_ge _ _ h
theorem test_meets_PkEnd : (withPk .run .noError 8 1 ⟨0, 0⟩).pk.dp.bitpos = 0 ∧ (withPk .run .noError 9 1 ⟨1, 1⟩).pk.dp.bitpos ≠ 0 := by decide
theorem test_meets_PkEnd_inv : PkInv Config.hw (withPk .run .noError 0 0 ⟨0, 0⟩).pk :=
  ⟨⟨by decide, by decide, by decide, by decide, by decide⟩, fun _ => ⟨by decide, by decide, fun k _ => by simp [withPk]⟩⟩

/-- UpDataEmitsBits and UpEndCloses: nothing left, all 12 left, 4 left. -/
theorem test_meets_UpData :
    (withUp .run .noError 2 12 (shape26 0)).up.nOut.toNat = (withUp .run .noError 2 12 (shape26 0)).up.dp.total.toNat ∧
    (withUp .run .noError 1 8 (shape26 2)).up.nOut.toNat < (withUp .run .noError 1 8 (shape26 2)).up.dp.total.toNat ∧
    (shape26 2).total.toNat ≤ Config.hw.cap ∧ (shape26 5).col.toNat < (shape26 5).cols.toNat ∧
    4 = min 8 ((shape26 2).total.toNat - (withUp .run .noError 1 8 (shape26 2)).up.nOut.toNat) := by decide

/-- The last clause of UpEndCloses and of DeEndCloses: a complete frame of 1 row and 2 columns. -/
theorem test_meets_UpEnd_inv : (withUp .run .noError 1 2 ⟨1, 2, 2, 0⟩).up.dp.total.toNat ≤ (withUp .run .noError 1 2 ⟨1, 2, 2, 0⟩).up.nOut.toNat ∧
    UpInv Config.hw (withUp .run .noError 1 2 ⟨1, 2, 2, 0⟩).up :=
  ⟨by decide, ⟨by decide, by decide, by decide, by decide, by decide⟩,
   fun _ => ⟨⟨by decide, by decide, by decide, by decide, by decide, by decide⟩, by decide⟩⟩
theorem test_meets_DeEnd_inv :
    (withDe .run .noError 1 2 ⟨⟨1, 2, 2, 0⟩, false⟩).de.dp.shape.total.toNat ≤ (withDe .run .noError 1 2 ⟨⟨1, 2, 2, 0⟩, false⟩).de.nOut.toNat ∧
    DeInv Config.hw (withDe .run .noError 1 2 ⟨⟨1, 2, 2, 0⟩, false⟩).de :=
  ⟨by decide, ⟨by decide, by decide, by decide, by decide, by decide⟩,
   fun _ => ⟨⟨by decide, by decide, by decide, by decide, by decide, by decide⟩, by decide⟩⟩

/-- EnDataCountsRun and EnEndFlushesAndCloses: each clause, at the capacities' edges. -/
theorem test_meets_EnData :
    (withEn .run .noError 5000 0 ⟨true, 1⟩).en.nIn.toNat = Config.hw.cap ∧
    ((withEn .run .noError 4999 0 ⟨true, 254⟩).en.nIn.toNat ≠ Config.hw.cap ∧ (withEn .run .noError 4999 0 ⟨true, 254⟩).en.dp.curCnt.toNat ≠ 255) ∧
    ((withEn .run .noError 4999 5000 ⟨true, 255⟩).en.dp.curCnt.toNat = 255 ∧ (withEn .run .noError 4999 5000 ⟨true, 255⟩).en.nOut.toNat = Config.hw.cap) ∧
    (withEn .run .noError 4999 4999 ⟨true, 255⟩).en.nOut.toNat + 1 = Config.hw.cap ∧
    ((withEn .run .noError 4999 4998 ⟨true, 255⟩).en.nOut.toNat ≠ Config.hw.cap ∧ (withEn .run .noError 4999 4998 ⟨true, 255⟩).en.nOut.toNat + 1 ≠ Config.hw.cap) ∧
    (true = (withEn .run .noError 0 0 ⟨true, 0⟩).en.dp.curVal ∧ false ≠ (withEn .run .noError 0 0 ⟨true, 0⟩).en.dp.curVal) ∧
    ((withEn .run .noError 0 0 ⟨true, 0⟩).en.dp.curCnt = 0 ∧ (withEn .run .noError 1 0 ⟨true, 1⟩).en.dp.curCnt ≠ 0) := by decide

/-- DeDataEmitsRun and DeEndCloses: each clause, an entry that fits exactly and one that passes by 1. -/
theorem test_meets_DeData :
    (withDe .run .noError 5000 0 ⟨shape26 0, true⟩).de.nIn.toNat = Config.hw.cap ∧
    (withDe .run .noError 4999 0 ⟨shape26 0, true⟩).de.nIn.toNat ≠ Config.hw.cap ∧
    ((shape26 3).total.toNat < (withDe .run .noError 1 9 ⟨shape26 3, false⟩).de.nOut.toNat + (4 : Byte).toNat ∧
      (withDe .run .noError 1 9 ⟨shape26 3, false⟩).de.nOut.toNat + (3 : Byte).toNat ≤ (shape26 3).total.toNat ∧ (3 : Byte) ≠ 0) ∧
    ((withDe .run .noError 1 9 ⟨shape26 3, false⟩).de.nOut.toNat < (shape26 3).total.toNat ∧
      (shape26 0).total.toNat ≤ (withDe .run .noError 4 12 ⟨shape26 0, true⟩).de.nOut.toNat) := by decide
theorem test_meets_Bitops : 0 ≤ 7 ∧ 7 ≤ 7 ∧ 7 < 8 ∧ (0 : Nat) ≠ 7 := by decide
theorem test_meets_Touches : withPk .run .noError 1 0 ⟨1, 1⟩ ≠ State.reset ∧ (withPk .run .noError 1 0 ⟨1, 1⟩).config = State.reset.config ∧ (Instr.upEnd.unit ≠ .pk) ∧ (Instr.pkEnd.unit ≠ .up) ∧ (Instr.pkEnd.unit ≠ .en) ∧ (Instr.pkEnd.unit ≠ .de) := by decide
theorem test_meets_Commute : ∀ u ∈ (Event.link .pkToUp).units, u ∉ (Event.link .enToDe).units := by decide
theorem test_meets_Instances : ∃ (m : Instances) (j k : Nat) (t : Instances), j ≠ k ∧ m.length = 2 ∧ Instances.stepAt j m = .next t :=
  ⟨[State.reset, State.reset], 0, 1, [State.reset, State.reset], by decide, rfl, rfl⟩

/-- StepKeepsInvariant and StepKeepsLogsTrue: a state that accepts `PK.END` next. -/
def aboutToEnd : State := { State.reset with script := [.pk ⟨false, true, true, 0x200, false⟩] }
theorem test_meets_Inv : aboutToEnd.Inv ∧ ∃ t, step aboutToEnd = .next t ∧ t.pk.outq = [.done .protocolViolation 0] := by
  refine ⟨⟨⟨⟨?_, ?_, ?_, ?_, ?_⟩, ?_⟩, ⟨⟨?_, ?_, ?_, ?_, ?_⟩, ?_⟩, ⟨⟨?_, ?_, ?_, ?_, ?_⟩, ?_⟩, ⟨⟨?_, ?_, ?_, ?_, ?_⟩, ?_⟩⟩, _, rfl, by decide⟩ <;>
    first
      | decide
      | exact fun h => nomatch h
theorem test_meets_Coherent : aboutToEnd.Coherent ∧ ∃ t, step aboutToEnd = .next t ∧ t.pkLog = [.accepted .pkEnd] :=
  ⟨⟨⟨_, rfl, rfl⟩, ⟨_, rfl, rfl⟩, ⟨_, rfl, rfl⟩, ⟨_, rfl, rfl⟩⟩, _, rfl, by decide⟩
theorem test_meets_Bounded : Instr.pkEnd.unit = .pk ∧ Instr.upEnd.unit = .up ∧ Instr.enEnd.unit = .en ∧ Instr.deEnd.unit = .de := by decide

/-- RejectedFrameWaitsForEnd: some ops of the unit, none of them its END. -/
theorem test_meets_Rejected : (∀ i ∈ [Instr.pkData 1, .pkStart, .pkRsvd], i.cls ≠ .close ∧ i.unit = .pk) ∧
    (∀ i ∈ [Instr.upData 1, .upStart 1 1], i.cls ≠ .close ∧ i.unit = .up) ∧ (∀ i ∈ [Instr.enData true], i.cls ≠ .close ∧ i.unit = .en) ∧
    (∀ i ∈ [Instr.deRsvd], i.cls ≠ .close ∧ i.unit = .de) ∧ (withPk .err .protocolViolation 0 0 ⟨0, 0⟩).pk.mode = .err := by decide

/-- The three statements about causes: mode RUN with code 0, mode IDLE with a stale code, each cause's counters. -/
theorem test_meets_Causes :
    ((withPk .run .noError 5000 625 ⟨0, 0⟩).pk.mode ≠ .err ∧ (withPk .run .noError 5000 625 ⟨0, 0⟩).pk.err = .noError ∧
      (withPk .idle .capacityExceeded 0 0 ⟨0, 0⟩).pk.mode ≠ .err) ∧
    ((withUp .run .noError 0 0 (shape26 0)).up.mode ≠ .err ∧ (withUp .run .noError 0 0 (shape26 0)).up.err = .noError) ∧
    ((withEn .run .noError 0 0 ⟨true, 0⟩).en.mode ≠ .err ∧ (withEn .run .noError 0 0 ⟨true, 0⟩).en.err = .noError) ∧
    ((withDe .run .noError 0 0 ⟨shape26 0, true⟩).de.mode ≠ .err ∧ (withDe .run .noError 0 0 ⟨shape26 0, true⟩).de.err = .noError) := by decide
theorem test_meets_BitErrors : (withPk .run .noError 4999 624 ⟨0, 7⟩).pk.nIn.toNat < Config.hw.cap ∧
    (pkAccept Config.hw (.data 2) (withPk .run .noError 4999 624 ⟨0, 7⟩).pk).err = .invalidBitValue ∧
    (withPk .run .noError 4999 624 ⟨0, 7⟩).pk.err ≠ .invalidBitValue := by decide

/-- The frame statements: an idle unit, a raster, a shape, byte and entry sequences of each kind. -/
theorem test_meets_PackFrames : resetPk.mode = .idle ∧ [true, false].length ≤ Config.hw.cap ∧ [true, false].length < Config.hw.cap ∧
    (List.replicate 5000 true).length = Config.hw.cap := ⟨rfl, by decide, by decide, List.length_replicate⟩
theorem test_meets_UnpackFrame : resetUp.mode = .idle ∧ 1 ≤ (2 : Dim).toNat ∧ 1 ≤ (6 : Dim).toNat ∧ 12 = (2 : Dim).toNat * (6 : Dim).toNat ∧
    12 ≤ Config.hw.cap ∧ [0xC7, 0x01].length = ceil8 12 ∧ [0xC7].length < ceil8 12 ∧ ceil8 12 < [0xC7, 0x01, 0].length := by decide
theorem test_meets_Pads : ([0xC7, 0x01] : List Byte).length = ([0xC7, 0xF1] : List Byte).length ∧
    ∀ i, i < (2 : Dim).toNat * (6 : Dim).toNat →
      (([0xC7, 0x01] : List Byte).getD (i / 8) 0).getLsbD (i % 8) = (([0xC7, 0xF1] : List Byte).getD (i / 8) 0).getLsbD (i % 8) := by decide
theorem test_meets_EncodeFrame : resetEn.mode = .idle ∧ [false, true].length ≤ Config.hw.cap ∧ (encodeRuns [false, true]).length ≤ Config.hw.cap := by decide

/-- EncodeFrameIsEncodeRuns and CycleReproducesRaster, the rejected case: 5000 alternating bits, 0 first, of 5001 entries. -/
def alternating : Nat → Bit → List Bit
  | 0, _ => []
  | n + 1, b => b :: alternating n (!b)
theorem alternating_length (n : Nat) (b : Bit) : (alternating n b).length = n := by
  induction n generalizing b with
  | zero => rfl
  | succ n ih => simp [alternating, ih]
theorem alternating_entries (n : Nat) (v : Bit) (c : Byte) (h : c ≠ 0 ∨ n ≠ 0) : (encFrom v c (alternating n (!v))).length = n + 1 := by
  induction n generalizing v c with
  | zero => simp_all [alternating, encFrom]
  | succ n ih =>
    have := ih (!v) 1 (.inl (by decide))
    simp_all [alternating, encFrom]
theorem test_meets_EncodeFrame_full : (alternating 5000 false).length ≤ Config.hw.cap ∧
    Config.hw.cap < (encodeRuns (alternating 5000 false)).length ∧
    (alternating 5000 false).length = (50 : Dim).toNat * (100 : Dim).toNat := by
  have h : (encodeRuns (alternating 5000 false)).length = 5001 := alternating_entries 5000 true 0 (.inr (by decide))
  rw [h, alternating_length]
  decide

/-- A capacity of 2, at which the two bits 0, 1 need three entries (R158). -/
def cap2 : Config := ⟨2, by decide, by decide⟩
theorem test_meets_full : (enRun cap2 (enFrame [false, true]) resetEn).outq = [.data 0, .data 1, .done .capacityExceeded 2] ∧
    cap2.cap < (encodeRuns [false, true]).length ∧ (cycle cap2 1 2 [0, 1]).status = some .capacityExceeded := by decide
theorem test_meets_SplitRun : (1 ≤ 255 ∧ 255 ≤ 255 ∧ 256 ≤ 256) ∧ splitRun 255 = [255] ∧ splitRun 256 = [255, 0, 1] := by decide
theorem test_meets_EntryCount : 1 ≤ [false].length ∧ (encodeRuns [false]).length = [false].length + 1 := by decide
theorem test_meets_ZeroEntries : (encodeRuns [false, true]).getD 0 0 = 0 ∧ 1 < (encodeRuns [false, true]).length := by decide
theorem test_meets_DecodeFrame : resetDe.mode = .idle ∧ entrySum [3, 3, 3, 3] ≤ 12 ∧ entrySum [3, 3] ≤ 12 ∧ entrySum [3, 3, 3] ≤ 12 ∧
    12 < entrySum [3, 3, 3] + (4 : Byte).toNat ∧ ([3, 3, 3, 4] : List Byte) = [3, 3, 3] ++ 4 :: [] ∧ [3, 3, 3, 4].length ≤ Config.hw.cap := by decide
theorem test_meets_RoundTrip : [true, false].length = (1 : Dim).toNat * (2 : Dim).toNat ∧ [true, false].length ≤ Config.hw.cap ∧
    (encodeRuns [true, false]).length ≤ Config.hw.cap := by decide

/-- 95_test_vectors.md V-CH-1 in small: a whole cycle; and one with an illegal element. -/
theorem test_cycle : (cycle Config.hw 1 3 [1, 1, 0]).status = some .noError ∧
    payloads (cycle Config.hw 1 3 [1, 1, 0]).en = [2, 1] ∧ (cycle Config.hw 1 3 [1, 2, 0]).status = some .invalidBitValue := by decide

/-- R243: newest first, a clean frame after one cut by a reset, and one closed with an error. -/
theorem test_held : heldOf [.delivered (.done .capacityExceeded 1), .delivered (.data 3), .delivered (.done .noError 1), .delivered (.data 2), .reset,
    .accepted .pkEnd, .delivered (.data (1 : Byte))] = ⟨[[2]], []⟩ := by decide
theorem test_held_provisional : heldOf [.delivered (.data 3), .delivered (.done .noError 0), .delivered (.data (1 : Byte))] = ⟨[[1]], [3]⟩ := by decide
theorem test_meets_Committed : [1] ∈ (heldOf [.delivered (.done .noError 1), .delivered (.data (1 : Byte))]).committed := by decide

/-- R249: a cycle of one element, with all its events, and without the last; an idle unit that delivered nothing is not over. -/
theorem test_cycle_over : runOver [.pk, .up, .en, .de] { State.reset with script := cycleScript Config.hw 1 1 [1] } = true ∧
    runOver [.pk, .up, .en, .de] { State.reset with script := (cycleScript Config.hw 1 1 [1]).dropLast } = false := by decide
theorem test_not_over : runOver [.pk] State.reset = false ∧
    runOver [.pk] { State.reset with script := [offer .pk 0, .pk ⟨true, false, false, 0, false⟩] } = false ∧
    runOver [.pk] { State.reset with script := [offer .pk 0x200, .pk ⟨false, false, false, 0, true⟩] } = true ∧
    runOver [.pk] { State.reset with script := [offer .pk 0x200, .pk ⟨false, true, false, 0, true⟩] } = false := by decide
def overAll : State :=
  { State.reset with
    pk := { resetPk with err := .protocolViolation }, pkLog := [.delivered (.done .protocolViolation 0), .accepted .pkEnd]
    up := { resetUp with err := .protocolViolation }, upLog := [.delivered (.done .protocolViolation 0), .accepted .upEnd]
    en := { resetEn with err := .protocolViolation }, enLog := [.delivered (.done .protocolViolation 0), .accepted .enEnd]
    de := { resetDe with err := .protocolViolation }, deLog := [.delivered (.done .protocolViolation 0), .accepted .deEnd] }
theorem test_meets_Over : overAll.Coherent ∧ (∃ i ∈ opsSinceReset overAll.pkLog, i.unit = .pk) ∧ (∃ i ∈ opsSinceReset overAll.upLog, i.unit = .up) ∧
    (∃ i ∈ opsSinceReset overAll.enLog, i.unit = .en) ∧ (∃ i ∈ opsSinceReset overAll.deLog, i.unit = .de) ∧
    overAll.pk.over overAll.pkLog = true ∧ overAll.de.over overAll.deLog = true :=
  ⟨⟨⟨_, rfl, rfl⟩, ⟨_, rfl, rfl⟩, ⟨_, rfl, rfl⟩, ⟨_, rfl, rfl⟩⟩, by decide, by decide, by decide, by decide, by decide, by decide⟩

/-- R5: the capacity is the machine's: the same third element is packed at 5000 and raises at 2. -/
theorem test_capacity_carried : State.reset.config = Config.hw ∧ (withPk .run .noError 0 0 ⟨0, 0⟩).config = Config.hw ∧
    nextIs (exec (.pkData 1) { withPk .run .noError 2 0 ⟨3, 2⟩ with config := cap2 })
      { withPk .err .capacityExceeded 2 0 ⟨3, 2⟩ with config := cap2 } = true ∧
    nextIs (exec (.pkData 1) (withPk .run .noError 2 0 ⟨3, 2⟩)) (withPk .run .noError 3 0 ⟨7, 3⟩) = true := by decide

/-- The duties R242 and R248. -/
theorem test_dutiful : dutiful [.pk ⟨true, false, false, 0, false⟩, .pk ⟨false, true, false, 0x200, false⟩, .pk ⟨false, true, true, 0x200, false⟩] = true ∧
    dutiful [.pk ⟨false, true, true, 0x200, false⟩] = false ∧
    dutiful [.pk ⟨true, false, false, 0, false⟩, .pk ⟨false, true, false, 0x200, false⟩, .pk ⟨false, false, false, 0x200, false⟩] = false := by decide

end Sys2Proof.Tests
end

section
/-! SUPPORT. The state and its register invariant (10_state.md): what an op touches and reads, what the pieces of a
step keep, and the five statements of that family. -/

namespace Sys2Proof.Machine

open Sys2Proof

/-! ## What an op touches and reads (R20) -/

/-- R20, R223: an op acts on each unit by a function of the capacity and of that unit alone, which is the identity on
every unit but its own; nothing else changes. -/
theorem exec_unitwise (i : Instr) :
    ∃ (f : Config → PkUnit → PkUnit) (g : Config → UpUnit → UpUnit) (h : Config → EnUnit → EnUnit)
      (k : Config → DeUnit → DeUnit),
      (∀ s : State, exec i s = .next { s with
        pk := f s.config s.pk, up := g s.config s.up, en := h s.config s.en, de := k s.config s.de }) ∧
      (i.unit ≠ .pk → ∀ c u, f c u = u) ∧ (i.unit ≠ .up → ∀ c u, g c u = u) ∧
      (i.unit ≠ .en → ∀ c u, h c u = u) ∧ (i.unit ≠ .de → ∀ c u, k c u = u) := by
  rcases instr_cases i with ⟨op, rfl⟩ | ⟨op, rfl⟩ | ⟨op, rfl⟩ | ⟨op, rfl⟩
  · exact ⟨fun c => pkAccept c op, fun _ u => u, fun _ u => u, fun _ u => u, exec_pk op, by simp⟩
  · exact ⟨fun _ u => u, fun c => upAccept c op, fun _ u => u, fun _ u => u, exec_up op, by simp⟩
  · exact ⟨fun _ u => u, fun _ u => u, fun c => enAccept c op, fun _ u => u, exec_en op, by simp⟩
  · exact ⟨fun _ u => u, fun _ u => u, fun _ u => u, fun c => deAccept c op, exec_de op, by simp⟩

/-! ## What is kept by the pieces of a step is kept by the step -/

/-- A predicate that every piece of a step keeps: consuming the script, resetting a unit, delivering a beat, and
accepting an op with its note in the log. -/
structure KeptByPieces (P : State → Prop) : Prop where
  script : ∀ s rest, P s → P { s with script := rest }
  resetPk : ∀ s, P s → P s.resetPkUnit
  resetUp : ∀ s, P s → P s.resetUpUnit
  resetEn : ∀ s, P s → P s.resetEnUnit
  resetDe : ∀ s, P s → P s.resetDeUnit
  deliverPk : ∀ s, P s → P s.deliverPk
  deliverUp : ∀ s, P s → P s.deliverUp
  deliverEn : ∀ s, P s → P s.deliverEn
  deliverDe : ∀ s, P s → P s.deliverDe
  accept : ∀ i s t, P s → exec i (s.note i) = .next t → P t

section
variable {P : State → Prop} {s t : State}

/-- R88, R240: an edge is a reset, or a delivery or none, and after it an acceptance or none. -/
theorem KeptByPieces.of_applyEdge (hP : KeptByPieces P) {w : Nat} {e : Edge w} {resetUnit deliver : State → State}
    {decode : BitVec w → Instr} (hreset : ∀ s, P s → P (resetUnit s)) (hdeliver : ∀ s, P s → P (deliver s))
    (hs : P s) (h : applyEdge e resetUnit deliver decode s = .next t) : P t := by
  unfold applyEdge at h
  by_cases hrst : e.rst
  · rw [if_pos hrst] at h
    cases h
    exact hreset s hs
  · rw [if_neg hrst] at h
    have hmid : P (if e.takes then deliver s else s) := by
      split
      · exact hdeliver s hs
      · exact hs
    by_cases hacc : e.accepts
    · exact hP.accept _ _ t hmid (by simpa [hacc] using h)
    · have : (if e.takes then deliver s else s) = t := by simpa [hacc] using h
      exact this ▸ hmid

/-- R201: a link delivers a beat upstream and has the op made of it accepted downstream, or does nothing. -/
theorem KeptByPieces.of_applyLink (hP : KeptByPieces P) {l : Link} (hs : P s) (h : applyLink l s = .next t) : P t := by
  cases l with
  | pkToUp =>
    simp only [applyLink] at h
    split at h
    · cases h; exact hs
    · exact hP.accept _ _ t (hP.deliverPk s hs) h
  | upToEn =>
    simp only [applyLink] at h
    split at h
    · cases h; exact hs
    · exact hP.accept _ _ t (hP.deliverUp s hs) h
  | enToDe =>
    simp only [applyLink] at h
    split at h
    · cases h; exact hs
    · exact hP.accept _ _ t (hP.deliverEn s hs) h

theorem KeptByPieces.of_applyEvent (hP : KeptByPieces P) {ev : Event} (hs : P s) (h : applyEvent ev s = .next t) :
    P t := by
  cases ev with
  | pk e => exact hP.of_applyEdge hP.resetPk hP.deliverPk hs h
  | up e => exact hP.of_applyEdge hP.resetUp hP.deliverUp hs h
  | en e => exact hP.of_applyEdge hP.resetEn hP.deliverEn hs h
  | de e => exact hP.of_applyEdge hP.resetDe hP.deliverDe hs h
  | link l => exact hP.of_applyLink hs h

theorem KeptByPieces.of_step (hP : KeptByPieces P) (hs : P s) (h : step s = .next t) : P t := by
  unfold step nextEvent at h
  split at h
  · cases h; exact hs
  · exact hP.of_applyEvent (hP.script s _ hs) h

end

/-! ## The register invariant (R31) -/

/-- R33: the control registers after reset are within their bounds. -/
theorem ctrlInv_resetWith {D α : Type} (c : Config) (dp : D) : (UnitState.resetWith dp : UnitState D α).CtrlInv c := by
  simp [UnitState.CtrlInv, UnitState.resetWith]

theorem pkInv_reset (c : Config) : PkInv c resetPk := ⟨ctrlInv_resetWith c _, by simp⟩
theorem upInv_reset (c : Config) : UpInv c resetUp := ⟨ctrlInv_resetWith c _, by simp⟩
theorem enInv_reset (c : Config) : EnInv c resetEn := ⟨ctrlInv_resetWith c _, by simp⟩
theorem deInv_reset (c : Config) : DeInv c resetDe := ⟨ctrlInv_resetWith c _, by simp⟩

theorem inv_resetWith (c : Config) : (State.resetWith c).Inv :=
  ⟨pkInv_reset c, upInv_reset c, enInv_reset c, deInv_reset c⟩

/-- The logs are no part of the invariant. -/
@[simp] theorem inv_note (i : Instr) (s : State) : (s.note i).Inv ↔ s.Inv := by
  unfold State.note
  cases i.unit <;> rfl

/-! The pending beats are no part of it either (R26). -/

@[simp] theorem inv_deliverPk (s : State) : s.deliverPk.Inv ↔ s.Inv := by unfold State.deliverPk; split <;> rfl
@[simp] theorem inv_deliverUp (s : State) : s.deliverUp.Inv ↔ s.Inv := by unfold State.deliverUp; split <;> rfl
@[simp] theorem inv_deliverEn (s : State) : s.deliverEn.Inv ↔ s.Inv := by unfold State.deliverEn; split <;> rfl
@[simp] theorem inv_deliverDe (s : State) : s.deliverDe.Inv ↔ s.Inv := by unfold State.deliverDe; split <;> rfl

/-- Every op keeps the invariant: its unit's is kept (`pkInv_accept` and the others), and no other unit changes. -/
theorem exec_keeps_inv {i : Instr} {s t : State} (hs : s.Inv) (h : exec i s = .next t) : t.Inv := by
  obtain ⟨hpk, hup, hen, hde⟩ := hs
  rcases instr_cases i with ⟨op, rfl⟩ | ⟨op, rfl⟩ | ⟨op, rfl⟩ | ⟨op, rfl⟩
  · rw [exec_pk] at h; cases h
    exact ⟨pkInv_accept _ op _ hpk, hup, hen, hde⟩
  · rw [exec_up] at h; cases h
    exact ⟨hpk, upInv_accept _ op _ hup, hen, hde⟩
  · rw [exec_en] at h; cases h
    exact ⟨hpk, hup, enInv_accept _ op _ hen, hde⟩
  · rw [exec_de] at h; cases h
    exact ⟨hpk, hup, hen, deInv_accept _ op _ hde⟩

theorem inv_keptByPieces : KeptByPieces State.Inv where
  script _ _ hs := hs
  resetPk _ := fun ⟨_, hup, hen, hde⟩ => ⟨pkInv_reset _, hup, hen, hde⟩
  resetUp _ := fun ⟨hpk, _, hen, hde⟩ => ⟨hpk, upInv_reset _, hen, hde⟩
  resetEn _ := fun ⟨hpk, hup, _, hde⟩ => ⟨hpk, hup, enInv_reset _, hde⟩
  resetDe _ := fun ⟨hpk, hup, hen, _⟩ => ⟨hpk, hup, hen, deInv_reset _⟩
  deliverPk s := (inv_deliverPk s).mpr
  deliverUp s := (inv_deliverUp s).mpr
  deliverEn s := (inv_deliverEn s).mpr
  deliverDe s := (inv_deliverDe s).mpr
  accept i s _ hs := exec_keeps_inv ((inv_note i s).mpr hs)

/-- R5: no piece of a step writes the capacity. -/
theorem config_keptByPieces (c : Config) : KeptByPieces fun s => s.config = c where
  script _ _ hs := hs
  resetPk _ hs := hs
  resetUp _ hs := hs
  resetEn _ hs := hs
  resetDe _ hs := hs
  deliverPk s hs := (deliverPk_config s).trans hs
  deliverUp s hs := (deliverUp_config s).trans hs
  deliverEn s hs := (deliverEn_config s).trans hs
  deliverDe s hs := (deliverDe_config s).trans hs
  accept i s _ hs h := (exec_config h).trans ((note_config i s).trans hs)

theorem step_config {s t : State} (h : step s = .next t) : t.config = s.config :=
  (config_keptByPieces s.config).of_step rfl h

/-! ## The ports (R88) -/

theorem mValid_iff {D α : Type} (u : UnitState D α) : u.mValid = true ↔ u.outq ≠ [] := by simp [UnitState.mValid]

theorem byteOutPorts_cons {D : Type} {u : UnitState D Byte} {b : Beat Byte} {q : List (Beat Byte)}
    (h : u.outq = b :: q) : byteOutPorts u = some (byteBeatPorts b) := by simp [byteOutPorts, h]

theorem bitOutPorts_cons {D : Type} {u : UnitState D BitOut} {b : Beat BitOut} {q : List (Beat BitOut)}
    (h : u.outq = b :: q) : bitOutPorts u = some (bitBeatPorts b) := by simp [bitOutPorts, h]

/-! ## The statements -/

/-- Settles O32: the invariant and the capacity are kept by every piece of a step. -/
theorem stepKeepsInvariant : Obligations.StepKeepsInvariant := by
  intro s t hs h
  exact ⟨inv_keptByPieces.of_step hs h, step_config h⟩

/-- Settles O28: by `exec_unitwise`, the same four functions answering in both states. -/
theorem opTouchesItsUnitOnly : Obligations.OpTouchesItsUnitOnly := by
  intro i s
  obtain ⟨f, g, h, k, hexec, hf, hg, hh, hk⟩ := exec_unitwise i
  refine ⟨_, hexec s, rfl, rfl, rfl, rfl, rfl, rfl, fun hu => hf hu _ _, fun hu => hg hu _ _, fun hu => hh hu _ _,
    fun hu => hk hu _ _, fun s' hc => ⟨_, hexec s', ?_, ?_, ?_, ?_⟩⟩ <;>
  · intro heq
    simp only [hc, heq]

/-- Settles O1: the reset state is written out in `State.resetWith`, and its capacity bounds are `Config`'s. -/
theorem resetStateValues : Obligations.ResetStateValues :=
  ⟨rfl, fun c => ⟨c.cap_pos, c.cap_le, rfl⟩, rfl, rfl, rfl, rfl, rfl, rfl, rfl, rfl, rfl, rfl, rfl, rfl, rfl⟩

/-- Settles O7: the outputs are read off the registers and the head of the queue. -/
theorem outputsShowRegisters : Obligations.OutputsShowRegisters :=
  ⟨fun s => ⟨rfl, rfl, rfl, rfl, mValid_iff s.pk, mValid_iff s.de, fun _ _ => byteOutPorts_cons,
      fun _ _ => bitOutPorts_cons⟩,
    fun _ => rfl, fun _ _ => rfl, fun _ _ => rfl, fun _ _ => rfl, rfl⟩

/-- Settles O31: each unit's reset registers meet its invariant, none being in mode RUN. -/
theorem invariantAtReset : Obligations.InvariantAtReset := ⟨inv_resetWith Config.hw, inv_resetWith⟩

end Sys2Proof.Machine
end

section
/-! SUPPORT. Ordering and logs (20_memory.md): what a placed word runs (R69), that the logs explain the units (R66, R68),
that events of disjoint units commute (R72), and the four statements of that family. -/

namespace Sys2Proof.Machine

open Sys2Proof

/-! ## The pieces of a step, in closed form -/

/-- A log after the delivery of the unit's oldest pending beat, if there is one (R88). -/
def logDelivery {D α : Type} (u : UnitState D α) (log : List (Obs α)) : List (Obs α) :=
  match u.outq with
  | [] => log
  | b :: _ => .delivered b :: log

section
variable {D α : Type} {u : UnitState D α}

theorem logDelivery_nil (h : u.outq = []) (log : List (Obs α)) : logDelivery u log = log := by simp [logDelivery, h]
theorem logDelivery_cons {b : Beat α} {q : List (Beat α)} (h : u.outq = b :: q) (log : List (Obs α)) :
    logDelivery u log = .delivered b :: log := by simp [logDelivery, h]

theorem dropHead_of_nil (h : u.outq = []) : u.dropHead = u := by
  cases u
  cases h
  rfl

end

theorem deliverPk_eq (s : State) : s.deliverPk = { s with pk := s.pk.dropHead, pkLog := logDelivery s.pk s.pkLog } := by
  unfold State.deliverPk
  split
  next h => rw [dropHead_of_nil h, logDelivery_nil h]
  next h => rw [logDelivery_cons h]
theorem deliverUp_eq (s : State) : s.deliverUp = { s with up := s.up.dropHead, upLog := logDelivery s.up s.upLog } := by
  unfold State.deliverUp
  split
  next h => rw [dropHead_of_nil h, logDelivery_nil h]
  next h => rw [logDelivery_cons h]
theorem deliverEn_eq (s : State) : s.deliverEn = { s with en := s.en.dropHead, enLog := logDelivery s.en s.enLog } := by
  unfold State.deliverEn
  split
  next h => rw [dropHead_of_nil h, logDelivery_nil h]
  next h => rw [logDelivery_cons h]
theorem deliverDe_eq (s : State) : s.deliverDe = { s with de := s.de.dropHead, deLog := logDelivery s.de s.deLog } := by
  unfold State.deliverDe
  split
  next h => rw [dropHead_of_nil h, logDelivery_nil h]
  next h => rw [logDelivery_cons h]

/-! An acceptance, with its note in the log, as one update of the op's unit. -/

theorem exec_note_pk (op : PkOp) (s : State) : exec (pkInstr op) (s.note (pkInstr op)) =
    .next { s with pk := pkAccept s.config op s.pk, pkLog := .accepted (pkInstr op) :: s.pkLog } := by cases op <;> rfl
theorem exec_note_up (op : UpOp) (s : State) : exec (upInstr op) (s.note (upInstr op)) =
    .next { s with up := upAccept s.config op s.up, upLog := .accepted (upInstr op) :: s.upLog } := by cases op <;> rfl
theorem exec_note_en (op : EnOp) (s : State) : exec (enInstr op) (s.note (enInstr op)) =
    .next { s with en := enAccept s.config op s.en, enLog := .accepted (enInstr op) :: s.enLog } := by cases op <;> rfl
theorem exec_note_de (op : DeOp) (s : State) : exec (deInstr op) (s.note (deInstr op)) =
    .next { s with de := deAccept s.config op s.de, deLog := .accepted (deInstr op) :: s.deLog } := by cases op <;> rfl

/-! ## The logs explain the units (R68) -/

section
variable {D α : Type} {c : Config} {unitOf : State → UnitState D α} {log : List (Obs α)} {u : UnitState D α}

/-- R241: a log that says nothing since the last reset explains the unit of the reset state. -/
theorem explains_reset (hops : opsSinceReset log = []) (hbeats : beatsSinceReset log = []) :
    Explains c unitOf log (unitOf (State.resetWith c)) :=
  ⟨State.resetWith c, by rw [hops]; rfl, by rw [hbeats]; rfl⟩

/-- R26: a delivery moves the head of the queue behind the beats delivered before it. -/
theorem Explains.deliver (h : Explains c unitOf log u) : Explains c unitOf (logDelivery u log) u.dropHead := by
  obtain ⟨t, hrun, hunit⟩ := h
  rcases hq : u.outq with _ | ⟨b, q⟩
  · rw [logDelivery_nil hq, dropHead_of_nil hq]
    exact ⟨t, hrun, hunit⟩
  · rw [logDelivery_cons hq]
    exact ⟨t, hrun, by simp [hunit, hq, UnitState.dropHead]⟩

/-- R66, R68: an op that acts on the unit blind to its pending beats does to it what it does to the unit that has
delivered nothing. -/
theorem Explains.accept {i : Instr} {f : UnitState D α → UnitState D α} (h : Explains c unitOf log u)
    (hexec : ∀ s, s.config = c → ∃ t, exec i s = .next t ∧ unitOf t = f (unitOf s))
    (hblind : ∀ q, f (u.prepend q) = (f u).prepend q) : Explains c unitOf (.accepted i :: log) (f u) := by
  obtain ⟨t, hrun, hunit⟩ := h
  obtain ⟨t', ht', hunit'⟩ := hexec t (execAll_config hrun)
  refine ⟨t', ?_, ?_⟩
  · rw [opsSinceReset_accepted, execAll_snoc hrun, ht']
  · calc unitOf t' = f (u.prepend (beatsSinceReset log)) := by rw [hunit', hunit]; rfl
      _ = (f u).prepend (beatsSinceReset log) := hblind _

end

theorem coherent_resetWith (c : Config) : (State.resetWith c).Coherent :=
  ⟨explains_reset rfl rfl, explains_reset rfl rfl, explains_reset rfl rfl, explains_reset rfl rfl⟩

/-- An accepted op extends its unit's explanation by one op; the other units keep theirs. -/
theorem exec_note_keeps_coherent {i : Instr} {s t : State} (hs : s.Coherent) (h : exec i (s.note i) = .next t) :
    t.Coherent := by
  obtain ⟨hpk, hup, hen, hde⟩ := hs
  rcases instr_cases i with ⟨op, rfl⟩ | ⟨op, rfl⟩ | ⟨op, rfl⟩ | ⟨op, rfl⟩
  · rw [exec_note_pk] at h; cases h
    exact ⟨hpk.accept (fun x hx => ⟨_, exec_pk op x, by rw [hx]⟩) fun q => pkAccept_prepend _ op q _, hup, hen, hde⟩
  · rw [exec_note_up] at h; cases h
    exact ⟨hpk, hup.accept (fun x hx => ⟨_, exec_up op x, by rw [hx]⟩) fun q => upAccept_prepend _ op q _, hen, hde⟩
  · rw [exec_note_en] at h; cases h
    exact ⟨hpk, hup, hen.accept (fun x hx => ⟨_, exec_en op x, by rw [hx]⟩) fun q => enAccept_prepend _ op q _, hde⟩
  · rw [exec_note_de] at h; cases h
    exact ⟨hpk, hup, hen, hde.accept (fun x hx => ⟨_, exec_de op x, by rw [hx]⟩) fun q => deAccept_prepend _ op q _⟩

theorem coherent_keptByPieces : KeptByPieces State.Coherent where
  script _ _ hs := hs
  resetPk _ := fun ⟨_, hup, hen, hde⟩ => ⟨explains_reset rfl rfl, hup, hen, hde⟩
  resetUp _ := fun ⟨hpk, _, hen, hde⟩ => ⟨hpk, explains_reset rfl rfl, hen, hde⟩
  resetEn _ := fun ⟨hpk, hup, _, hde⟩ => ⟨hpk, hup, explains_reset rfl rfl, hde⟩
  resetDe _ := fun ⟨hpk, hup, hen, _⟩ => ⟨hpk, hup, hen, explains_reset rfl rfl⟩
  deliverPk s := fun ⟨hpk, hup, hen, hde⟩ => deliverPk_eq s ▸ ⟨hpk.deliver, hup, hen, hde⟩
  deliverUp s := fun ⟨hpk, hup, hen, hde⟩ => deliverUp_eq s ▸ ⟨hpk, hup.deliver, hen, hde⟩
  deliverEn s := fun ⟨hpk, hup, hen, hde⟩ => deliverEn_eq s ▸ ⟨hpk, hup, hen.deliver, hde⟩
  deliverDe s := fun ⟨hpk, hup, hen, hde⟩ => deliverDe_eq s ▸ ⟨hpk, hup, hen, hde.deliver⟩
  accept _ _ _ := exec_note_keeps_coherent

/-! ## Events of disjoint units commute (R72) -/

/-- Two states agree on one unit: its registers, its pending beats and its log. -/
def SameUnit : UnitId → State → State → Prop
  | .pk, s, t => s.pk = t.pk ∧ s.pkLog = t.pkLog
  | .up, s, t => s.up = t.up ∧ s.upLog = t.upLog
  | .en, s, t => s.en = t.en ∧ s.enLog = t.enLog
  | .de, s, t => s.de = t.de ∧ s.deLog = t.deLog

theorem SameUnit.refl (u : UnitId) (s : State) : SameUnit u s s := by cases u <;> exact ⟨rfl, rfl⟩
theorem SameUnit.symm {u : UnitId} {s t : State} (h : SameUnit u s t) : SameUnit u t s := by
  cases u <;> exact ⟨h.1.symm, h.2.symm⟩
theorem SameUnit.trans {u : UnitId} {s t r : State} (h : SameUnit u s t) (h' : SameUnit u t r) : SameUnit u s r := by
  cases u <;> exact ⟨h.1.trans h'.1, h.2.trans h'.2⟩

/-- A state is its capacity, its script and its four units. -/
theorem state_eq_of_sameUnit {s t : State} (hc : s.config = t.config) (hs : s.script = t.script)
    (hu : ∀ u, SameUnit u s t) : s = t := by
  obtain ⟨hpk, hpkLog⟩ := hu .pk
  obtain ⟨hup, hupLog⟩ := hu .up
  obtain ⟨hen, henLog⟩ := hu .en
  obtain ⟨hde, hdeLog⟩ := hu .de
  cases s
  cases t
  simp_all

/-- A change of the state that writes the given units only, and whose result there depends on those units and the
capacity only. -/
structure LocalTo (us : List UnitId) (f : State → State) : Prop where
  config : ∀ s, (f s).config = s.config
  script : ∀ s, (f s).script = s.script
  frame : ∀ s, ∀ u ∉ us, SameUnit u (f s) s
  reads : ∀ s t, s.config = t.config → (∀ u ∈ us, SameUnit u s t) → ∀ u ∈ us, SameUnit u (f s) (f t)

section
variable {us vs : List UnitId} {f g : State → State}

/-- R72: on a unit of one change, the other neither writes it nor alters what the first reads. -/
theorem LocalTo.commute (hf : LocalTo us f) (hg : LocalTo vs g) (hd : ∀ u ∈ us, u ∉ vs) (s : State) :
    g (f s) = f (g s) := by
  refine state_eq_of_sameUnit (by simp only [hf.config, hg.config]) (by simp only [hf.script, hg.script]) fun u => ?_
  by_cases hu : u ∈ us
  · have hsame : SameUnit u (f (g s)) (f s) :=
      hf.reads _ _ (hg.config s) (fun v hv => hg.frame s v (hd v hv)) u hu
    exact (hg.frame (f s) u (hd u hu)).trans hsame.symm
  · by_cases hv : u ∈ vs
    · have hsame : SameUnit u (g (f s)) (g s) :=
        hg.reads _ _ (hf.config s) (fun v hv => hf.frame s v fun hvu => hd v hvu hv) u hv
      exact hsame.trans (hf.frame (g s) u hu).symm
    · exact ((hg.frame _ u hv).trans (hf.frame s u hu)).trans ((hf.frame _ u hu).trans (hg.frame s u hv)).symm

theorem LocalTo.id (us : List UnitId) : LocalTo us fun s => s :=
  ⟨fun _ => rfl, fun _ => rfl, fun s u _ => .refl u s, fun _ _ _ h => h⟩

theorem LocalTo.comp (hg : LocalTo us g) (hf : LocalTo us f) : LocalTo us fun s => g (f s) where
  config s := (hg.config _).trans (hf.config s)
  script s := (hg.script _).trans (hf.script s)
  frame s u hu := (hg.frame _ u hu).trans (hf.frame s u hu)
  reads s t hc h := hg.reads _ _ (by rw [hf.config, hf.config, hc]) (hf.reads s t hc h)

theorem LocalTo.mono (hf : LocalTo us f) (hsub : us ⊆ vs) : LocalTo vs f where
  config := hf.config
  script := hf.script
  frame s u hu := hf.frame s u fun h => hu (hsub h)
  reads s t hc h u hu := by
    by_cases hus : u ∈ us
    · exact hf.reads s t hc (fun v hv => h v (hsub hv)) u hus
    · exact ((hf.frame s u hus).trans (h u hu)).trans (hf.frame t u hus).symm

/-- Which change is made may depend on what is read of the units. -/
theorem LocalTo.choose {β : Type} {read : State → β} {f : β → State → State}
    (hread : ∀ s t, (∀ u ∈ us, SameUnit u s t) → read s = read t) (hf : ∀ x, LocalTo us (f x)) :
    LocalTo us fun s => f (read s) s where
  config s := (hf _).config s
  script s := (hf _).script s
  frame s := (hf _).frame s
  reads s t hc h := by
    rw [hread s t h]
    exact (hf _).reads s t hc h

end

/-! Any function of the capacity, one unit and its log is local to that unit. -/

theorem localTo_pk (f : Config → PkUnit → PkUnit) (g : PkUnit → List (Obs Byte) → List (Obs Byte)) :
    LocalTo [.pk] fun s => { s with pk := f s.config s.pk, pkLog := g s.pk s.pkLog } where
  config _ := rfl
  script _ := rfl
  frame s u hu := by cases u <;> simp_all [SameUnit]
  reads s t hc h u hu := by cases u <;> simp_all [SameUnit]
theorem localTo_up (f : Config → UpUnit → UpUnit) (g : UpUnit → List (Obs BitOut) → List (Obs BitOut)) :
    LocalTo [.up] fun s => { s with up := f s.config s.up, upLog := g s.up s.upLog } where
  config _ := rfl
  script _ := rfl
  frame s u hu := by cases u <;> simp_all [SameUnit]
  reads s t hc h u hu := by cases u <;> simp_all [SameUnit]
theorem localTo_en (f : Config → EnUnit → EnUnit) (g : EnUnit → List (Obs Byte) → List (Obs Byte)) :
    LocalTo [.en] fun s => { s with en := f s.config s.en, enLog := g s.en s.enLog } where
  config _ := rfl
  script _ := rfl
  frame s u hu := by cases u <;> simp_all [SameUnit]
  reads s t hc h u hu := by cases u <;> simp_all [SameUnit]
theorem localTo_de (f : Config → DeUnit → DeUnit) (g : DeUnit → List (Obs BitOut) → List (Obs BitOut)) :
    LocalTo [.de] fun s => { s with de := f s.config s.de, deLog := g s.de s.deLog } where
  config _ := rfl
  script _ := rfl
  frame s u hu := by cases u <;> simp_all [SameUnit]
  reads s t hc h u hu := by cases u <;> simp_all [SameUnit]

theorem resetPkUnit_local : LocalTo [.pk] State.resetPkUnit := localTo_pk (fun _ _ => resetPk) fun _ => (.reset :: ·)
theorem resetUpUnit_local : LocalTo [.up] State.resetUpUnit := localTo_up (fun _ _ => resetUp) fun _ => (.reset :: ·)
theorem resetEnUnit_local : LocalTo [.en] State.resetEnUnit := localTo_en (fun _ _ => resetEn) fun _ => (.reset :: ·)
theorem resetDeUnit_local : LocalTo [.de] State.resetDeUnit := localTo_de (fun _ _ => resetDe) fun _ => (.reset :: ·)

theorem deliverPk_local : LocalTo [.pk] State.deliverPk :=
  funext deliverPk_eq ▸ localTo_pk (fun _ u => u.dropHead) logDelivery
theorem deliverUp_local : LocalTo [.up] State.deliverUp :=
  funext deliverUp_eq ▸ localTo_up (fun _ u => u.dropHead) logDelivery
theorem deliverEn_local : LocalTo [.en] State.deliverEn :=
  funext deliverEn_eq ▸ localTo_en (fun _ u => u.dropHead) logDelivery
theorem deliverDe_local : LocalTo [.de] State.deliverDe :=
  funext deliverDe_eq ▸ localTo_de (fun _ u => u.dropHead) logDelivery

/-- An action that always completes, as a change local to the given units. -/
def ActsOn (us : List UnitId) (act : State → Host.Outcome State Fault Refusal) : Prop :=
  ∃ f, LocalTo us f ∧ ∀ s, act s = .next (f s)

/-- R20, R66: accepting an op, its note in the log included, acts on the op's unit alone. -/
theorem exec_note_actsOn (i : Instr) : ActsOn [i.unit] fun s => exec i (s.note i) := by
  rcases instr_cases i with ⟨op, rfl⟩ | ⟨op, rfl⟩ | ⟨op, rfl⟩ | ⟨op, rfl⟩
  · rw [pkInstr_unit]
    exact ⟨_, localTo_pk (pkAccept · op) fun _ => (.accepted (pkInstr op) :: ·), exec_note_pk op⟩
  · rw [upInstr_unit]
    exact ⟨_, localTo_up (upAccept · op) fun _ => (.accepted (upInstr op) :: ·), exec_note_up op⟩
  · rw [enInstr_unit]
    exact ⟨_, localTo_en (enAccept · op) fun _ => (.accepted (enInstr op) :: ·), exec_note_en op⟩
  · rw [deInstr_unit]
    exact ⟨_, localTo_de (deAccept · op) fun _ => (.accepted (deInstr op) :: ·), exec_note_de op⟩

@[simp] theorem decodePk_unit (w : BitVec 10) : (decodePk w).unit = .pk := by unfold decodePk; split <;> rfl
@[simp] theorem decodeUp_unit (w : BitVec 34) : (decodeUp w).unit = .up := by unfold decodeUp; split <;> rfl
@[simp] theorem decodeEn_unit (w : BitVec 3) : (decodeEn w).unit = .en := by unfold decodeEn; split <;> rfl
@[simp] theorem decodeDe_unit (w : BitVec 34) : (decodeDe w).unit = .de := by unfold decodeDe; split <;> rfl

/-- R88: an edge acts on its unit alone. -/
theorem applyEdge_actsOn {w : Nat} {e : Edge w} {u : UnitId} {resetUnit deliver : State → State}
    {decode : BitVec w → Instr} (hreset : LocalTo [u] resetUnit) (hdeliver : LocalTo [u] deliver)
    (hdecode : ∀ x, (decode x).unit = u) : ActsOn [u] (applyEdge e resetUnit deliver decode) := by
  by_cases hrst : e.rst
  · exact ⟨resetUnit, hreset, fun s => by rw [applyEdge, if_pos hrst]⟩
  · have hmid : LocalTo [u] fun s => if e.takes then deliver s else s := by
      by_cases ht : e.takes
      · simpa only [if_pos ht] using hdeliver
      · simpa only [if_neg ht] using LocalTo.id [u]
    by_cases hacc : e.accepts
    · obtain ⟨f, hf, hexec⟩ := exec_note_actsOn (decode e.sWord)
      rw [hdecode] at hf
      exact ⟨_, hf.comp hmid, fun s => by simp [applyEdge, hrst, hacc, hexec]⟩
    · exact ⟨_, hmid, fun s => by simp [applyEdge, hrst, hacc]⟩

/-- R201: with a beat pending, it is delivered and its op accepted downstream; the choice is read off the queue. -/
theorem link_actsOn {β : Type} {us : List UnitId} {queue : State → List β} {deliver : State → State} {op : β → Instr}
    {act : State → Host.Outcome State Fault Refusal}
    (hqueue : ∀ s t, (∀ u ∈ us, SameUnit u s t) → queue s = queue t) (hdeliver : LocalTo us deliver)
    (hop : ∀ b, (op b).unit ∈ us) (hnil : ∀ s, queue s = [] → act s = .next s)
    (hcons : ∀ s b q, queue s = b :: q → act s = exec (op b) ((deliver s).note (op b))) : ActsOn us act := by
  choose f hf hexec using fun i => exec_note_actsOn i
  refine ⟨_, LocalTo.choose (f := fun q s => q.head?.elim s fun b => f (op b) (deliver s)) hqueue fun q => ?_, fun s => ?_⟩
  · cases q with
    | nil => exact .id us
    | cons b q => exact ((hf (op b)).mono (by simpa using hop b)).comp hdeliver
  · rcases hq : queue s with _ | ⟨b, q⟩
    · exact hnil s hq
    · exact (hcons s b q hq).trans (hexec (op b) _)

theorem applyLink_actsOn (l : Link) : ActsOn (Event.link l).units (applyLink l) := by
  cases l with
  | pkToUp =>
    exact link_actsOn (us := [.pk, .up]) (queue := fun s => s.pk.outq) (op := fun b => upInstr (gluePkUp b))
      (fun s t h => by rw [(h .pk (by simp)).1]) (deliverPk_local.mono (by simp)) (by simp)
      (fun s h => by simp only [applyLink, h]) (fun s b q h => by simp only [applyLink, h])
  | upToEn =>
    exact link_actsOn (us := [.up, .en]) (queue := fun s => s.up.outq) (op := fun b => enInstr (glueUpEn b))
      (fun s t h => by rw [(h .up (by simp)).1]) (deliverUp_local.mono (by simp)) (by simp)
      (fun s h => by simp only [applyLink, h]) (fun s b q h => by simp only [applyLink, h])
  | enToDe =>
    exact link_actsOn (us := [.en, .de]) (queue := fun s => s.en.outq) (op := fun b => deInstr (glueEnDe b))
      (fun s t h => by rw [(h .en (by simp)).1]) (deliverEn_local.mono (by simp)) (by simp)
      (fun s h => by simp only [applyLink, h]) (fun s b q h => by simp only [applyLink, h])

/-- R72: an event writes and reads no unit but those it concerns. -/
theorem applyEvent_actsOn (ev : Event) : ActsOn ev.units (applyEvent ev) := by
  cases ev with
  | pk e => exact applyEdge_actsOn resetPkUnit_local deliverPk_local decodePk_unit
  | up e => exact applyEdge_actsOn resetUpUnit_local deliverUp_local decodeUp_unit
  | en e => exact applyEdge_actsOn resetEnUnit_local deliverEn_local decodeEn_unit
  | de e => exact applyEdge_actsOn resetDeUnit_local deliverDe_local decodeDe_unit
  | link l => exact applyLink_actsOn l

/-! ## A placed word is the next op (R69) -/

/-- R92: what decodes as a word of a channel fits the channel. -/
theorem lt_of_decodeWord_ok {u : UnitId} {w : Nat} {i : Instr} (h : decodeWord u w = .ok i) : w < 2 ^ u.wordWidth := by
  by_contra hw
  simp [decodeWord, hw] at h

/-- R88: the edge that offers a word has its op accepted, and nothing delivered. -/
theorem applyEvent_offer {u : UnitId} {w : Nat} {i : Instr} (h : decodeWord u w = .ok i) (s : State) :
    applyEvent (offer u w) s = exec i (s.note i) := by
  simp only [decodeWord, if_pos (lt_of_decodeWord_ok h)] at h
  cases u <;> cases h <;> rfl

/-- A number that reads as an op names a channel and a word of it. -/
theorem decodeTableWord_some {nbits w : Nat} {i : Instr} (h : decodeTableWord nbits w = some i) :
    ∃ u word, tableFormat nbits w = .ok (u, word) ∧ decodeWord u word = .ok i := by
  unfold decodeTableWord decodeTable at h
  rcases hf : tableFormat nbits w with e | ⟨u, word⟩
  · simp [hf] at h
  · rcases hd : decodeWord u word with e | j
    · simp [hf, hd] at h
    · simp only [hf, hd, Option.some.injEq] at h
      exact ⟨u, word, rfl, h ▸ hd⟩

theorem withFetchWord_eq {s : State} {nbits w : Nat} {u : UnitId} {word : Nat}
    (hf : tableFormat nbits w = .ok (u, word)) (hw : word < 2 ^ u.wordWidth) :
    s.withFetchWord nbits w = { s with script := offer u word :: s.script } := by
  simp only [State.withFetchWord, State.offerTableWord, hf, if_pos hw]

/-! ## The statements -/

/-- Settles O34: coherence is kept by every piece of a step. -/
theorem stepKeepsLogsTrue : Obligations.StepKeepsLogsTrue := fun _ _ => coherent_keptByPieces.of_step

/-- Settles O29: two events are changes local to disjoint units, and such changes commute. -/
theorem unitsCommute : Obligations.UnitsCommute := by
  intro s a b hd
  obtain ⟨f, hf, ha⟩ := applyEvent_actsOn a
  obtain ⟨g, hg, hb⟩ := applyEvent_actsOn b
  refine ⟨f s, g s, g (f s), ha s, hb _, hb s, ?_⟩
  rw [ha, hf.commute hg hd]

/-- Settles O5: the word is placed as an edge at the head of the script, and that edge runs its op. -/
theorem fetchedWordRuns : Obligations.FetchedWordRuns := by
  intro s nbits w i h
  obtain ⟨u, word, hf, hd⟩ := decodeTableWord_some h
  rw [withFetchWord_eq hf (lt_of_decodeWord_ok hd)]
  exact applyEvent_offer hd s

/-- Settles O33: at reset every log is empty, and every unit is as reset leaves it. -/
theorem logsExplainUnitsAtReset : Obligations.LogsExplainUnitsAtReset := ⟨coherent_resetWith Config.hw, coherent_resetWith⟩

end Sys2Proof.Machine
end

section
/-! SUPPORT. Encoding (30_encoding.md): every op word is a class above an operand field, decoding and encoding in that
form (R80 to R92), the assembler's acceptance of operands (R89), what an edge does with an offered word and with the
queue (R88), and the seven statements of that family. -/

namespace Sys2Proof

/-! ## A word is a class above an operand field (R80 to R84) -/

/-- R80: the number of a class in the op field. -/
def OpClass.bits : OpClass → Nat
  | .start => 0
  | .data => 1
  | .close => 2
  | .rsvd => 3

theorem OpClass.bits_lt (c : OpClass) : c.bits < 4 := by cases c <;> decide

theorem OpClass.exists_bits {b : Nat} (h : b < 4) : ∃ c : OpClass, c.bits = b := by
  match b, h with
  | 0, _ => exact ⟨.start, rfl⟩
  | 1, _ => exact ⟨.data, rfl⟩
  | 2, _ => exact ⟨.close, rfl⟩
  | 3, _ => exact ⟨.rsvd, rfl⟩

/-- R80: the op field that holds a class's number names the class. -/
@[simp] theorem opClass_ofNat_bits (c : OpClass) : opClass (BitVec.ofNat 2 c.bits) = c := by cases c <;> decide

theorem OpClass.bits_injective {c d : OpClass} (h : c.bits = d.bits) : c = d := by
  rw [← opClass_ofNat_bits c, h, opClass_ofNat_bits]

/-- The width of the operand field of a unit's words: all bits below the op field (R81 to R84). -/
def UnitId.argWidth : UnitId → Nat
  | .pk => 8
  | .up => 32
  | .en => 1
  | .de => 32

theorem UnitId.wordWidth_eq (u : UnitId) : u.wordWidth = u.argWidth + 2 := by cases u <;> rfl

/-- The word of a class with `x` in its operand field of `n` bits. -/
def opWord (n : Nat) (c : OpClass) (x : Nat) : Nat := 2 ^ n * c.bits + x

section
variable {n x : Nat} (c : OpClass)

theorem opWord_lt (hx : x < 2 ^ n) : opWord n c x < 2 ^ (n + 2) := by
  have hc := Nat.mul_le_mul_left (2 ^ n) (Nat.le_of_lt_succ c.bits_lt)
  rw [opWord, Nat.pow_add]
  omega

theorem testBit_opWord (hx : x < 2 ^ n) (k : Nat) :
    (opWord n c x).testBit k = if k < n then x.testBit k else c.bits.testBit (k - n) :=
  Nat.testBit_two_pow_mul_add c.bits hx k

/-- R80: the op field of a word holds its class's number. -/
theorem extractLsb'_opWord_op (hx : x < 2 ^ n) :
    (BitVec.ofNat (n + 2) (opWord n c x)).extractLsb' n 2 = BitVec.ofNat 2 c.bits := by
  refine BitVec.eq_of_getLsbD_eq fun k hk => ?_
  simp [-BitVec.getLsbD_eq_getElem, BitVec.getLsbD_extractLsb', BitVec.getLsbD_ofNat, testBit_opWord c hx, hk]

/-- R81 to R84: a field below the op field reads the operand field alone. -/
theorem extractLsb'_opWord_arg {start len : Nat} (hx : x < 2 ^ n) (hfit : start + len ≤ n) :
    (BitVec.ofNat (n + 2) (opWord n c x)).extractLsb' start len = BitVec.ofNat len (x / 2 ^ start) := by
  refine BitVec.eq_of_getLsbD_eq fun k hk => ?_
  have hn : start + k < n := by omega
  have hn2 : start + k < n + 2 := by omega
  simp [-BitVec.getLsbD_eq_getElem, BitVec.getLsbD_extractLsb', BitVec.getLsbD_ofNat, testBit_opWord c hx,
    Nat.testBit_div_two_pow, hk, hn, hn2, Nat.add_comm k start]

/-- R92: masking the op field of a word leaves its class's number, in place. -/
theorem opWord_and_mask (hx : x < 2 ^ n) : opWord n c x &&& 2 ^ n * 3 = 2 ^ n * c.bits := by
  have hmask : c.bits &&& 3 = c.bits := by cases c <;> decide
  refine Nat.eq_of_testBit_eq fun k => ?_
  rw [Nat.testBit_and, testBit_opWord c hx, Nat.testBit_two_pow_mul, Nat.testBit_two_pow_mul]
  by_cases hk : k < n
  · simp [hk, Nat.not_le_of_lt hk]
  · simp only [hk, Nat.le_of_not_lt hk, if_false, decide_true, Bool.true_and, ← Nat.testBit_and, hmask]

/-- R85: clearing the operand field of a word leaves its class. -/
theorem opWord_clear_arg (hx : x < 2 ^ n) : opWord n c 0 = opWord n c x / 2 ^ n * 2 ^ n := by
  rw [opWord, opWord, Nat.mul_add_div (Nat.two_pow_pos n), Nat.div_eq_of_lt hx, Nat.add_zero, Nat.add_zero,
    Nat.mul_comm]

/-- R82, R84: the low bits of a word are those of its operand field. -/
theorem opWord_mod_two_pow {m : Nat} (hm : m ≤ n) : opWord n c x % 2 ^ m = x % 2 ^ m := by
  obtain ⟨k, rfl⟩ := Nat.exists_eq_add_of_le hm
  rw [opWord, Nat.pow_add, Nat.mul_assoc, Nat.mul_add_mod]

end

/-- R92: every word of the channel's width is a class above an operand field. -/
theorem exists_opWord {n w : Nat} (hw : w < 2 ^ (n + 2)) : ∃ c x, x < 2 ^ n ∧ w = opWord n c x := by
  have hb : w / 2 ^ n < 4 := Nat.div_lt_of_lt_mul (by rwa [Nat.pow_add] at hw)
  obtain ⟨c, hc⟩ := OpClass.exists_bits hb
  exact ⟨c, w % 2 ^ n, Nat.mod_lt _ (Nat.two_pow_pos n), by rw [opWord, hc, Nat.div_add_mod]⟩

/-! ## The op a word's class and operand field stand for (R81 to R84) -/

/-- The op of a unit and a class with `x` in its operand field. -/
def instrOf : UnitId → OpClass → Nat → Instr
  | .pk, .start, _ => .pkStart
  | .pk, .data, x => .pkData (BitVec.ofNat 8 x)
  | .pk, .close, _ => .pkEnd
  | .pk, .rsvd, _ => .pkRsvd
  | .up, .start, x => .upStart (BitVec.ofNat 16 (x / 2 ^ 16)) (BitVec.ofNat 16 x)
  | .up, .data, x => .upData (BitVec.ofNat 8 x)
  | .up, .close, _ => .upEnd
  | .up, .rsvd, _ => .upRsvd
  | .en, .start, _ => .enStart
  | .en, .data, x => .enData (x.testBit 0)
  | .en, .close, _ => .enEnd
  | .en, .rsvd, _ => .enRsvd
  | .de, .start, x => .deStart (BitVec.ofNat 16 (x / 2 ^ 16)) (BitVec.ofNat 16 x)
  | .de, .data, x => .deData (BitVec.ofNat 8 x)
  | .de, .close, _ => .deEnd
  | .de, .rsvd, _ => .deRsvd

@[simp] theorem instrOf_unit (u : UnitId) (c : OpClass) (x : Nat) : (instrOf u c x).unit = u := by
  cases u <;> cases c <;> rfl

@[simp] theorem instrOf_cls (u : UnitId) (c : OpClass) (x : Nat) : (instrOf u c x).cls = c := by
  cases u <;> cases c <;> rfl

section
variable {x : Nat} (c : OpClass)

theorem decodePk_opWord (hx : x < 2 ^ 8) : decodePk (BitVec.ofNat 10 (opWord 8 c x)) = instrOf .pk c x := by
  have helem := extractLsb'_opWord_arg (start := 0) (len := 8) c hx (by omega)
  rw [decodePk, extractLsb'_opWord_op c hx, opClass_ofNat_bits, helem]
  cases c <;> simp [instrOf]

theorem decodeUp_opWord (hx : x < 2 ^ 32) : decodeUp (BitVec.ofNat 34 (opWord 32 c x)) = instrOf .up c x := by
  have hrows := extractLsb'_opWord_arg (start := 16) (len := 16) c hx (by omega)
  have hcols := extractLsb'_opWord_arg (start := 0) (len := 16) c hx (by omega)
  have hbyte := extractLsb'_opWord_arg (start := 0) (len := 8) c hx (by omega)
  rw [decodeUp, extractLsb'_opWord_op c hx, opClass_ofNat_bits, hrows, hcols, hbyte]
  cases c <;> simp [instrOf]

theorem decodeEn_opWord (hx : x < 2 ^ 1) : decodeEn (BitVec.ofNat 3 (opWord 1 c x)) = instrOf .en c x := by
  have hbit : (BitVec.ofNat 3 (opWord 1 c x)).getLsbD 0 = x.testBit 0 := by
    rw [BitVec.getLsbD_ofNat, testBit_opWord c hx]
    simp
  rw [decodeEn, extractLsb'_opWord_op c hx, opClass_ofNat_bits, hbit]
  cases c <;> rfl

theorem decodeDe_opWord (hx : x < 2 ^ 32) : decodeDe (BitVec.ofNat 34 (opWord 32 c x)) = instrOf .de c x := by
  have hrows := extractLsb'_opWord_arg (start := 16) (len := 16) c hx (by omega)
  have hcols := extractLsb'_opWord_arg (start := 0) (len := 16) c hx (by omega)
  have hentry := extractLsb'_opWord_arg (start := 0) (len := 8) c hx (by omega)
  rw [decodeDe, extractLsb'_opWord_op c hx, opClass_ofNat_bits, hrows, hcols, hentry]
  cases c <;> simp [instrOf]

end

/-- R92: a word of a channel decodes to the op of its class and operand field. -/
theorem decodeWord_opWord (u : UnitId) (c : OpClass) {x : Nat} (hx : x < 2 ^ u.argWidth) :
    decodeWord u (opWord u.argWidth c x) = .ok (instrOf u c x) := by
  have hw : opWord u.argWidth c x < 2 ^ u.wordWidth := by
    rw [u.wordWidth_eq]
    exact opWord_lt c hx
  simp only [decodeWord, if_pos hw]
  cases u with
  | pk => exact congrArg _ (decodePk_opWord c hx)
  | up => exact congrArg _ (decodeUp_opWord c hx)
  | en => exact congrArg _ (decodeEn_opWord c hx)
  | de => exact congrArg _ (decodeDe_opWord c hx)

/-- R92: a number decodes exactly when it is a word, and then to the op of its class and operand field. -/
theorem decodeWord_ok_cases {u : UnitId} {w : Nat} {i : Instr} (h : decodeWord u w = .ok i) :
    ∃ c x, x < 2 ^ u.argWidth ∧ w = opWord u.argWidth c x ∧ i = instrOf u c x := by
  have hw := Machine.lt_of_decodeWord_ok h
  rw [u.wordWidth_eq] at hw
  obtain ⟨c, x, hx, rfl⟩ := exists_opWord hw
  rw [decodeWord_opWord u c hx] at h
  cases h
  exact ⟨c, x, hx, rfl, rfl⟩

/-! ## The canonical word of an op (R91) -/

/-- What the canonical word of an op holds in its operand field. -/
def Instr.arg : Instr → Nat
  | .pkData e => e.toNat
  | .upStart r c | .deStart r c => r.toNat * 2 ^ 16 + c.toNat
  | .upData v | .deData v => v.toNat
  | .enData b => b.toNat
  | .pkStart | .pkEnd | .pkRsvd | .upEnd | .upRsvd | .enStart | .enEnd | .enRsvd | .deEnd | .deRsvd => 0

theorem Instr.arg_lt (i : Instr) : i.arg < 2 ^ i.unit.argWidth := by
  cases i with
  | pkData e => exact e.isLt
  | upStart r c | deStart r c =>
    show r.toNat * 2 ^ 16 + c.toNat < 2 ^ 32
    omega
  | upData v | deData v => exact v.isLt.trans (show 2 ^ 8 < 2 ^ 32 by decide)
  | enData b => exact Bool.toNat_lt b
  | pkStart | pkEnd | pkRsvd | upEnd | upRsvd | enStart | enEnd | enRsvd | deEnd | deRsvd => exact Nat.two_pow_pos _

/-- R91: the canonical word is the class above that operand field. -/
theorem encode_eq_opWord (i : Instr) : encode i = opWord i.unit.argWidth i.cls i.arg := by
  cases i <;> simp [encode, opWord, Instr.unit, Instr.cls, Instr.arg, UnitId.argWidth, OpClass.bits]

/-- The op is read back from its class and operand field. -/
theorem instrOf_arg (i : Instr) : instrOf i.unit i.cls i.arg = i := by
  cases i with
  | upStart r c | deStart r c =>
    have hrows : BitVec.ofNat 16 ((r.toNat * 2 ^ 16 + c.toNat) / 2 ^ 16) = r :=
      BitVec.eq_of_toNat_eq (by rw [BitVec.toNat_ofNat]; omega)
    have hcols : BitVec.ofNat 16 (r.toNat * 2 ^ 16 + c.toNat) = c :=
      BitVec.eq_of_toNat_eq (by rw [BitVec.toNat_ofNat]; omega)
    simp only [Instr.unit, Instr.cls, Instr.arg, instrOf, hrows, hcols]
  | enData b => cases b <;> rfl
  | pkData v | upData v | deData v => simp [Instr.unit, Instr.cls, Instr.arg, instrOf]
  | pkStart | pkEnd | pkRsvd | upEnd | upRsvd | enStart | enEnd | enRsvd | deEnd | deRsvd => rfl

/-! ## The opcode table (R92) -/

/-- Every row tests the op field, and for the number of the row's class. -/
theorem opcodeTable_rows : ∀ r ∈ opcodeTable, r.mask = 2 ^ r.mnemonic.unit.argWidth * 3 ∧
    r.pattern = 2 ^ r.mnemonic.unit.argWidth * r.mnemonic.cls.bits := by decide

/-- R92: a row of the unit's table matches a word exactly when its class is the word's. -/
theorem row_matches_iff {r : Row} (hr : r ∈ opcodeTable) {u : UnitId} {c : OpClass} {x : Nat}
    (hx : x < 2 ^ u.argWidth) :
    (r.mnemonic.unit = u ∧ opWord u.argWidth c x &&& r.mask = r.pattern) ↔ r.mnemonic = ⟨u, c⟩ := by
  obtain ⟨hmask, hpattern⟩ := opcodeTable_rows r hr
  rw [hmask, hpattern]
  constructor
  · rintro ⟨rfl, h⟩
    rw [opWord_and_mask c hx] at h
    rw [OpClass.bits_injective (Nat.eq_of_mul_eq_mul_left (Nat.two_pow_pos _) h)]
  · intro h
    rw [h]
    exact ⟨rfl, opWord_and_mask c hx⟩

/-- The table has one row for each mnemonic. -/
theorem opcodeTable_filter_mnemonic (u : UnitId) (c : OpClass) :
    (opcodeTable.filter fun r => decide (r.mnemonic = ⟨u, c⟩)).map Row.mnemonic = [⟨u, c⟩] := by
  cases u <;> cases c <;> rfl

/-- R83: a number of one bit is its bit 0. -/
theorem toNat_testBit_zero {x : Nat} (hx : x < 2 ^ 1) : (x.testBit 0).toNat = x := by
  rw [Nat.toNat_testBit, Nat.pow_zero, Nat.div_one]
  exact Nat.mod_eq_of_lt hx

/-! ## The statements on words -/

/-- Settles O8: a canonical word is a class above an operand field, from which the op is read back. -/
theorem decodeEncodeAgree : Obligations.DecodeEncodeAgree := by
  intro i
  rw [encode_eq_opWord, decodeWord_opWord _ _ i.arg_lt, instrOf_arg]

/-- Settles O9: the rows of a unit test the op field for the classes, one row for each class. -/
theorem tableIsUnambiguous : Obligations.TableIsUnambiguous := by
  refine fun u w => ⟨fun hw => ?_, fun hw => by simp only [decodeWord, if_neg (Nat.not_lt.2 hw)]⟩
  rw [u.wordWidth_eq] at hw
  obtain ⟨c, x, hx, rfl⟩ := exists_opWord hw
  refine ⟨instrOf u c x, decodeWord_opWord u c hx, instrOf_unit u c x, ?_⟩
  rw [List.filter_congr fun r hr => decide_eq_decide.2 (row_matches_iff hr hx), opcodeTable_filter_mnemonic,
    Instr.mnemonic, instrOf_unit, instrOf_cls]

/-- Settles O10: class by class, `encode` keeps of the operand field what the class's fields cover. -/
theorem ignoredBitsDoNotMatter : Obligations.IgnoredBitsDoNotMatter := by
  intro u w i h
  obtain ⟨c, x, hx, rfl, rfl⟩ := decodeWord_ok_cases h
  have hclear := opWord_clear_arg c hx
  rw [encode_eq_opWord, instrOf_unit, instrOf_cls]
  cases u with
  | pk =>
    cases c with
    | data => exact congrArg (opWord 8 .data) ((BitVec.toNat_ofNat x 8).trans (Nat.mod_eq_of_lt hx))
    | start | close | rsvd => exact hclear
  | en =>
    cases c with
    | data => exact congrArg (opWord 1 .data) (toNat_testBit_zero hx)
    | start | close | rsvd => exact hclear
  | up | de =>
    cases c with
    | start =>
      have hshape : (BitVec.ofNat 16 (x / 2 ^ 16)).toNat * 2 ^ 16 + (BitVec.ofNat 16 x).toNat = x := by
        have hx32 : x < 2 ^ 32 := hx
        rw [BitVec.toNat_ofNat, BitVec.toNat_ofNat]
        omega
      exact congrArg (opWord 32 .start) hshape
    | data =>
      show 2 ^ 32 * 1 + (BitVec.ofNat 8 x).toNat = _ / 2 ^ 32 * 2 ^ 32 + opWord 32 .data x % 2 ^ 8
      rw [BitVec.toNat_ofNat, opWord_mod_two_pow _ (by omega)]
      exact congrArg (· + x % 2 ^ 8) hclear
    | close | rsvd => exact hclear

end Sys2Proof

namespace Sys2Proof.Machine

open Sys2Proof

/-! ## The assembler's operands (R89) -/

theorem operandsFit_iff (ws vs : List Nat) :
    operandsFit ws vs = true ↔ List.Forall₂ (fun w v => v < 2 ^ w) ws vs := by
  induction ws generalizing vs with
  | nil => cases vs <;> simp [operandsFit]
  | cons w ws ih => cases vs <;> simp [operandsFit, ih]

/-- R89: every op is well formed in its raw form, which the family `EncodeFits` says op by op. -/
theorem wellFormed_toRaw : ∀ i : Instr, i.toRaw.wellFormed = true
  | .pkStart => Laws.EncodeFits.pkStart.2
  | .pkData e => (Laws.EncodeFits.pkData e).2
  | .pkEnd => Laws.EncodeFits.pkEnd.2
  | .pkRsvd => Laws.EncodeFits.pkRsvd.2
  | .upStart r c => (Laws.EncodeFits.upStart r c).2
  | .upData v => (Laws.EncodeFits.upData v).2
  | .upEnd => Laws.EncodeFits.upEnd.2
  | .upRsvd => Laws.EncodeFits.upRsvd.2
  | .enStart => Laws.EncodeFits.enStart.2
  | .enData b => (Laws.EncodeFits.enData b).2
  | .enEnd => Laws.EncodeFits.enEnd.2
  | .enRsvd => Laws.EncodeFits.enRsvd.2
  | .deStart r c => (Laws.EncodeFits.deStart r c).2
  | .deData e => (Laws.EncodeFits.deData e).2
  | .deEnd => Laws.EncodeFits.deEnd.2
  | .deRsvd => Laws.EncodeFits.deRsvd.2

/-- R89: operands that fit a mnemonic's fields are those of an op. -/
theorem exists_toRaw_eq_of_fit : ∀ (m : Mnemonic) (vs : List Nat),
    List.Forall₂ (fun w v => v < 2 ^ w) m.fieldWidths vs → ∃ i : Instr, i.toRaw = ⟨m, vs⟩
  | ⟨.pk, .start⟩, _, .nil => ⟨.pkStart, rfl⟩
  | ⟨.pk, .data⟩, _, .cons hv .nil => ⟨.pkData (BitVec.ofNatLT _ hv), rfl⟩
  | ⟨.pk, .close⟩, _, .nil => ⟨.pkEnd, rfl⟩
  | ⟨.pk, .rsvd⟩, _, .nil => ⟨.pkRsvd, rfl⟩
  | ⟨.up, .start⟩, _, .cons hr (.cons hc .nil) => ⟨.upStart (BitVec.ofNatLT _ hr) (BitVec.ofNatLT _ hc), rfl⟩
  | ⟨.up, .data⟩, _, .cons hv .nil => ⟨.upData (BitVec.ofNatLT _ hv), rfl⟩
  | ⟨.up, .close⟩, _, .nil => ⟨.upEnd, rfl⟩
  | ⟨.up, .rsvd⟩, _, .nil => ⟨.upRsvd, rfl⟩
  | ⟨.en, .start⟩, _, .nil => ⟨.enStart, rfl⟩
  | ⟨.en, .data⟩, _, .cons (b := v) hv .nil =>
    ⟨.enData (v.testBit 0), congrArg (fun x => (⟨⟨.en, .data⟩, [x]⟩ : RawOp)) (toNat_testBit_zero hv)⟩
  | ⟨.en, .close⟩, _, .nil => ⟨.enEnd, rfl⟩
  | ⟨.en, .rsvd⟩, _, .nil => ⟨.enRsvd, rfl⟩
  | ⟨.de, .start⟩, _, .cons hr (.cons hc .nil) => ⟨.deStart (BitVec.ofNatLT _ hr) (BitVec.ofNatLT _ hc), rfl⟩
  | ⟨.de, .data⟩, _, .cons hv .nil => ⟨.deData (BitVec.ofNatLT _ hv), rfl⟩
  | ⟨.de, .close⟩, _, .nil => ⟨.deEnd, rfl⟩
  | ⟨.de, .rsvd⟩, _, .nil => ⟨.deRsvd, rfl⟩

/-- R89: every well-formed raw op is the raw form of an op. -/
theorem exists_toRaw_eq {r : RawOp} (h : r.wellFormed = true) : ∃ i : Instr, i.toRaw = r :=
  exists_toRaw_eq_of_fit r.mnemonic r.operands ((operandsFit_iff _ _).1 h)

/-- R89: the assembler makes of an op's raw form that op. -/
theorem toInstr_toRaw (i : Instr) : RawOp.toInstr i.toRaw = .ok i := by
  rw [RawOp.toInstr, if_pos (wellFormed_toRaw i)]
  cases i with
  | pkData v | upData v | deData v => simp [Instr.toRaw, Instr.mnemonic, Instr.unit, Instr.cls]
  | upStart r c | deStart r c => simp [Instr.toRaw, Instr.mnemonic, Instr.unit, Instr.cls]
  | enData b => cases b <;> rfl
  | pkStart | pkEnd | pkRsvd | upEnd | upRsvd | enStart | enEnd | enRsvd | deEnd | deRsvd => rfl

/-- R89: an operand that does not fit its field is refused. -/
theorem wellFormed_of_toInstr_ok {r : RawOp} {i : Instr} (h : RawOp.toInstr r = .ok i) : r.wellFormed = true := by
  by_contra hr
  rw [RawOp.toInstr, if_neg hr] at h
  cases h

/-- R90: a repetition between other ops is its ops that many times, in place. -/
theorem expandRept_rept (n : Nat) (before body after : List RawOp) :
    expandRept [.ops before, .rept n, .ops body, .endr, .ops after] [] []
      = .ok (before ++ (List.replicate n body).flatten ++ after) := rfl

/-- Settles O12: the well-formed raw ops are exactly the raw forms of ops, each of which assembles to its op. -/
theorem assemblerAcceptsWhatFits : Obligations.AssemblerAcceptsWhatFits := by
  have honly : ∀ (r : RawOp) (i : Instr), RawOp.toInstr r = .ok i → i.toRaw = r := by
    intro r i h
    obtain ⟨j, rfl⟩ := exists_toRaw_eq (wellFormed_of_toInstr_ok h)
    rw [toInstr_toRaw] at h
    cases h
    rfl
  refine ⟨fun r => ⟨fun ⟨_, h⟩ => wellFormed_of_toInstr_ok h, fun h => ?_⟩, honly, toInstr_toRaw, expandRept_rept⟩
  obtain ⟨i, rfl⟩ := exists_toRaw_eq h
  exact ⟨i, toInstr_toRaw i⟩

/-! ## An edge with an offered word, or with none (R88) -/

theorem step_of_script_cons {s : State} {ev : Event} {rest : List Event} (h : s.script = ev :: rest) :
    step s = applyEvent ev { s with script := rest } := by
  simp only [step, nextEvent, h]

theorem step_of_script_nil {s : State} (h : s.script = []) : step s = .next s := by
  simp only [step, nextEvent, h]

theorem note_of_pk {i : Instr} (h : i.unit = .pk) (s : State) :
    s.note i = { s with pkLog := .accepted i :: s.pkLog } := by
  simp only [State.note, h]
theorem note_of_up {i : Instr} (h : i.unit = .up) (s : State) :
    s.note i = { s with upLog := .accepted i :: s.upLog } := by
  simp only [State.note, h]
theorem note_of_en {i : Instr} (h : i.unit = .en) (s : State) :
    s.note i = { s with enLog := .accepted i :: s.enLog } := by
  simp only [State.note, h]
theorem note_of_de {i : Instr} (h : i.unit = .de) (s : State) :
    s.note i = { s with deLog := .accepted i :: s.deLog } := by
  simp only [State.note, h]

/-- Settles O3: the edge delivers first if it may, then has the decoded op accepted. -/
theorem stepRunsDecodedOp : Obligations.StepRunsDecodedOp := by
  refine fun s rest take => ⟨
    fun w h => ⟨?_, note_of_pk (decodePk_unit w)⟩, fun w h => ⟨?_, note_of_up (decodeUp_unit w)⟩,
    fun w h => ⟨?_, note_of_en (decodeEn_unit w)⟩, fun w h => ⟨?_, note_of_de (decodeDe_unit w)⟩⟩ <;>
  · rw [step_of_script_cons h]
    rfl

theorem dropHead_of_cons {D α : Type} {u : UnitState D α} {b : Beat α} {q : List (Beat α)} (h : u.outq = b :: q) :
    u.dropHead = { u with outq := q } := by
  rw [UnitState.dropHead, h, List.tail_cons]

section
variable (s : State)

theorem deliverPk_of_nil (h : s.pk.outq = []) : s.deliverPk = s := by
  rw [deliverPk_eq, dropHead_of_nil h, logDelivery_nil h]
theorem deliverUp_of_nil (h : s.up.outq = []) : s.deliverUp = s := by
  rw [deliverUp_eq, dropHead_of_nil h, logDelivery_nil h]
theorem deliverEn_of_nil (h : s.en.outq = []) : s.deliverEn = s := by
  rw [deliverEn_eq, dropHead_of_nil h, logDelivery_nil h]
theorem deliverDe_of_nil (h : s.de.outq = []) : s.deliverDe = s := by
  rw [deliverDe_eq, dropHead_of_nil h, logDelivery_nil h]

theorem deliverPk_of_cons (b q) (h : s.pk.outq = b :: q) :
    s.deliverPk = { s with pk := { s.pk with outq := q }, pkLog := .delivered b :: s.pkLog } := by
  rw [deliverPk_eq, dropHead_of_cons h, logDelivery_cons h]
theorem deliverUp_of_cons (b q) (h : s.up.outq = b :: q) :
    s.deliverUp = { s with up := { s.up with outq := q }, upLog := .delivered b :: s.upLog } := by
  rw [deliverUp_eq, dropHead_of_cons h, logDelivery_cons h]
theorem deliverEn_of_cons (b q) (h : s.en.outq = b :: q) :
    s.deliverEn = { s with en := { s.en with outq := q }, enLog := .delivered b :: s.enLog } := by
  rw [deliverEn_eq, dropHead_of_cons h, logDelivery_cons h]
theorem deliverDe_of_cons (b q) (h : s.de.outq = b :: q) :
    s.deliverDe = { s with de := { s.de with outq := q }, deLog := .delivered b :: s.deLog } := by
  rw [deliverDe_eq, dropHead_of_cons h, logDelivery_cons h]

end

/-- R88: an edge without reset and without an op delivers the head of the queue if `m_ready = 1` and there is one, and
else changes nothing. -/
theorem applyEdge_of_no_op {w : Nat} {e : Edge w} {resetUnit deliver : State → State} {decode : BitVec w → Instr}
    {s : State} {β : Type} {queue : List β} {delivered : β → List β → State}
    (hcons : ∀ b q, queue = b :: q → deliver s = delivered b q) (hnil : queue = [] → deliver s = s)
    (hrst : e.rst = false) (hop : (e.sValid && e.sReady) = false) :
    (∀ b q, e.mReady = true → queue = b :: q → applyEdge e resetUnit deliver decode s = .next (delivered b q)) ∧
    (e.mReady = false ∨ queue = [] → applyEdge e resetUnit deliver decode s = .next s) := by
  have hacc : e.accepts = false := by rw [Edge.accepts, Bool.and_assoc, hop, Bool.and_false]
  have htakes : e.takes = e.mReady := by rw [Edge.takes, hrst, Bool.not_false, Bool.true_and]
  have hedge : applyEdge e resetUnit deliver decode s = .next (if e.mReady then deliver s else s) := by
    simp [applyEdge, hrst, hacc, htakes]
  rw [hedge]
  refine ⟨fun b q hready hq => by rw [if_pos hready, hcons b q hq], ?_⟩
  rintro (hready | hq)
  · simp [hready]
  · rw [hnil hq, ite_self]

/-- Settles O4: without an op an edge is at most a delivery, and an empty script leaves the state. -/
theorem edgeDeliversHead : Obligations.EdgeDeliversHead := by
  refine ⟨fun s => step_of_script_nil, fun s rest => ⟨fun e hrst hop h => ?_, fun e hrst hop h => ?_,
    fun e hrst hop h => ?_, fun e hrst hop h => ?_⟩⟩ <;>
  rw [step_of_script_cons h]
  · exact applyEdge_of_no_op (deliverPk_of_cons { s with script := rest })
      (deliverPk_of_nil { s with script := rest }) hrst hop
  · exact applyEdge_of_no_op (deliverUp_of_cons { s with script := rest })
      (deliverUp_of_nil { s with script := rest }) hrst hop
  · exact applyEdge_of_no_op (deliverEn_of_cons { s with script := rest })
      (deliverEn_of_nil { s with script := rest }) hrst hop
  · exact applyEdge_of_no_op (deliverDe_of_cons { s with script := rest })
      (deliverDe_of_nil { s with script := rest }) hrst hop

/-- Settles O11: closed words, which `decide` runs through the four decoders. -/
theorem wordsDecodeAsWritten : Obligations.WordsDecodeAsWritten := by
  unfold Obligations.WordsDecodeAsWritten
  decide

end Sys2Proof.Machine
end

section
/-! SUPPORT. bitops (40_bitops.md): the three functions in the rules' own words and in arithmetic, and the two
statements of that family. -/

namespace Sys2Proof.Machine

open Sys2Proof

/-! ## The written bit, and every other bit as before (R101, R102) -/

theorem setBit_writes (byte : Byte) {i : Nat} (hi : i ≤ 7) : ∃ r : Byte, setBit byte i = .ok r ∧
    r.getLsbD i = true ∧ ∀ k, k < 8 → k ≠ i → r.getLsbD k = byte.getLsbD k := by
  obtain ⟨r, hr, hbits⟩ := setBit_bits (byte := byte) hi
  exact ⟨r, hr, by simp [hbits i (by omega)], fun k hk hki => by simp [hbits k hk, hki]⟩

theorem clearBit_writes (byte : Byte) {i : Nat} (hi : i ≤ 7) : ∃ r : Byte, clearBit byte i = .ok r ∧
    r.getLsbD i = false ∧ ∀ k, k < 8 → k ≠ i → r.getLsbD k = byte.getLsbD k := by
  obtain ⟨r, hr, hbits⟩ := clearBit_bits (byte := byte) hi
  exact ⟨r, hr, by simp [hbits i (by omega)], fun k hk hki => by simp [hbits k hk, hki]⟩

/-- R103: each of the three rejects an index above 7. -/
theorem bitops_index_error (byte : Byte) {i : Nat} (hi : 7 < i) : getBit byte i = .error .invalidBitIndex ∧
    setBit byte i = .error .invalidBitIndex ∧ clearBit byte i = .error .invalidBitIndex :=
  have h : ¬ i ≤ 7 := Nat.not_le.mpr hi
  ⟨if_neg h, if_neg h, if_neg h⟩

/-! ## Bits in arithmetic (R100 to R102, R104) -/

theorem byte_bit_toNat (byte : Byte) (k : Nat) : (byte.getLsbD k).toNat = byte.toNat / 2 ^ k % 2 :=
  Nat.toNat_testBit byte.toNat k

/-- Two bytes that agree at bit `i` and at every other bit are equal. -/
theorem byte_ext_at {a b : Byte} (i : Nat) (hi : a.getLsbD i = b.getLsbD i)
    (hrest : ∀ k, k < 8 → k ≠ i → a.getLsbD k = b.getLsbD k) : a = b := by
  refine byte_ext fun k hk => ?_
  by_cases hki : k = i
  · rw [hki, hi]
  · exact hrest k hk hki

/-- A byte whose only change is bit `i`, from 0 to 1, grows by `2^i`: the two summands share no bit, so no carry. -/
theorem toNat_of_raised_bit {a b : Byte} {i : Nat} (hi : i ≤ 7) (ha : a.getLsbD i = false) (hb : b.getLsbD i = true)
    (hrest : ∀ k, k < 8 → k ≠ i → b.getLsbD k = a.getLsbD k) : b.toNat = a.toNat + 2 ^ i := by
  have hdisjoint : a &&& BitVec.twoPow 8 i = 0#8 := by
    rw [BitVec.and_twoPow, ha, if_neg Bool.false_ne_true]
  have hsum : b = a + BitVec.twoPow 8 i := by
    rw [BitVec.add_eq_or_of_and_eq_zero _ _ hdisjoint]
    refine byte_ext_at i ?_ fun k hk hki => ?_ <;> rw [BitVec.getLsbD_or, BitVec.getLsbD_twoPow]
    · simp [hb, Nat.lt_succ_of_le hi]
    · simp [hrest k hk hki, hki.symm]
  rw [hsum, BitVec.toNat_add_of_and_eq_zero hdisjoint, BitVec.toNat_twoPow_of_lt (Nat.lt_succ_of_le hi)]

/-- R101. -/
theorem setBit_toNat (byte : Byte) {i : Nat} (hi : i ≤ 7) : ∃ r : Byte, setBit byte i = .ok r ∧
    r.toNat = if byte.toNat / 2 ^ i % 2 = 0 then byte.toNat + 2 ^ i else byte.toNat := by
  obtain ⟨r, hr, hset, hrest⟩ := setBit_writes byte hi
  refine ⟨r, hr, ?_⟩
  rw [← byte_bit_toNat]
  cases hbit : byte.getLsbD i with
  | false => exact toNat_of_raised_bit hi hbit hset hrest
  | true => exact congrArg BitVec.toNat (byte_ext_at i (hset.trans hbit.symm) hrest)

/-- R102: the byte is the cleared one with its bit raised again. -/
theorem clearBit_toNat (byte : Byte) {i : Nat} (hi : i ≤ 7) : ∃ r : Byte, clearBit byte i = .ok r ∧
    r.toNat = if byte.toNat / 2 ^ i % 2 = 1 then byte.toNat - 2 ^ i else byte.toNat := by
  obtain ⟨r, hr, hclear, hrest⟩ := clearBit_writes byte hi
  refine ⟨r, hr, ?_⟩
  rw [← byte_bit_toNat]
  cases hbit : byte.getLsbD i with
  | false => exact congrArg BitVec.toNat (byte_ext_at i (hclear.trans hbit.symm) hrest)
  | true =>
    have hraised : byte.toNat = r.toNat + 2 ^ i :=
      toNat_of_raised_bit hi hclear hbit fun k hk hki => (hrest k hk hki).symm
    exact Nat.eq_sub_of_add_eq hraised.symm

/-- The binary digits of a number below place `n`, weighted, are its value mod `2^n`. -/
theorem sum_binary_digits (x n : Nat) : ((List.range n).map fun k => x / 2 ^ k % 2 * 2 ^ k).sum = x % 2 ^ n := by
  induction n with
  | zero => exact (Nat.mod_one x).symm
  | succ n ih =>
    rw [List.range_succ, List.map_append, List.sum_append, ih, List.map_singleton, List.sum_singleton, Nat.mod_pow_succ,
      Nat.mul_comm]

/-- R104: a byte is the sum of what `getBit` reads times powers of 2. -/
theorem byte_eq_sum_getBit (byte : Byte) : byte.toNat = ((List.range 8).map fun k =>
    (match getBit byte k with | .ok b => b.toNat | .error _ => 0) * 2 ^ k).sum := by
  rw [← Nat.mod_eq_of_lt byte.isLt, ← sum_binary_digits]
  refine congrArg List.sum (List.map_congr_left fun k hk => ?_)
  rw [getBit_ok (Nat.le_of_lt_succ (List.mem_range.mp hk)), ← byte_bit_toNat]

/-! ## The statements -/

/-- Settles O26: raising a 0 bit adds its power of 2, clearing undoes that, and a bit already as wanted stays. -/
theorem bitopsResults : Obligations.BitopsResults := fun byte index =>
  ⟨fun hi => ⟨⟨_, getBit_ok hi, byte_bit_toNat byte index⟩, setBit_toNat byte hi, clearBit_toNat byte hi⟩,
    bitops_index_error byte⟩

/-- Settles O27: the two writes are known bit by bit, and the weighted bits below place 8 are the whole byte. -/
theorem bitopsLaws : Obligations.BitopsLaws := by
  intro byte i j hi hj
  obtain ⟨r, hr, hset, hrestSet⟩ := setBit_writes byte hi
  obtain ⟨c, hc, hclear, hrestClear⟩ := clearBit_writes byte hi
  have hj8 : j < 8 := Nat.lt_succ_of_le hj
  refine ⟨r, c, hr, hc, ?_, ?_, fun hij => ⟨?_, ?_⟩, byte_eq_sum_getBit byte⟩
  · rw [getBit_ok hi, hset]
  · rw [getBit_ok hi, hclear]
  · rw [getBit_ok hj, getBit_ok hj, hrestSet j hj8 hij.symm]
  · rw [getBit_ok hj, getBit_ok hj, hrestClear j hj8 hij.symm]

end Sys2Proof.Machine
end

section
/-! SUPPORT. `bit_packer` (41_bit_packer.md): the ops by mode, whole frames of the machine, the reserved ops
of the four units, and the seven statements of that family. -/

namespace Sys2Proof.Machine

open Sys2Proof

/-! ## A `raise` in mode RUN, and the reserved class in each mode (R86, R93) -/

section
variable {D α A P : Type} {S : A → UnitState D α → Act (UnitState D α)} {T : P → UnitState D α → Act (UnitState D α)}
  {E : UnitState D α → Act (UnitState D α)} {u : UnitState D α}

/-- R211: in mode RUN a `raise` sets the code and the mode, and nothing else. -/
theorem raise_of_run (h : u.mode = .run) (e : ErrCode) : u.raise e = { u with mode := .err, err := e } :=
  UnitState.raise_of_ne (by simp [h]) e

/-- R211: a DATA that raises changes the code and the mode, and nothing else. -/
theorem accept_run_data_fails (h : u.mode = .run) {p : P} {e : ErrCode} (hT : T p u = u.fail e) :
    accept S T E (.data p) u = { u with mode := .err, err := e } := by
  rw [accept_run_data h, hT]
  exact raise_of_run h e

theorem accept_run_start_raises (h : u.mode = .run) (a : A) :
    accept S T E (.start a) u = { u with mode := .err, err := .protocolViolation } := by
  rw [accept_run_start h, raise_of_run h]

theorem accept_idle_data_rejected (h : u.mode = .idle) (p : P) :
    accept S T E (.data p) u = { u with mode := .err, err := .protocolViolation, nIn := 0, nOut := 0 } := by
  rw [accept_idle_data h, UnitState.openRejected_of_idle h]

theorem accept_idle_rsvd_rejected (h : u.mode = .idle) :
    accept S T E .rsvd u = { u with mode := .err, err := .protocolViolation, nIn := 0, nOut := 0 } := by
  rw [accept_idle_rsvd h, UnitState.openRejected_of_idle h]

theorem accept_run_rsvd_raises (h : u.mode = .run) :
    accept S T E .rsvd u = { u with mode := .err, err := .protocolViolation } := by
  rw [accept_run_rsvd h, raise_of_run h]

end

section
variable {s : State}

theorem exec_pk_of_accept {op : PkOp} {u : PkUnit} (h : pkAccept s.config op s.pk = u) :
    exec (pkInstr op) s = .next { s with pk := u } := h ▸ exec_pk op s
theorem exec_up_of_accept {op : UpOp} {u : UpUnit} (h : upAccept s.config op s.up = u) :
    exec (upInstr op) s = .next { s with up := u } := h ▸ exec_up op s
theorem exec_en_of_accept {op : EnOp} {u : EnUnit} (h : enAccept s.config op s.en = u) :
    exec (enInstr op) s = .next { s with en := u } := h ▸ exec_en op s
theorem exec_de_of_accept {op : DeOp} {u : DeUnit} (h : deAccept s.config op s.de = u) :
    exec (deInstr op) s = .next { s with de := u } := h ▸ exec_de op s

end

/-! ## PK.DATA and PK.END by outcome (R111, R112) -/

/-- R111: where bit `i` was 0, placing the element `n` there adds `n * 2^i`. -/
theorem placed_toNat {acc a : Byte} {i n : Nat} (hi : i ≤ 7) (hn : n ≤ 1) (hzero : acc.getLsbD i = false)
    (hbits : ∀ k, k < 8 → a.getLsbD k = if k = i then decide (n = 1) else acc.getLsbD k) :
    a.toNat = acc.toNat + n * 2 ^ i := by
  have hplaced : a.getLsbD i = decide (n = 1) := by rw [hbits i (Nat.lt_succ_of_le hi), if_pos rfl]
  have hrest : ∀ k, k < 8 → k ≠ i → a.getLsbD k = acc.getLsbD k := fun k hk hki => by rw [hbits k hk, if_neg hki]
  rcases Nat.le_one_iff_eq_zero_or_eq_one.mp hn with rfl | rfl
  · rw [byte_ext_at i (hplaced.trans hzero.symm) hrest, Nat.zero_mul, Nat.add_zero]
  · rw [toNat_of_raised_bit hi hzero hplaced hrest, Nat.one_mul]

theorem pkAccept_run_close_whole {u : PkUnit} (c : Config) (h : u.mode = .run) (hpos : u.dp.bitpos = 0) :
    pkAccept c .close u = { u with mode := .idle, outq := u.outq ++ [.done u.err u.nOut] } := by
  rw [pkAccept, accept_run_close h, pkEndAct, if_neg (not_not.mpr hpos)]
  rfl

theorem pkAccept_run_close_partial {u : PkUnit} (c : Config) (h : u.mode = .run) (hpos : u.dp.bitpos ≠ 0) :
    pkAccept c .close u = { u with
      mode := .idle, nOut := u.nOut + 1, dp := ⟨0, 0⟩,
      outq := u.outq ++ [.data u.dp.acc, .done u.err (u.nOut + 1)] } := by
  rw [pkAccept, accept_run_close h, pkEndAct, if_pos hpos]
  simp [UnitState.closeFrame, UnitState.emitData, UnitState.emit]

/-- R112: END of a frame of `n_in` elements leaves `n_out = ceil8(n_in)`, the partial byte being counted. -/
theorem pkAccept_run_close_count {c : Config} {u : PkUnit} (h : u.mode = .run) (hinv : PkInv c u) :
    (pkAccept c .close u).nOut.toNat = ceil8 u.nIn.toNat ∧ (pkAccept c .close u).err = .noError ∧
      ceil8 u.nIn.toNat ≤ c.cap := by
  obtain ⟨⟨hin, -, -, -, herr⟩, hrun⟩ := hinv
  obtain ⟨hpos, hout, -⟩ := hrun h
  have hcap := c.cap_le
  have hle : ceil8 u.nIn.toNat ≤ c.cap := by unfold ceil8; omega
  by_cases h0 : u.dp.bitpos = 0
  · have hwhole : u.nIn.toNat % 8 = 0 := by rw [← hpos, h0]; rfl
    rw [pkAccept_run_close_whole c h h0]
    exact ⟨by rw [hout]; unfold ceil8; omega, herr h, hle⟩
  · have hpartial : u.nIn.toNat % 8 ≠ 0 := fun hc => h0 (BitVec.eq_of_toNat_eq (hpos.trans hc))
    rw [pkAccept_run_close_partial c h h0]
    exact ⟨by rw [count_succ hout (by omega)]; unfold ceil8; omega, herr h, hle⟩

/-! ## Frames of the machine (R115, R116) -/

/-- R115: in the middle of a frame the machine's packer is `pkMid`. -/
theorem execAll_pkStart_elems {s : State} (hidle : s.pk.mode = .idle) {R : List Bit} (h : R.length ≤ s.config.cap) :
    execAll (.pkStart :: R.map fun b => .pkData (bitElem b)) s = .next { s with pk := pkMid s.pk.outq R } := by
  have hops : (.pkStart :: R.map fun b => .pkData (bitElem b)) =
      (.start () :: R.map fun b => .data (bitElem b)).map pkInstr := by simp [pkInstr, Function.comp_def]
  rw [hops, execAll_pk, pkRun_elems s.pk hidle h]

/-- R115: the bytes out after `n` elements are the first `n div 8` of the frame's. -/
theorem whole_bytes_of_take {R : List Bit} {n : Nat} (hn : n ≤ R.length) :
    (List.range ((R.take n).length / 8)).map (packByte (R.take n)) = (pack R).take (n / 8) := by
  have hm : n / 8 ≤ ceil8 R.length := by unfold ceil8; omega
  rw [pack, ← List.map_take, List.take_range, Nat.min_eq_left hm, List.length_take_of_le hn]
  refine List.map_congr_left fun j hj => ?_
  have hj : j < n / 8 := List.mem_range.mp hj
  conv_rhs => rw [← List.take_append_drop n R]
  exact (packByte_append_of_full (by rw [List.length_take_of_le hn]; omega) _).symm

/-- R116: a frame with an element the packer rejects, of which the whole bytes before it and the code come out. -/
theorem execAll_pkFrame_raises {s : State} (hidle : s.pk.mode = .idle) {good : List Bit}
    (h : good.length ≤ s.config.cap) {bad : Byte} (rest : List Byte) {e : ErrCode}
    (hbad : pkDataAct s.config bad (pkMid s.pk.outq good) = (pkMid s.pk.outq good).fail e) :
    ∃ t : State, execAll ((pkFrame (good.map bitElem ++ bad :: rest)).map pkInstr) s = .next t ∧
      t.pk.mode = .idle ∧
      t.pk.outq = s.pk.outq ++ ((List.range (good.length / 8)).map fun j => .data (packByte good j)) ++
        [.done e (BitVec.ofNat 16 (good.length / 8))] := by
  refine ⟨_, execAll_pk _ s, ?_⟩
  rw [pkRun_frame_raises s.pk hidle h bad rest e hbad]
  exact ⟨rfl, rfl⟩

/-! ## The statements -/

/-- Settles O40: `pkMid` is the packer in the middle of a frame. -/
theorem packerStreamsBytes : Obligations.PackerStreamsBytes := fun _ _ hidle h => execAll_pkStart_elems hidle h

/-- Settles O41: the first `n` elements of a legal raster are one too, and their whole bytes are bytes of the raster's. -/
theorem packFrameIsPack : Obligations.PackFrameIsPack := by
  intro s R hidle h
  refine ⟨fun n hn => ⟨_, execAll_pkStart_elems hidle ((List.length_take_le' n R).trans h), ?_⟩, ?_⟩
  · rw [← whole_bytes_of_take hn, List.map_map]
    rfl
  · rw [execAll_pk, pkRun_frame s.pk hidle h]

/-- Settles O42: the element after the legal ones raises, for its value below the capacity and for its place at it. -/
theorem packErrorFrames : Obligations.PackErrorFrames := by
  intro s good bad rest hidle
  refine ⟨fun hlt hbad => ?_, fun hfull => ?_⟩
  · have hroom : (pkMid s.pk.outq good).nIn.toNat ≠ s.config.cap := by rw [pkMid_nIn hlt.le]; exact hlt.ne
    exact execAll_pkFrame_raises hidle hlt.le rest (pkDataAct_illegal hroom hbad)
  · have hnone : (pkMid s.pk.outq good).nIn.toNat = s.config.cap := by rw [pkMid_nIn hfull.le, hfull]
    rw [← hfull]
    exact execAll_pkFrame_raises hidle hfull.le rest (pkDataAct_full hnone bad)

/-- Settles O13: START in each row of the dispatch table. -/
theorem pkStartOpensFrame : Obligations.PkStartOpensFrame :=
  ⟨fun w hw => by rw [decodePk, hw]; rfl, fun s =>
    ⟨fun hidle => exec_pk_of_accept (accept_idle_start hidle ()),
    fun hrun => exec_pk_of_accept (accept_run_start_raises hrun ()),
    fun herr => exec_pk_of_accept (op := .start ()) (accept_err_of_ne_close herr nofun)⟩⟩

/-- Settles O14: in mode RUN by capacity, value and place of the element. -/
theorem pkDataPacksElement : Obligations.PkDataPacksElement := by
  refine ⟨fun w hw => by rw [decodePk, hw]; rfl, fun elem s => ⟨fun hidle => ?_, fun herr => ?_, fun hrun hfull => ?_,
    fun hrun hroom hbad => ?_, fun hrun hroom hlegal => ?_⟩⟩
  · exact exec_pk_of_accept (accept_idle_data_rejected hidle elem)
  · exact exec_pk_of_accept (op := .data elem) (accept_err_of_ne_close herr nofun)
  · exact exec_pk_of_accept (accept_run_data_fails hrun (pkDataAct_full hfull elem))
  · exact exec_pk_of_accept (accept_run_data_fails hrun (pkDataAct_illegal hroom hbad))
  · obtain ⟨a, hbits, hact⟩ := pkDataAct_legal hroom hlegal
    have hpos : s.pk.dp.bitpos.toNat ≤ 7 := Nat.le_of_lt_succ s.pk.dp.bitpos.isLt
    refine ⟨a, hbits, fun hzero => placed_toNat hpos hlegal (hzero _ le_rfl) hbits,
      fun hlast => exec_pk_of_accept (op := .data elem) ?_, fun hmore => exec_pk_of_accept (op := .data elem) ?_⟩
    · rw [pkAccept, accept_run_data hrun, hact, if_pos hlast]
      rfl
    · rw [pkAccept, accept_run_data hrun, hact, if_neg hmore]
      rfl

/-- Settles O15: END in each row of the dispatch table, in mode RUN with and without a partial byte. -/
theorem pkEndFlushesAndCloses : Obligations.PkEndFlushesAndCloses :=
  ⟨fun w hw => by rw [decodePk, hw]; rfl, fun s =>
    ⟨fun hidle => exec_pk_of_accept (accept_idle_close hidle),
    fun herr => exec_pk_of_accept (accept_err_close herr),
    fun hrun hpos => exec_pk_of_accept (pkAccept_run_close_whole _ hrun hpos),
    fun hrun hpos => exec_pk_of_accept (pkAccept_run_close_partial _ hrun hpos),
    fun hrun hinv => ⟨_, exec_pk .close s, pkAccept_run_close_count hrun hinv⟩⟩⟩

/-- Settles O25: the reserved class in each row of the dispatch table, which is the same for the four units. -/
theorem reservedOpsRaise : Obligations.ReservedOpsRaise :=
  ⟨fun w hw => by rw [decodePk, hw]; rfl, fun w hw => by rw [decodeUp, decodeDe, hw]; exact ⟨rfl, rfl⟩,
    fun w hw => by rw [decodeEn, hw]; rfl, fun s =>
    ⟨fun h => exec_pk_of_accept (accept_idle_rsvd_rejected h), fun h => exec_pk_of_accept (accept_run_rsvd_raises h),
    fun h => exec_pk_of_accept (op := .rsvd) (accept_err_of_ne_close h nofun),
    fun h => exec_up_of_accept (accept_idle_rsvd_rejected h), fun h => exec_up_of_accept (accept_run_rsvd_raises h),
    fun h => exec_up_of_accept (op := .rsvd) (accept_err_of_ne_close h nofun),
    fun h => exec_en_of_accept (accept_idle_rsvd_rejected h), fun h => exec_en_of_accept (accept_run_rsvd_raises h),
    fun h => exec_en_of_accept (op := .rsvd) (accept_err_of_ne_close h nofun),
    fun h => exec_de_of_accept (accept_idle_rsvd_rejected h), fun h => exec_de_of_accept (accept_run_rsvd_raises h),
    fun h => exec_de_of_accept (op := .rsvd) (accept_err_of_ne_close h nofun), rfl⟩⟩

end Sys2Proof.Machine
end

section
/-! SUPPORT. `bit_unpacker` (42_bit_unpacker.md): the ops by outcome, whole frames of the machine, and the five
statements of that family. -/

namespace Sys2Proof.Machine

open Sys2Proof

/-! ## UP.START, UP.DATA and UP.END by outcome (R130 to R132) -/

/-- R130: START in mode IDLE. The shape stands in its registers whatever the tests say of it. -/
theorem upAccept_idle_start {u : UpUnit} (h : u.mode = .idle) (c : Config) (rows cols : Dim) :
    upAccept c (.start (rows, cols)) u =
      ⟨if rows.toNat = 0 ∨ cols.toNat = 0 ∨ c.cap < rows.toNat * cols.toNat then .err else .run,
       if rows.toNat = 0 ∨ cols.toNat = 0 then .protocolViolation
       else if c.cap < rows.toNat * cols.toNat then .capacityExceeded else .noError,
       0, 0, ShapeRegs.ofShape rows cols, u.outq⟩ := by
  rw [upAccept, accept_idle_start h, upStartAct]
  by_cases hzero : rows.toNat = 0 ∨ cols.toNat = 0
  · rw [checkShape_zero hzero, if_pos (hzero.imp_right .inl), if_pos hzero]
    rfl
  · obtain ⟨hrows, hcols⟩ : 1 ≤ rows.toNat ∧ 1 ≤ cols.toNat := by omega
    by_cases hbig : c.cap < rows.toNat * cols.toNat
    · rw [checkShape_big hrows hcols hbig, if_pos (.inr (.inr hbig)), if_neg hzero, if_pos hbig]
      rfl
    · rw [checkShape_ok hrows hcols (not_lt.mp hbig), if_neg (by omega), if_neg hzero, if_neg hbig]
      rfl

/-- R134: the beats of the bits `f 0, f 1, ...`. -/
theorem bitBeats_map_range (cols col m : Nat) (f : Nat → Bit) :
    bitBeats cols col ((List.range m).map f) =
      (List.range m).map fun k => .data ⟨f k, decide ((col + k) % cols = cols - 1)⟩ := by
  apply List.ext_getElem <;> simp [bitBeats]

/-- R131: DATA in mode RUN while the frame wants bits. -/
theorem upAccept_run_data {u : UpUnit} (c : Config) (h : u.mode = .run) (hcol : u.dp.col.toNat < u.dp.cols.toNat)
    (htotal : u.dp.total.toNat < 2 ^ 16) (hlt : u.nOut.toNat < u.dp.total.toNat) (byte : Byte) {m : Nat}
    (hm : m = min 8 (u.dp.total.toNat - u.nOut.toNat)) :
    upAccept c (.data byte) u = { u with
      nIn := u.nIn + 1
      nOut := BitVec.ofNat 16 (u.nOut.toNat + m)
      dp := u.dp.after m
      outq := u.outq ++ (List.range m).map fun k =>
        .data ⟨byte.getLsbD k, decide ((u.dp.col.toNat + k) % u.dp.cols.toNat = u.dp.cols.toNat - 1)⟩ } := by
  rw [upAccept, accept_run_data h, upDataAct_emits hcol htotal hlt, ← hm, ← bitBeats_map_range]
  simp [upAfter, BitVec.ofNat_add]

/-- R132: END in mode RUN with bits still wanted. -/
theorem upAccept_run_close_short {u : UpUnit} (c : Config) (h : u.mode = .run) (hlt : u.nOut.toNat < u.dp.total.toNat) :
    upAccept c .close u = { u with
      mode := .idle, err := .protocolViolation, outq := u.outq ++ [.done .protocolViolation u.nOut] } := by
  rw [upAccept, accept_run_close h, upEndAct, if_pos hlt, UnitState.fail, raise_of_run h]
  rfl

/-- R132: END in mode RUN with no bit wanted any more. -/
theorem upAccept_run_close_full {u : UpUnit} (c : Config) (h : u.mode = .run) (hle : u.dp.total.toNat ≤ u.nOut.toNat) :
    upAccept c .close u = { u with mode := .idle, outq := u.outq ++ [.done u.err u.nOut] } := by
  rw [upAccept, accept_run_close h, upEndAct, if_neg (not_lt.mpr hle)]
  rfl

/-- R31: a frame that wants no more bits is sound, and has emitted all `rows*cols` of them. -/
theorem upInv_full {c : Config} {u : UpUnit} (h : u.mode = .run) (hle : u.dp.total.toNat ≤ u.nOut.toNat)
    (hinv : UpInv c u) : u.err = .noError ∧ u.nOut = BitVec.ofNat 16 (u.dp.rows.toNat * u.dp.cols.toNat) := by
  obtain ⟨⟨-, -, -, -, herr⟩, hrun⟩ := hinv
  obtain ⟨⟨-, -, htotal, -, hout, -⟩, -⟩ := hrun h
  refine ⟨herr h, ?_⟩
  rw [← htotal, Nat.le_antisymm hle hout, BitVec.ofNat_toNat, BitVec.setWidth_eq]

/-! ## Frames (R135, R136) -/

section
variable {c : Config} {rows cols : Dim} {P Q : List Byte} (q : List (Beat BitOut))

/-- R191: `unpack` reads the bits of the raster and no other. -/
theorem unpack_congr {T : Nat}
    (h : ∀ i, i < T → (P.getD (i / 8) 0).getLsbD (i % 8) = (Q.getD (i / 8) 0).getLsbD (i % 8)) :
    unpack P T = unpack Q T :=
  List.map_congr_left fun i hi => h i (List.mem_range.mp hi)

/-- R135: the unpacker in the middle of a frame depends on the number of bytes and on the bits of the raster. -/
theorem upMid_congr (hlen : P.length = Q.length)
    (h : ∀ i, i < rows.toNat * cols.toNat →
      (P.getD (i / 8) 0).getLsbD (i % 8) = (Q.getD (i / 8) 0).getLsbD (i % 8)) :
    upMid q rows cols P = upMid q rows cols Q := by
  have hbits : unpack P (min (8 * Q.length) (rows.toNat * cols.toNat)) =
      unpack Q (min (8 * Q.length) (rows.toNat * cols.toNat)) :=
    unpack_congr fun i hi => h i (hi.trans_le (Nat.min_le_right _ _))
  simp only [upMid, hlen, hbits]

/-- R136: bytes past the first `ceil8(T)` leave no trace: `upMid` of all the bytes differs in `n_in` alone. -/
theorem upMid_take :
    upMid q rows cols (P.take (ceil8 (rows.toNat * cols.toNat))) =
      { upMid q rows cols P with nIn := BitVec.ofNat 16 (min (ceil8 (rows.toNat * cols.toNat)) P.length) } := by
  generalize hT : rows.toNat * cols.toNat = T
  have hwanted : min (8 * min (ceil8 T) P.length) T = min (8 * P.length) T := by unfold ceil8; omega
  have hread : min (8 * P.length) T ≤ 8 * (P.take (ceil8 T)).length := by
    rw [List.length_take, ← hwanted]
    exact Nat.min_le_left _ _
  have hbits : unpack (P.take (ceil8 T)) (min (8 * P.length) T) = unpack P (min (8 * P.length) T) := by
    rw [← unpack_append hread (P.drop (ceil8 T)), List.take_append_drop]
  simp only [upMid, hT, List.length_take, hwanted, hbits]

/-- R93, R218: a frame whose START raised is closed by its END, whatever its bytes. -/
theorem upRun_frame_rejected {u : UpUnit} (h : (upAccept c (.start (rows, cols)) u).mode = .err) (P : List Byte) :
    upRun c (upFrame rows cols P) u = (upAccept c (.start (rows, cols)) u).closeFrame := by
  have hframe : upFrame rows cols P = [.start (rows, cols)] ++ (P.map .data ++ [.close]) := by simp [upFrame]
  have hstart : upRun c [.start (rows, cols)] u = upAccept c (.start (rows, cols)) u := rfl
  rw [hframe, upRun_append, hstart, upRun_append, upRun_err_data P h]
  exact accept_err_close h

/-- R135: bytes of one number that agree on the raster's bits take an idle unpacker to one state, whatever the shape. -/
theorem upRun_frame_congr {u : UpUnit} (hidle : u.mode = .idle) (hlen : P.length = Q.length)
    (hbits : ∀ i, i < rows.toNat * cols.toNat →
      (P.getD (i / 8) 0).getLsbD (i % 8) = (Q.getD (i / 8) 0).getLsbD (i % 8)) :
    upRun c (upFrame rows cols P) u = upRun c (upFrame rows cols Q) u := by
  by_cases hbad : rows.toNat = 0 ∨ cols.toNat = 0 ∨ c.cap < rows.toNat * cols.toNat
  · have herr : (upAccept c (.start (rows, cols)) u).mode = .err := by
      rw [upAccept_idle_start hidle]
      exact if_pos hbad
    rw [upRun_frame_rejected herr, upRun_frame_rejected herr]
  · obtain ⟨hrows, hcols, hfits⟩ :
        1 ≤ rows.toNat ∧ 1 ≤ cols.toNat ∧ rows.toNat * cols.toNat ≤ c.cap := by omega
    simp only [upRun_frame _ u hidle hrows hcols hfits, upMid_take, upMid_congr _ hlen hbits, hlen]

/-- R136: a frame of a legal shape emits the bits its bytes hold, as many as the shape wants, and one DONE. -/
theorem execAll_upFrame {s : State} (hidle : s.up.mode = .idle) (hrows : 1 ≤ rows.toNat) (hcols : 1 ≤ cols.toNat)
    {T : Nat} (hT : T = rows.toNat * cols.toNat) (hfits : T ≤ s.config.cap) (P : List Byte) :
    ∃ t : State, execAll ((upFrame rows cols P).map upInstr) s = .next t ∧ t.up.mode = .idle ∧
      t.up.outq = s.up.outq ++ (withEol cols.toNat (unpack P (min (8 * P.length) T))).map .data ++
        [.done (if P.length = ceil8 T then .noError else .protocolViolation) (BitVec.ofNat 16 (min (8 * P.length) T))] := by
  subst hT
  refine ⟨_, execAll_up _ s, ?_⟩
  simp only [upRun_frame P s.up hidle hrows hcols hfits, upMid_take, withEol_beats, true_and]
  rfl

end

/-! ## The statements -/

/-- Settles O17: in mode RUN by whether the frame still wants bits. -/
theorem upDataEmitsBits : Obligations.UpDataEmitsBits := by
  refine ⟨fun w hw => by rw [decodeUp, hw]; rfl, fun byte s => ⟨fun hidle => ?_, fun herr => ?_, fun hrun hfull => ?_,
    fun m hrun hlt hfits hcol hm => ?_⟩⟩
  · exact exec_up_of_accept (accept_idle_data_rejected hidle byte)
  · exact exec_up_of_accept (op := .data byte) (accept_err_of_ne_close herr nofun)
  · exact exec_up_of_accept (accept_run_data_fails hrun (upDataAct_excess hfull byte))
  · have htotal : s.up.dp.total.toNat < 2 ^ 16 := Nat.lt_succ_of_le (hfits.trans s.config.cap_le)
    exact exec_up_of_accept (upAccept_run_data s.config hrun hcol htotal hlt byte hm)

/-- Settles O43: the bits are all of the raster's, or all the bytes hold when these are too few. -/
theorem unpackFrameIsUnpack : Obligations.UnpackFrameIsUnpack := by
  intro s rows cols P T hidle hrows hcols hT hfits
  obtain ⟨t, hexec, hmode, hout⟩ := execAll_upFrame hidle hrows hcols hT hfits P
  have hall : ceil8 T ≤ P.length → min (8 * P.length) T = T := by unfold ceil8; omega
  have hfew : P.length < ceil8 T → min (8 * P.length) T = 8 * P.length := by unfold ceil8; omega
  refine ⟨t, hexec, hmode, fun heq => ?_, fun hlt => ?_, fun hgt => ?_⟩
  · rw [hout, hall heq.ge, if_pos heq]
  · rw [hout, hfew hlt, if_neg hlt.ne]
  · rw [hout, hall hgt.le, if_neg hgt.ne']

/-- Settles O44: the unpacker's run alone decides, and it is one run for both. -/
theorem unpackerIgnoresPadBits : Obligations.UnpackerIgnoresPadBits := by
  intro s rows cols P Q hidle hlen hbits
  rw [execAll_up, execAll_up, upRun_frame_congr hidle hlen hbits]

/-- Settles O16: START in each row of the dispatch table. -/
theorem upStartOpensFrame : Obligations.UpStartOpensFrame :=
  ⟨fun w hw => by rw [decodeUp, hw]; rfl, fun r c s =>
    ⟨shape_total_exact r c,
    fun hidle => exec_up_of_accept (upAccept_idle_start hidle s.config r c),
    fun hrun => exec_up_of_accept (accept_run_start_raises hrun (r, c)),
    fun herr => exec_up_of_accept (op := .start (r, c)) (accept_err_of_ne_close herr nofun)⟩⟩

/-- Settles O18: END in each row of the dispatch table, in mode RUN with and without bits still wanted. -/
theorem upEndCloses : Obligations.UpEndCloses := by
  refine ⟨fun w hw => by rw [decodeUp, hw]; rfl, fun s =>
    ⟨fun hidle => exec_up_of_accept (accept_idle_close hidle),
    fun herr => exec_up_of_accept (accept_err_close herr),
    fun hrun hlt => exec_up_of_accept (upAccept_run_close_short _ hrun hlt),
    fun hrun hle => exec_up_of_accept (upAccept_run_close_full _ hrun hle),
    fun hrun hle hinv => ⟨_, exec_up_of_accept (upAccept_run_close_full _ hrun hle), ?_⟩⟩⟩
  obtain ⟨herr, hout⟩ := upInv_full hrun hle hinv
  rw [← hout, ← herr]

end Sys2Proof.Machine
end

section
/-! SUPPORT. `rle_encoder` (43_rle_encoder.md): the ops by outcome, the split of a run at 255, the length of an
encoding, and the seven statements of that family. -/

namespace Sys2Proof.Machine

open Sys2Proof

/-! ## EN.DATA and EN.END by outcome (R151, R152, R156) -/

/-- R156: whether a second entry fits, said of the count before the first. -/
theorem count_succ_eq_cap_iff (c : Config) (n : Count) : (n + 1).toNat = c.cap ↔ n.toNat + 1 = c.cap := by
  have hpos := c.cap_pos
  have hle := c.cap_le
  have hone : (1 : Count).toNat = 1 := rfl
  rw [BitVec.toNat_add, hone]
  omega

theorem eq_runMax_iff {x : Byte} : x = runMax ↔ x.toNat = 255 :=
  ⟨fun h => by rw [h]; rfl, fun h => BitVec.eq_of_toNat_eq h⟩

section
variable {c : Config} {b : Bit} {u v : EnUnit}

theorem enDataAct_full (hfull : u.nIn.toNat = c.cap) : enDataAct c b u = u.fail .capacityExceeded := if_pos hfull

theorem enCountBit_count (hsame : b = u.dp.curVal) (hcnt : u.dp.curCnt ≠ runMax) :
    enCountBit c b u = .ok { u with dp := ⟨u.dp.curVal, u.dp.curCnt + 1⟩ } := by
  rw [enCountBit, if_pos hsame, if_neg hcnt]

/-- R151: at the ceiling the run is split, with its value kept. -/
theorem enCountBit_split (hsame : b = u.dp.curVal) (hcnt : u.dp.curCnt = runMax) :
    enCountBit c b u = (emitEntry c runMax u).andThen fun u => (emitEntry c 0 u).andThen fun u =>
      .ok { u with dp := ⟨u.dp.curVal, 1⟩ } := by
  rw [enCountBit, if_pos hsame, if_pos hcnt]

theorem enCountBit_change (hdiff : b ≠ u.dp.curVal) :
    enCountBit c b u = (emitEntry c u.dp.curCnt u).andThen fun u => .ok { u with dp := ⟨b, 1⟩ } := if_neg hdiff

theorem enEndAct_flush (hcnt : u.dp.curCnt ≠ 0) :
    enEndAct c u = (emitEntry c u.dp.curCnt u).andThen fun u => .ok { u with dp := ⟨u.dp.curVal, 0⟩ } := if_pos hcnt

/-- R151: the count of input bits goes up when the bit was taken. -/
theorem enAccept_run_data_ok (hrun : u.mode = .run) (hroom : u.nIn.toNat ≠ c.cap) (h : enCountBit c b u = .ok v) :
    enAccept c (.data b) u = { v with nIn := v.nIn + 1 } := by
  rw [enAccept, accept_run_data hrun, enDataAct, if_neg hroom, h, Act.ok_andThen, Act.state_ok]

/-- R151, R211: an emission that raises abandons the op, and what was done before it stands. -/
theorem enAccept_run_data_raised (hrun : u.mode = .run) (hroom : u.nIn.toNat ≠ c.cap)
    (h : enCountBit c b u = v.fail .capacityExceeded) (hv : v.mode = .run) :
    enAccept c (.data b) u = { v with mode := .err, err := .capacityExceeded } := by
  rw [enAccept, accept_run_data hrun, enDataAct, if_neg hroom, h, UnitState.fail, Act.raised_andThen, Act.state_raised,
    raise_of_run hv]

/-- R152: an empty run leaves nothing to flush. -/
theorem enAccept_run_close_empty (hrun : u.mode = .run) (hcnt : u.dp.curCnt = 0) :
    enAccept c .close u = { u with mode := .idle, outq := u.outq ++ [.done u.err u.nOut] } := by
  rw [enAccept, accept_run_close hrun, enEndAct, if_neg (not_not.mpr hcnt)]
  rfl

/-- R152: the flush that finds the output full is reported by the DONE of the same END. -/
theorem enAccept_run_close_full (hrun : u.mode = .run) (hcnt : u.dp.curCnt ≠ 0) (hfull : u.nOut.toNat = c.cap) :
    enAccept c .close u = { u with
      mode := .idle, err := .capacityExceeded, outq := u.outq ++ [.done .capacityExceeded u.nOut] } := by
  rw [enAccept, accept_run_close hrun, enEndAct_flush hcnt, emitEntry_full hfull, UnitState.fail, raise_of_run hrun]
  rfl

theorem enAccept_run_close_flush (hrun : u.mode = .run) (hcnt : u.dp.curCnt ≠ 0) (hroom : u.nOut.toNat ≠ c.cap) :
    enAccept c .close u = { u with
      mode := .idle, nOut := u.nOut + 1, dp := ⟨u.dp.curVal, 0⟩,
      outq := u.outq ++ [.data u.dp.curCnt, .done u.err (u.nOut + 1)] } := by
  rw [enAccept, accept_run_close hrun, enEndAct_flush hcnt, emitEntry_ok hroom, Act.ok_andThen, Act.state_ok]
  simp [UnitState.closeFrame, UnitState.emit]

end

/-! ## The split of a run (R154) -/

/-- R154: the lengths of a run, from those that fit one entry up by 255. -/
theorem runLength_induction {motive : (L : Nat) → 1 ≤ L → Prop}
    (small : ∀ (L : Nat) (h1 : 1 ≤ L), L ≤ 255 → motive L h1)
    (add : ∀ (L : Nat) (h1 : 1 ≤ L), motive L h1 → motive (255 + L) (by omega))
    (L : Nat) (hL : 1 ≤ L) : motive L hL := by
  induction L using Nat.strongRecOn with
  | ind L ih =>
    by_cases hle : L ≤ 255
    · exact small L hL hle
    · obtain ⟨L, rfl⟩ := Nat.exists_eq_add_of_lt (not_le.mp hle)
      have hprev := add (L + 1) (by omega) (ih (L + 1) (by omega) (by omega))
      simpa only [Nat.add_assoc] using hprev

theorem splitRun_length {L : Nat} (hL : 1 ≤ L) : (splitRun L).length = 2 * ((L + 254) / 255) - 1 := by
  induction L, hL using runLength_induction with
  | small L h1 h255 =>
    rw [splitRun_small h1 h255, List.length_singleton]
    omega
  | add L h1 ih =>
    rw [splitRun_add h1, List.length_append, ih]
    simp only [List.length_cons, List.length_nil]
    omega

/-- R154, R193: the placeholder 0 gives the other value no bit, and the next count is read as the run's value again. -/
theorem decFrom_splitRun {L : Nat} (hL : 1 ≤ L) (v : Bit) : decFrom v (splitRun L) = List.replicate L v := by
  induction L, hL using runLength_induction with
  | small L h1 h255 =>
    rw [splitRun_small h1 h255]
    simp [decFrom, Nat.mod_eq_of_lt (Nat.lt_succ_of_le h255)]
  | add L h1 ih =>
    have hpair : decFrom v ([runMax, 0] ++ splitRun L) = List.replicate 255 v ++ decFrom (!!v) (splitRun L) := rfl
    rw [splitRun_add h1, hpair, Bool.not_not, ih, List.replicate_append_replicate]

theorem entrySum_splitRun {L : Nat} (hL : 1 ≤ L) : entrySum (splitRun L) = L := by
  rw [← decFrom_length true, decFrom_splitRun hL, List.length_replicate]

/-- R154: counts and placeholders alternate. -/
theorem splitRun_getD_ne_zero_iff {L : Nat} (hL : 1 ≤ L) {i : Nat} (hi : i < (splitRun L).length) :
    i % 2 = 0 ↔ (splitRun L).getD i 0 ≠ 0 := by
  induction L, hL using runLength_induction generalizing i with
  | small L h1 h255 =>
    rw [splitRun_small h1 h255] at hi ⊢
    obtain rfl : i = 0 := Nat.lt_one_iff.mp hi
    have hne : BitVec.ofNat 8 L ≠ 0 := by
      rw [Ne, byte_eq_zero_iff, BitVec.toNat_ofNat]
      omega
    simpa using hne
  | add L h1 ih =>
    rw [splitRun_add h1] at hi ⊢
    match i with
    | 0 => simp [runMax]
    | 1 => simp
    | i + 2 =>
      have hi' : i < (splitRun L).length := by simpa using hi
      rw [Nat.add_mod_right]
      exact ih hi'

/-! ## The closed form and its length (R155, R157, R158) -/

/-- R155: the encoding of a sequence is that of the run its first bit opens, after the leading zero entry of a 0. -/
theorem encodeRuns_cons (b : Bit) (B : List Bit) : encodeRuns (b :: B) = leadEntry (b :: B) ++ encFrom b 1 B := by
  cases b <;> rfl

/-- R157: the run a bit opens, and those behind it, are the maximal runs of the sequence. -/
theorem encFrom_one_eq_runEntries (b : Bit) (B : List Bit) : encFrom b 1 B = runEntries (runsOf (b :: B)) := by
  rw [encFrom_runs B b 1 (by decide)]
  rcases hruns : runsOf B with _ | ⟨⟨w, n⟩, more⟩
  · simp [runsOf, hruns, runEntries, splitRun_small]
  · by_cases hw : w = b
    · simp [runsOf, hruns, hw, runEntries, Nat.add_comm 1 n]
    · simp [runsOf, hruns, hw, Ne.symm hw, runEntries, splitRun_small]

theorem encodeRuns_eq_closed (B : List Bit) : encodeRuns B = encodeClosed B := by
  cases B with
  | nil => rfl
  | cons b B => rw [encodeRuns_cons, encFrom_one_eq_runEntries]; rfl

theorem runEntries_runsOf_length (B : List Bit) :
    (runEntries (runsOf B)).length = ((runsOf B).map fun r => 2 * ((r.2 + 254) / 255) - 1).sum := by
  rw [runEntries, List.length_flatten, List.map_map]
  exact congrArg List.sum (List.map_congr_left fun r hr => splitRun_length (runsOf_pos hr))

theorem leadEntry_length_le (B : List Bit) : (leadEntry B).length ≤ 1 := by
  match B with
  | [] => decide
  | true :: _ => exact Nat.zero_le 1
  | false :: _ => exact Nat.le_refl 1

/-- R158, from inside a run: a counted bit makes less than a whole entry unless it is the run's only one. -/
theorem encFrom_length_le (v : Bit) (c : Byte) (hc : c.toNat ≠ 0) (B : List Bit) :
    (encFrom v c B).length ≤ B.length + (c.toNat + 1) / 2 := by
  induction B generalizing v c with
  | nil =>
    rw [encFrom, if_pos (mt byte_eq_zero_iff.mp hc), List.length_singleton, List.length_nil]
    omega
  | cons b B ih =>
    have hnew : (encFrom b 1 B).length ≤ B.length + 1 := ih b 1 (by decide)
    rw [List.length_cons]
    by_cases hb : b = v
    · subst hb
      by_cases hmax : c = runMax
      · have h255 := eq_runMax_iff.mp hmax
        rw [encFrom, if_pos rfl, if_pos hmax, List.length_append, List.length_cons, List.length_singleton]
        omega
      · have hsucc := byte_add_one hmax
        have hmore := ih b (c + 1) (by omega)
        rw [encFrom, if_pos rfl, if_neg hmax]
        omega
    · rw [encFrom, if_neg hb, List.length_append, List.length_singleton]
      omega

/-- `n` bits, each different from the one before it, the first `v`. -/
def alternating (v : Bit) (n : Nat) : List Bit := (List.range n).map fun i => xor v (decide (i % 2 = 1))

@[simp] theorem alternating_zero (v : Bit) : alternating v 0 = [] := rfl

@[simp] theorem alternating_succ (v : Bit) (n : Nat) : alternating v (n + 1) = v :: alternating (!v) n := by
  have hflip (i : Nat) : xor v (decide ((i + 1) % 2 = 1)) = xor (!v) (decide (i % 2 = 1)) := by
    rcases Nat.mod_two_eq_zero_or_one i with h | h <;> simp [Nat.add_mod, h]
  simp [alternating, List.range_succ_eq_map, Function.comp_def, hflip]

/-- R158: after the first bit of a run every bit costs a whole entry just when each of them ends a run. -/
theorem encFrom_one_length_eq_iff (v : Bit) (B : List Bit) :
    (encFrom v 1 B).length = B.length + 1 ↔ B = alternating (!v) B.length := by
  induction B generalizing v with
  | nil => simp [encFrom]
  | cons b B ih =>
    rw [List.length_cons, alternating_succ, Bool.not_not]
    by_cases hb : b = v
    · subst hb
      have hshort : (encFrom b 2 B).length ≤ B.length + 1 := encFrom_length_le b 2 (by decide) B
      have hcount : encFrom b 1 (b :: B) = encFrom b 2 B := by rw [encFrom, if_pos rfl, if_neg (by decide)]; rfl
      have hhead : b :: B ≠ (!b) :: alternating b B.length := by simp
      rw [hcount]
      exact iff_of_false (by omega) hhead
    · obtain rfl : b = !v := Bool.eq_not_of_ne hb
      rw [encFrom, if_neg hb, List.length_append, List.length_singleton, Nat.add_comm 1, Nat.add_right_cancel_iff, ih,
        Bool.not_not, List.cons_inj_right]

theorem encodeRuns_length_le (B : List Bit) : (encodeRuns B).length ≤ B.length + 1 := by
  cases B with
  | nil => decide
  | cons b B =>
    have hlead := leadEntry_length_le (b :: B)
    have hrest : (encFrom b 1 B).length ≤ B.length + 1 := encFrom_length_le b 1 (by decide) B
    rw [encodeRuns_cons, List.length_append, List.length_cons]
    omega

/-- R158: the leading entry and a whole entry for every bit. -/
theorem encodeRuns_length_eq_iff {B : List Bit} (hB : 1 ≤ B.length) :
    (encodeRuns B).length = B.length + 1 ↔ B = alternating false B.length := by
  match B with
  | true :: B =>
    have hrest : (encFrom true 1 B).length ≤ B.length + 1 := encFrom_length_le true 1 (by decide) B
    rw [encodeRuns_cons, List.length_append, List.length_cons, alternating_succ]
    exact iff_of_false (by simp only [leadEntry, initVal, if_true, List.length_nil]; omega) (by simp)
  | false :: B =>
    have hlead : encodeRuns (false :: B) = 0 :: encFrom false 1 B := rfl
    rw [hlead, List.length_cons, List.length_cons, alternating_succ, Nat.add_right_cancel_iff,
      encFrom_one_length_eq_iff, List.cons_inj_right]

/-! ## The statements -/

/-- Settles O45: END flushes the last entry, or finds the output full. -/
theorem encodeFrameIsEncodeRuns : Obligations.EncodeFrameIsEncodeRuns := by
  intro s B hidle hB
  refine ⟨_, execAll_en _ s, ?_⟩
  by_cases hfits : (encodeRuns B).length ≤ s.config.cap
  · rw [enRun_frame s.en hidle hB hfits]
    exact ⟨rfl, fun _ => rfl, fun hover => absurd hfits (not_le.mpr hover)⟩
  · rw [enRun_frame_full s.en hidle hB (not_le.mp hfits)]
    exact ⟨rfl, fun h => absurd h hfits, fun _ => rfl⟩

/-- Settles O46: the first bit opens the first maximal run. -/
theorem encodingIsRunsSplit : Obligations.EncodingIsRunsSplit := encodeRuns_eq_closed

/-- Settles O47, by steps of 255 bits; the parity follows from the length and the sum from the decoding. -/
theorem splitRunLaws : Obligations.SplitRunLaws := by
  intro L hL
  refine ⟨splitRun_small hL, fun hbig => ?_, splitRun_length hL, ?_, entrySum_splitRun hL,
    fun i hi => splitRun_getD_ne_zero_iff hL hi, decFrom_splitRun hL⟩
  · conv_lhs => rw [show L = 255 + (L - 255) by omega]
    exact splitRun_add (by omega)
  · rw [splitRun_length hL]
    omega

/-- Settles O48: the count is that of the closed form, the worst case that of the state machine. -/
theorem entryCount : Obligations.EntryCount := by
  refine fun B => ⟨?_, encodeRuns_length_le B, fun hB => ?_⟩
  · rw [← runEntries_runsOf_length, encodeRuns_eq_closed, encodeClosed, List.length_append, runEntries]
  · rw [encodeRuns_length_eq_iff hB]
    simp only [alternating, Bool.false_xor]

/-- Settles O19: START in each row of the dispatch table. -/
theorem enStartOpensFrame : Obligations.EnStartOpensFrame :=
  ⟨fun w hw => by rw [decodeEn, hw]; rfl, fun s =>
    ⟨fun hidle => exec_en_of_accept (accept_idle_start hidle ()),
    fun hrun => exec_en_of_accept (accept_run_start_raises hrun ()),
    fun herr => exec_en_of_accept (op := .start ()) (accept_err_of_ne_close herr nofun)⟩⟩

/-- Settles O20: in mode RUN by the room for the bit, its value, the count, and the room for what it emits. -/
theorem enDataCountsRun : Obligations.EnDataCountsRun := by
  refine ⟨fun w hw => by rw [decodeEn, hw]; rfl, fun b s => ⟨fun hidle => ?_, fun herr => ?_, fun hrun hfull => ?_,
    fun hrun hroom hsame hcnt => ?_, fun hrun hroom hsame hcnt => ?_, fun hrun hroom hdiff => ?_⟩⟩
  · exact exec_en_of_accept (accept_idle_data_rejected hidle b)
  · exact exec_en_of_accept (op := .data b) (accept_err_of_ne_close herr nofun)
  · exact exec_en_of_accept (accept_run_data_fails hrun (enDataAct_full hfull))
  · exact exec_en_of_accept (enAccept_run_data_ok hrun hroom (enCountBit_count hsame (mt eq_runMax_iff.mp hcnt)))
  · have hsplit := enCountBit_split (c := s.config) hsame (eq_runMax_iff.mpr hcnt)
    have hsecond := count_succ_eq_cap_iff s.config s.en.nOut
    refine ⟨fun hfull => exec_en_of_accept (op := .data b) ?_, fun hone => exec_en_of_accept (op := .data b) ?_,
      fun hfirst htwo => exec_en_of_accept (op := .data b) ?_⟩
    · rw [emitEntry_full hfull] at hsplit
      exact enAccept_run_data_raised hrun hroom hsplit hrun
    · rw [emitEntry_ok (by omega), Act.ok_andThen, emitEntry_full (hsecond.mpr hone)] at hsplit
      exact enAccept_run_data_raised hrun hroom hsplit hrun
    · rw [emitEntry_ok hfirst, Act.ok_andThen, emitEntry_ok (mt hsecond.mp htwo)] at hsplit
      rw [enAccept_run_data_ok hrun hroom hsplit]
      simp [UnitState.emitData, UnitState.emit, runMax, BitVec.add_assoc]
  · have hchange := enCountBit_change (c := s.config) hdiff
    refine ⟨fun hfull => exec_en_of_accept (op := .data b) ?_, fun hfits => exec_en_of_accept (op := .data b) ?_⟩
    · rw [emitEntry_full hfull] at hchange
      exact enAccept_run_data_raised hrun hroom hchange hrun
    · rw [emitEntry_ok hfits] at hchange
      exact enAccept_run_data_ok hrun hroom hchange

/-- Settles O21: END in each row of the dispatch table, in mode RUN by what there is to flush and the room for it. -/
theorem enEndFlushesAndCloses : Obligations.EnEndFlushesAndCloses :=
  ⟨fun w hw => by rw [decodeEn, hw]; rfl, fun _ =>
    ⟨fun hidle => exec_en_of_accept (accept_idle_close hidle),
    fun herr => exec_en_of_accept (accept_err_close herr),
    fun hrun hcnt => exec_en_of_accept (enAccept_run_close_empty hrun hcnt),
    fun hrun hcnt hfull => exec_en_of_accept (enAccept_run_close_full hrun hcnt hfull),
    fun hrun hcnt hroom => exec_en_of_accept (enAccept_run_close_flush hrun hcnt hroom)⟩⟩

end Sys2Proof.Machine
end

section
/-! SUPPORT. `rle_decoder` (44_rle_decoder.md): the ops by outcome, whole frames of the machine, and the five
statements of that family. -/

namespace Sys2Proof.Machine

open Sys2Proof

/-! ## DE.START, DE.DATA and DE.END by outcome (R170 to R172) -/

/-- R130, R211: what the tests on a shape leave of a frame just opened, each failure with its code. -/
theorem checkShape_state {D α : Type} {u : UnitState D α} (hrun : u.mode = .run) (herr : u.err = .noError)
    (c : Config) (rows cols : Dim) :
    (checkShape c rows cols u).state = { u with
      mode := if rows.toNat = 0 ∨ cols.toNat = 0 ∨ c.cap < rows.toNat * cols.toNat then .err else .run
      err := if rows.toNat = 0 ∨ cols.toNat = 0 then .protocolViolation
             else if c.cap < rows.toNat * cols.toNat then .capacityExceeded else .noError } := by
  by_cases hzero : rows.toNat = 0 ∨ cols.toNat = 0
  · rw [checkShape_zero hzero, if_pos (hzero.imp_right .inl), if_pos hzero]
    exact raise_of_run hrun _
  · obtain ⟨hrows, hcols⟩ : 1 ≤ rows.toNat ∧ 1 ≤ cols.toNat := by omega
    by_cases hbig : c.cap < rows.toNat * cols.toNat
    · rw [checkShape_big hrows hcols hbig, if_pos (.inr (.inr hbig)), if_neg hzero, if_pos hbig]
      exact raise_of_run hrun _
    · rw [checkShape_ok hrows hcols (not_lt.mp hbig), if_neg (by omega), if_neg hzero, if_neg hbig, ← hrun, ← herr]
      rfl

section
variable {u : DeUnit} (c : Config)

/-- R170: START in mode IDLE. The shape stands in its registers whatever the tests say of it. -/
theorem deAccept_idle_start (h : u.mode = .idle) (rows cols : Dim) :
    deAccept c (.start (rows, cols)) u =
      ⟨if rows.toNat = 0 ∨ cols.toNat = 0 ∨ c.cap < rows.toNat * cols.toNat then .err else .run,
       if rows.toNat = 0 ∨ cols.toNat = 0 then .protocolViolation
       else if c.cap < rows.toNat * cols.toNat then .capacityExceeded else .noError,
       0, 0, ⟨ShapeRegs.ofShape rows cols, initVal⟩, u.outq⟩ :=
  (accept_idle_start h (rows, cols)).trans (checkShape_state rfl rfl c rows cols)

/-- R171, R174: a zero entry is counted and flips the value. -/
theorem deAccept_run_zero (hrun : u.mode = .run) (hroom : u.nIn.toNat ≠ c.cap) :
    deAccept c (.data 0) u = { u with nIn := u.nIn + 1, dp := ⟨u.dp.shape, !u.dp.curVal⟩ } := by
  rw [deAccept, accept_run_data hrun, deDataAct_zero hroom]
  rfl

/-- R134: the beats of `n` equal bits. -/
theorem bitBeats_replicate (cols col n : Nat) (v : Bit) :
    bitBeats cols col (List.replicate n v) =
      (List.range n).map fun k => .data ⟨v, decide ((col + k) % cols = cols - 1)⟩ := by
  rw [← bitBeats_map_range, List.map_const', List.length_range]

/-- R171: an entry that fits emits its bits, is counted and flips the value. -/
theorem deAccept_run_emits (hrun : u.mode = .run) (hroom : u.nIn.toNat ≠ c.cap) {entry : Byte} (hentry : entry ≠ 0)
    (hfits : u.nOut.toNat + entry.toNat ≤ u.dp.shape.total.toNat)
    (hcol : u.dp.shape.col.toNat < u.dp.shape.cols.toNat) :
    deAccept c (.data entry) u = { u with
      nIn := u.nIn + 1
      nOut := BitVec.ofNat 16 (u.nOut.toNat + entry.toNat)
      dp := ⟨u.dp.shape.after entry.toNat, !u.dp.curVal⟩
      outq := u.outq ++ (List.range entry.toNat).map fun k => .data ⟨u.dp.curVal,
        decide ((u.dp.shape.col.toNat + k) % u.dp.shape.cols.toNat = u.dp.shape.cols.toNat - 1)⟩ } := by
  rw [deAccept, accept_run_data hrun, deDataAct_emits hroom hentry hfits hcol, ← bitBeats_replicate]
  simp [deFlip, deAfter, BitVec.ofNat_add]

/-- R172: END in mode RUN with bits missing is reported by the DONE of the same END. -/
theorem deAccept_run_close_short (hrun : u.mode = .run) (hlt : u.nOut.toNat < u.dp.shape.total.toNat) :
    deAccept c .close u = { u with
      mode := .idle, err := .protocolViolation, outq := u.outq ++ [.done .protocolViolation u.nOut] } := by
  rw [deAccept, accept_run_close hrun, deEndAct, if_pos hlt, UnitState.fail, raise_of_run hrun]
  rfl

/-- R172: END in mode RUN with all bits out. -/
theorem deAccept_run_close_full (hrun : u.mode = .run) (hle : u.dp.shape.total.toNat ≤ u.nOut.toNat) :
    deAccept c .close u = { u with mode := .idle, outq := u.outq ++ [.done u.err u.nOut] } := by
  rw [deAccept, accept_run_close hrun, deEndAct, if_neg (not_lt.mpr hle)]
  rfl

end

/-- R31: shape registers whose bits are all out have had `rows*cols` of them. -/
theorem ShapeRegs.Inv.count_full {c : Config} {r : ShapeRegs} {n : Count} (h : r.Inv c n.toNat)
    (hle : r.total.toNat ≤ n.toNat) : n = BitVec.ofNat 16 (r.rows.toNat * r.cols.toNat) := by
  obtain ⟨-, -, htotal, -, hout, -⟩ := h
  rw [← htotal, Nat.le_antisymm hle hout, BitVec.ofNat_toNat, BitVec.setWidth_eq]

/-! ## Frames of the machine (R175, R176) -/

section
variable {s : State} {rows cols : Dim}

/-- R175: a frame whose entries do not pass the shape emits them all, and its code says whether they fill it. -/
theorem execAll_deFrame (hidle : s.de.mode = .idle) (hrows : 1 ≤ rows.toNat) (hcols : 1 ≤ cols.toNat)
    (hshape : rows.toNat * cols.toNat ≤ s.config.cap) {E : List Byte} (hE : E.length ≤ s.config.cap)
    (hsum : entrySum E ≤ rows.toNat * cols.toNat) :
    ∃ t : State, execAll ((deFrame rows cols E).map deInstr) s = .next t ∧ t.de.mode = .idle ∧
      t.de.outq = s.de.outq ++ (withEol cols.toNat (decodeRuns E)).map .data ++
        [.done (if entrySum E = rows.toNat * cols.toNat then .noError else .protocolViolation)
          (BitVec.ofNat 16 (entrySum E))] := by
  refine ⟨_, execAll_de _ s, ?_⟩
  rw [deRun_frame E s.de hidle hrows hcols hshape hE hsum, withEol_beats]
  exact ⟨rfl, rfl⟩

/-- R175: the entry that would pass the shape ends the emission, and the DONE counts what came before it. -/
theorem execAll_deFrame_overrun (hidle : s.de.mode = .idle) (hrows : 1 ≤ rows.toNat) (hcols : 1 ≤ cols.toNat)
    (hshape : rows.toNat * cols.toNat ≤ s.config.cap) {fits : List Byte} (hroom : fits.length < s.config.cap)
    (hsum : entrySum fits ≤ rows.toNat * cols.toNat) {big : Byte}
    (hbig : rows.toNat * cols.toNat < entrySum fits + big.toNat) (rest : List Byte) :
    ∃ t : State, execAll ((deFrame rows cols (fits ++ big :: rest)).map deInstr) s = .next t ∧ t.de.mode = .idle ∧
      t.de.outq = s.de.outq ++ (withEol cols.toNat (decodeRuns fits)).map .data ++
        [.done .protocolViolation (BitVec.ofNat 16 (entrySum fits))] := by
  have hin : (deMid s.de.outq rows cols fits).nIn.toNat ≠ s.config.cap := by
    rw [deMid_nIn _ _ hroom.le]
    exact hroom.ne
  have hne : big ≠ 0 := by
    rintro rfl
    exact absurd hsum (not_le.mpr hbig)
  have hover : (deMid s.de.outq rows cols fits).dp.shape.total.toNat <
      (deMid s.de.outq rows cols fits).nOut.toNat + big.toNat := by
    rwa [deMid_total, deMid_nOut _ _ (hsum.trans hshape)]
  refine ⟨_, execAll_de _ s, ?_⟩
  rw [deRun_frame_raises fits s.de hidle hrows hcols hshape hroom.le hsum big rest _ (deDataAct_overrun hin hne hover),
    withEol_beats]
  exact ⟨rfl, rfl⟩

end

/-- R196: decoding undoes encoding. -/
theorem decodeRuns_encodeRuns (B : List Bit) : decodeRuns (encodeRuns B) = B := decFrom_encFrom B initVal 0

/-- R197: the entries of an encoding sum to the number of bits. -/
theorem entrySum_encodeRuns (B : List Bit) : entrySum (encodeRuns B) = B.length := by
  rw [← decodeRuns_length, decodeRuns_encodeRuns]

/-! ## The statements -/

/-- Settles O23: in mode RUN by the room for the entry, its being zero, and the bits the shape still wants. -/
theorem deDataEmitsRun : Obligations.DeDataEmitsRun := by
  refine ⟨fun w hw => by rw [decodeDe, hw]; rfl, fun entry s => ⟨fun hidle => ?_, fun herr => ?_, fun hrun hfull => ?_,
    fun hrun hroom hzero => ?_, fun hrun hroom hne hover => ?_, fun hrun hroom hne hfits hcol => ?_⟩⟩
  · exact exec_de_of_accept (accept_idle_data_rejected hidle entry)
  · exact exec_de_of_accept (op := .data entry) (accept_err_of_ne_close herr nofun)
  · exact exec_de_of_accept (accept_run_data_fails hrun (deDataAct_full hfull entry))
  · subst hzero
    exact exec_de_of_accept (deAccept_run_zero _ hrun hroom)
  · exact exec_de_of_accept (accept_run_data_fails hrun (deDataAct_overrun hroom hne hover))
  · exact exec_de_of_accept (deAccept_run_emits _ hrun hroom hne hfits hcol)

/-- Settles O50: the frame is closed by its END, or rejected at the first entry that does not fit. -/
theorem decodeFrameIsDecodeRuns : Obligations.DecodeFrameIsDecodeRuns := by
  rintro s rows cols E _ hidle hrows hcols rfl hshape hE
  refine ⟨execAll_deFrame hidle hrows hcols hshape hE, ?_⟩
  rintro fits big rest rfl hsum hbig
  have hroom : fits.length < s.config.cap := by
    rw [List.length_append, List.length_cons] at hE
    omega
  exact execAll_deFrame_overrun hidle hrows hcols hshape hroom hsum hbig rest

/-- Settles O56: the entries of an encoding fill the shape exactly, and decode to its bits. -/
theorem decoderFrameInvertsEncoder : Obligations.DecoderFrameInvertsEncoder := by
  intro s rows cols B hidle hrows hcols hB hfits hE
  have hsum : entrySum (encodeRuns B) = rows.toNat * cols.toNat := (entrySum_encodeRuns B).trans hB
  obtain ⟨t, hexec, hmode, hout⟩ := execAll_deFrame hidle hrows hcols (hB ▸ hfits) hE hsum.le
  rw [if_pos hsum, decodeRuns_encodeRuns, entrySum_encodeRuns] at hout
  exact ⟨t, hexec, hmode, hout⟩

/-- Settles O22: START in each row of the dispatch table. -/
theorem deStartOpensFrame : Obligations.DeStartOpensFrame :=
  ⟨fun w hw => by rw [decodeDe, hw]; rfl, fun r c s =>
    ⟨shape_total_exact r c,
    fun hidle => exec_de_of_accept (deAccept_idle_start s.config hidle r c),
    fun hrun => exec_de_of_accept (accept_run_start_raises hrun (r, c)),
    fun herr => exec_de_of_accept (op := .start (r, c)) (accept_err_of_ne_close herr nofun)⟩⟩

/-- Settles O24: END in each row of the dispatch table, in mode RUN with and without bits missing. -/
theorem deEndCloses : Obligations.DeEndCloses := by
  refine ⟨fun w hw => by rw [decodeDe, hw]; rfl, fun s =>
    ⟨fun hidle => exec_de_of_accept (accept_idle_close hidle),
    fun herr => exec_de_of_accept (accept_err_close herr),
    fun hrun hlt => exec_de_of_accept (deAccept_run_close_short _ hrun hlt),
    fun hrun hle => exec_de_of_accept (deAccept_run_close_full _ hrun hle),
    fun hrun hle hinv => ⟨_, exec_de_of_accept (deAccept_run_close_full _ hrun hle), ?_⟩⟩⟩
  obtain ⟨⟨-, -, -, -, herr⟩, hshape⟩ := hinv
  rw [← (hshape hrun).left.count_full hle, ← herr hrun]

end Sys2Proof.Machine
end

section
/-! SUPPORT. The core pipeline (45_core_pipeline.md): the laws of the frame functions, how a unit closes a frame, the
units of a cycle one by one, and the eight statements of that family. -/

namespace Sys2Proof.Machine

open Sys2Proof

/-! ## The frame functions (R195, R198, R205) -/

/-- R195: unpacking reads back the packed bits and no pad bit. -/
theorem unpack_pack (R : List Bit) : unpack (pack R) R.length = R := by
  refine List.ext_getElem (unpack_length _ _) fun i hi hR => ?_
  have hbit : (unpack (pack R) R.length)[i] = ((pack R).getD (i / 8) 0).getLsbD (i % 8) := by simp [unpack]
  rw [hbit, pack_getD hR, List.getD_eq_getElem R false hR]

theorem pack_length (R : List Bit) : (pack R).length = ceil8 R.length := by simp [pack]

theorem withEol_bits (cols : Nat) (B : List Bit) : (withEol cols B).map BitOut.bit = B := by
  apply List.ext_getElem <;> simp [withEol]

/-- R205: from inside a run, the entries to come never start with a zero, so that any entry may stand before them. -/
theorem encFrom_zero_follows_runMax (B : List Bit) (v : Bit) (c : Byte) (hc : c ≠ 0) (prev : Byte) :
    (prev :: encFrom v c B).IsChain fun a b => b = 0 → a = runMax := by
  induction B generalizing v c prev with
  | nil =>
    rw [encFrom, if_pos hc]
    exact .cons_cons (fun h => absurd h hc) (.singleton c)
  | cons b B ih =>
    rw [encFrom]
    by_cases hb : b = v
    · rw [if_pos hb]
      by_cases hmax : c = runMax
      · rw [if_pos hmax]
        exact .cons_cons (fun h => absurd h (by decide)) (.cons_cons (fun _ => rfl) (ih v 1 (by decide) 0))
      · rw [if_neg hmax]
        exact ih v (c + 1) (by rw [Ne, byte_eq_zero_iff, byte_add_one hmax]; omega) prev
    · rw [if_neg hb]
      exact .cons_cons (fun h => absurd h hc) (ih b 1 (by decide) c)

/-- R205: the flush that ends an encoding is never a zero. -/
theorem encFrom_getLast (B : List Bit) (v : Bit) (c : Byte) (hc : c ≠ 0) :
    ∃ last ≠ 0, (encFrom v c B).getLast? = some last := by
  induction B generalizing v c with
  | nil => exact ⟨c, hc, by rw [encFrom, if_pos hc]; rfl⟩
  | cons b B ih =>
    rw [encFrom]
    by_cases hb : b = v
    · rw [if_pos hb]
      by_cases hmax : c = runMax
      · obtain ⟨last, hne, hlast⟩ := ih v 1 (by decide)
        exact ⟨last, hne, by rw [if_pos hmax, List.getLast?_append, hlast]; rfl⟩
      · rw [if_neg hmax]
        exact ih v (c + 1) (by rw [Ne, byte_eq_zero_iff, byte_add_one hmax]; omega)
    · obtain ⟨last, hne, hlast⟩ := ih b 1 (by decide)
      exact ⟨last, hne, by rw [if_neg hb, List.getLast?_append, hlast]; rfl⟩

theorem encodeRuns_zero_follows_runMax (B : List Bit) : (encodeRuns B).IsChain fun a b => b = 0 → a = runMax := by
  match B with
  | [] => exact .nil
  | true :: B => exact (encFrom_zero_follows_runMax B true 1 (by decide) 0).tail
  | false :: B => exact encFrom_zero_follows_runMax B false 1 (by decide) 0

theorem encodeRuns_getLast_ne_zero (B : List Bit) : (encodeRuns B).getLast? ≠ some 0 := by
  cases B with
  | nil => decide
  | cons b B =>
    obtain ⟨last, hne, hlast⟩ := encFrom_getLast B b 1 (by decide)
    rw [encodeRuns_cons, List.getLast?_append, hlast]
    simpa using hne

/-- R154, R198: equal bits are one maximal run. -/
theorem runsOf_replicate_succ (v : Bit) (n : Nat) : runsOf (List.replicate (n + 1) v) = [(v, n + 1)] := by
  induction n with
  | zero => rfl
  | succ n ih => rw [List.replicate_succ, runsOf, ih]; simp

theorem encodeRuns_replicate_succ (v : Bit) (n : Nat) :
    encodeRuns (List.replicate (n + 1) v) = (if v = initVal then [] else [0]) ++ splitRun (n + 1) := by
  rw [encodeRuns_eq_closed, encodeClosed, runsOf_replicate_succ]
  simp [List.replicate_succ, leadEntry]

/-! ## How a unit closes a frame (R93, R219) -/

section
variable {D α : Type}

/-- What happened between two states of a unit has emitted nothing but DATA, and ended no frame. -/
def GrowsByData (u v : UnitState D α) : Prop :=
  (v.mode = u.mode ∨ v.mode = .err) ∧ ∃ vs : List α, v.outq = u.outq ++ vs.map .data

variable {u v w : UnitState D α}

theorem GrowsByData.of_same (hmode : v.mode = u.mode) (hq : v.outq = u.outq) : GrowsByData u v :=
  ⟨.inl hmode, [], by simp [hq]⟩

theorem GrowsByData.of_emitted (x : α) (hmode : v.mode = u.mode) (hq : v.outq = u.outq ++ [.data x]) :
    GrowsByData u v := ⟨.inl hmode, [x], hq⟩

theorem GrowsByData.raise (e : ErrCode) : GrowsByData u (u.raise e) := ⟨.inr (u.raise_mode e), [], by simp⟩

theorem GrowsByData.trans (h : GrowsByData u v) (h' : GrowsByData v w) : GrowsByData u w := by
  obtain ⟨hm, vs, hq⟩ := h
  obtain ⟨hm', ws, hq'⟩ := h'
  exact ⟨hm'.elim (fun h => hm.imp h.trans h.trans) .inr, vs ++ ws, by simp [hq, hq']⟩

theorem GrowsByData.andThen {a : Act (UnitState D α)} {f : UnitState D α → Act (UnitState D α)}
    (h : GrowsByData u a.state) (hf : ∀ v, GrowsByData v (f v).state) : GrowsByData u (a.andThen f).state := by
  cases a with
  | ok v => exact h.trans (hf v)
  | raised v => exact h

theorem GrowsByData.ne_idle (h : GrowsByData u v) (hu : u.mode ≠ .idle) : v.mode ≠ .idle := by
  rcases h.1 with hm | hm <;> simp [hm, hu]

theorem forEach_grows {body : Nat → UnitState D α → Act (UnitState D α)}
    (h : ∀ k u, GrowsByData u (body k u).state) (ks : List Nat) (u : UnitState D α) :
    GrowsByData u (Act.forEach body ks u).state := by
  induction ks generalizing u with
  | nil => exact .of_same rfl rfl
  | cons k ks ih => exact (h k u).andThen ih

theorem checkShape_grows (c : Config) (rows cols : Dim) (u : UnitState D α) :
    GrowsByData u (checkShape c rows cols u).state := by
  unfold checkShape
  split
  · exact .raise _
  · split
    · exact .raise _
    · exact .of_same rfl rfl

variable {A P : Type} {S : A → UnitState D α → Act (UnitState D α)} {T : P → UnitState D α → Act (UnitState D α)}
  {E : UnitState D α → Act (UnitState D α)}

/-- R93: inside a frame DATA is the unit's action, or is dropped. -/
theorem accept_data_grows (hT : ∀ p u, GrowsByData u (T p u).state) (hu : u.mode ≠ .idle) (p : P) :
    GrowsByData u (accept S T E (.data p) u) := by
  match hm : u.mode with
  | .idle => exact absurd hm hu
  | .run => rw [accept_run_data hm]; exact hT p u
  | .err => rw [accept_err_of_ne_close hm (by simp)]; exact .of_same rfl rfl

theorem foldl_data_grows (hT : ∀ p u, GrowsByData u (T p u).state) (ps : List P) {u : UnitState D α}
    (hu : u.mode ≠ .idle) : GrowsByData u ((ps.map Op.data).foldl (fun u op => accept S T E op u) u) := by
  induction ps generalizing u with
  | nil => exact .of_same rfl rfl
  | cons p ps ih =>
    have hp := accept_data_grows (S := S) (E := E) hT hu p
    exact hp.trans (ih (hp.ne_idle hu))

/-- R219: inside a frame END emits one DONE, after at most some DATA. -/
theorem accept_close_outq (hE : ∀ u, GrowsByData u (E u).state) (hu : u.mode ≠ .idle) :
    ∃ (vs : List α) (e : ErrCode) (n : Count),
      (accept S T E .close u).outq = u.outq ++ vs.map .data ++ [.done e n] := by
  match hm : u.mode with
  | .idle => exact absurd hm hu
  | .run =>
    obtain ⟨-, vs, hq⟩ := hE u
    exact ⟨vs, _, _, by rw [accept_run_close hm, UnitState.closeFrame_outq, hq]⟩
  | .err => exact ⟨[], u.err, u.nOut, by rw [accept_err_close hm, UnitState.closeFrame_outq]; simp⟩

/-- R93, R219: a whole frame is DATA beats and one DONE. -/
theorem frame_closes (hS : ∀ a u, GrowsByData u (S a u).state) (hT : ∀ p u, GrowsByData u (T p u).state)
    (hE : ∀ u, GrowsByData u (E u).state) (hu : u.mode = .idle) (a : A) (ps : List P) :
    ∃ (vs : List α) (e : ErrCode) (n : Count),
      (([Op.start a] ++ ps.map Op.data ++ [Op.close]).foldl (fun u op => accept S T E op u) u).outq =
        u.outq ++ vs.map .data ++ [.done e n] := by
  have hstart : GrowsByData u.openFrame (accept S T E (.start a) u) := by rw [accept_idle_start hu]; exact hS a _
  have hopen := hstart.ne_idle (by simp)
  have hdata := foldl_data_grows (S := S) (E := E) hT ps hopen
  obtain ⟨vs, e, n, hclose⟩ := accept_close_outq (S := S) (T := T) hE (hdata.ne_idle hopen)
  obtain ⟨-, ws, hq⟩ := hstart.trans hdata
  rw [UnitState.openFrame_outq] at hq
  refine ⟨ws ++ vs, e, n, ?_⟩
  rw [List.foldl_append, List.foldl_append]
  exact hclose.trans (by simp [hq])

end

theorem pkDataAct_grows (c : Config) (elem : Byte) (u : PkUnit) : GrowsByData u (pkDataAct c elem u).state := by
  by_cases hfull : u.nIn.toNat = c.cap
  · rw [pkDataAct_full hfull]; exact .raise _
  · by_cases hlegal : elem.toNat ≤ 1
    · obtain ⟨a, -, hact⟩ := pkDataAct_legal hfull hlegal
      rw [hact]
      split
      · exact .of_emitted a rfl rfl
      · exact .of_same rfl rfl
    · rw [pkDataAct_illegal hfull (by omega)]; exact .raise _

theorem pkEndAct_grows (u : PkUnit) : GrowsByData u (pkEndAct u).state := by
  unfold pkEndAct
  split
  · exact .of_emitted u.dp.acc rfl rfl
  · exact .of_same rfl rfl

theorem upStartAct_grows (c : Config) (shape : Dim × Dim) (u : UpUnit) : GrowsByData u (upStartAct c shape u).state :=
  (GrowsByData.of_same rfl rfl).trans (checkShape_grows c _ _ _)

theorem upBitTurn_grows (byte : Byte) (k : Nat) (u : UpUnit) : GrowsByData u (upBitTurn byte k u).state := by
  unfold upBitTurn
  split
  · cases getBit byte k with
    | ok b => exact .of_emitted ⟨b, u.dp.eol⟩ rfl rfl
    | error e => exact .raise e
  · exact .of_same rfl rfl

theorem upDataAct_grows (byte : Byte) (u : UpUnit) : GrowsByData u (upDataAct byte u).state := by
  unfold upDataAct
  split
  · exact .raise _
  · exact (forEach_grows (upBitTurn_grows byte) _ u).andThen fun _ => .of_same rfl rfl

theorem upEndAct_grows (u : UpUnit) : GrowsByData u (upEndAct u).state := by
  unfold upEndAct
  split
  · exact .raise _
  · exact .of_same rfl rfl

theorem emitEntry_grows (c : Config) (v : Byte) (u : EnUnit) : GrowsByData u (emitEntry c v u).state := by
  unfold emitEntry
  split
  · exact .raise _
  · exact .of_emitted v rfl rfl

theorem enCountBit_grows (c : Config) (b : Bit) (u : EnUnit) : GrowsByData u (enCountBit c b u).state := by
  unfold enCountBit
  split
  · split
    · exact (emitEntry_grows c _ u).andThen fun u => (emitEntry_grows c _ u).andThen fun _ => .of_same rfl rfl
    · exact .of_same rfl rfl
  · exact (emitEntry_grows c _ u).andThen fun _ => .of_same rfl rfl

theorem enDataAct_grows (c : Config) (b : Bit) (u : EnUnit) : GrowsByData u (enDataAct c b u).state := by
  unfold enDataAct
  split
  · exact .raise _
  · exact (enCountBit_grows c b u).andThen fun _ => .of_same rfl rfl

theorem enEndAct_grows (c : Config) (u : EnUnit) : GrowsByData u (enEndAct c u).state := by
  unfold enEndAct
  split
  · exact (emitEntry_grows c _ u).andThen fun _ => .of_same rfl rfl
  · exact .of_same rfl rfl

theorem deStartAct_grows (c : Config) (shape : Dim × Dim) (u : DeUnit) : GrowsByData u (deStartAct c shape u).state :=
  (GrowsByData.of_same rfl rfl).trans (checkShape_grows c _ _ _)

theorem deEmitBit_grows (u : DeUnit) : GrowsByData u (deEmitBit u) :=
  .of_emitted ⟨u.dp.curVal, u.dp.shape.eol⟩ rfl rfl

theorem deRepeat_grows (n : Nat) (u : DeUnit) : GrowsByData u (Nat.iterate deEmitBit n u) := by
  induction n generalizing u with
  | zero => exact .of_same rfl rfl
  | succ n ih => exact (deEmitBit_grows u).trans (ih (deEmitBit u))

theorem deDataAct_grows (c : Config) (entry : Byte) (u : DeUnit) : GrowsByData u (deDataAct c entry u).state := by
  unfold deDataAct
  split
  · exact .raise _
  · split
    · exact .of_same rfl rfl
    · split
      · exact .raise _
      · exact (deRepeat_grows entry.toNat u).trans (.of_same rfl rfl)

theorem deEndAct_grows (u : DeUnit) : GrowsByData u (deEndAct u).state := by
  unfold deEndAct
  split
  · exact .raise _
  · exact .of_same rfl rfl

/-- R87: the beats of a closed frame, its items as DATA and one DONE. -/
def ClosedFrame {α : Type} (bs : List (Beat α)) : Prop :=
  ∃ (vs : List α) (e : ErrCode) (n : Count), bs = vs.map .data ++ [.done e n]

section
variable (c : Config)

/-! Each unit, from reset, closes whatever frame it is offered. -/

theorem pkRun_frame_closes (R : List Byte) : ClosedFrame (pkRun c (pkFrame R) resetPk).outq :=
  frame_closes (fun _ _ => .of_same rfl rfl) (pkDataAct_grows c) pkEndAct_grows resetPk_mode () R
theorem upRun_frame_closes (rows cols : Dim) (P : List Byte) :
    ClosedFrame (upRun c (upFrame rows cols P) resetUp).outq :=
  frame_closes (upStartAct_grows c) upDataAct_grows upEndAct_grows resetUp_mode (rows, cols) P
theorem enRun_frame_closes (B : List Bit) : ClosedFrame (enRun c (enFrame B) resetEn).outq :=
  frame_closes (fun _ _ => .of_same rfl rfl) (enDataAct_grows c) (enEndAct_grows c) resetEn_mode () B
theorem deRun_frame_closes (rows cols : Dim) (E : List Byte) :
    ClosedFrame (deRun c (deFrame rows cols E) resetDe).outq :=
  frame_closes (deStartAct_grows c) (deDataAct_grows c) deEndAct_grows resetDe_mode (rows, cols) E

end

/-! ## The beats of a closed frame (R87, R202) -/

@[simp] theorem payloads_closed {α : Type} (vs : List α) (e : ErrCode) (n : Count) :
    payloads (vs.map .data ++ [.done e n]) = vs := by
  induction vs with
  | nil => rfl
  | cons v vs ih => exact congrArg (v :: ·) ih

@[simp] theorem closingCode_closed {α : Type} (bs : List (Beat α)) (e : ErrCode) (n : Count) :
    closingCode (bs ++ [.done e n]) = some e := by simp [closingCode]

theorem CycleOut.status_of_codes {o : CycleOut} {a b d e : ErrCode} (ha : closingCode o.pk = some a)
    (hb : closingCode o.up = some b) (hd : closingCode o.en = some d) (he : closingCode o.de = some e) :
    o.status = some (mostUpstream [a, b, d, e]) := by simp only [CycleOut.status, ha, hb, hd, he]

theorem mostUpstream_singleton (e : ErrCode) : mostUpstream [e] = e := by cases e <;> rfl

theorem mostUpstream_cons (a b : ErrCode) (rest : List ErrCode) :
    mostUpstream (a :: b :: rest) = if a = .noError then mostUpstream (b :: rest) else a := rfl

/-- R202: the last code stands where every code before it is 0. -/
theorem mostUpstream_four (a b d e : ErrCode) :
    mostUpstream [a, b, d, e] =
      if a ≠ .noError then a else if b ≠ .noError then b else if d ≠ .noError then d else e := by
  simp only [mostUpstream_cons, mostUpstream_singleton, ite_not]

/-! ## The units of a cycle (R200, R201) -/

section
variable {c : Config} {rows cols : Dim} {R : List Byte} {e : ErrCode} {n : Count}

theorem cycle_pk : (cycle c rows cols R).pk = (pkRun c (pkFrame R) resetPk).outq := rfl

/-- R201: the glue makes of a closed frame, whatever its code, a whole frame of the unit downstream. -/
theorem cycle_up {P : List Byte} (h : (cycle c rows cols R).pk = P.map .data ++ [.done e n]) :
    (cycle c rows cols R).up = (upRun c (upFrame rows cols P) resetUp).outq := by
  have hops : .start (rows, cols) :: (cycle c rows cols R).pk.map gluePkUp = upFrame rows cols P := by
    rw [h, upFrame]; simp [gluePkUp, Function.comp_def]
  exact congrArg (fun ops => (upRun c ops resetUp).outq) hops

theorem cycle_en {V : List BitOut} (h : (cycle c rows cols R).up = V.map .data ++ [.done e n]) :
    (cycle c rows cols R).en = (enRun c (enFrame (V.map BitOut.bit)) resetEn).outq := by
  have hops : .start () :: (cycle c rows cols R).up.map glueUpEn = enFrame (V.map BitOut.bit) := by
    rw [h, enFrame]; simp [glueUpEn, Function.comp_def]
  exact congrArg (fun ops => (enRun c ops resetEn).outq) hops

theorem cycle_de {E : List Byte} (h : (cycle c rows cols R).en = E.map .data ++ [.done e n]) :
    (cycle c rows cols R).de = (deRun c (deFrame rows cols E) resetDe).outq := by
  have hops : .start (rows, cols) :: (cycle c rows cols R).en.map glueEnDe = deFrame rows cols E := by
    rw [h, deFrame]; simp [glueEnDe, Function.comp_def]
  exact congrArg (fun ops => (deRun c ops resetDe).outq) hops

end

/-- R202: every unit of a cycle closes its frame, one DONE after its DATA. -/
theorem cycle_codes (c : Config) (rows cols : Dim) (R : List Byte) :
    ∃ a b d e, closingCode (cycle c rows cols R).pk = some a ∧ closingCode (cycle c rows cols R).up = some b ∧
      closingCode (cycle c rows cols R).en = some d ∧ closingCode (cycle c rows cols R).de = some e := by
  obtain ⟨P, a, _, hpk⟩ := pkRun_frame_closes c R
  rw [← cycle_pk (rows := rows) (cols := cols)] at hpk
  obtain ⟨V, b, _, hup⟩ := upRun_frame_closes c rows cols P
  rw [← cycle_up hpk] at hup
  obtain ⟨E, d, _, hen⟩ := enRun_frame_closes c (V.map BitOut.bit)
  rw [← cycle_en hup] at hen
  obtain ⟨W, e, _, hde⟩ := deRun_frame_closes c rows cols E
  rw [← cycle_de hen] at hde
  refine ⟨a, b, d, e, ?_, ?_, ?_, ?_⟩
  · rw [hpk, closingCode_closed]
  · rw [hup, closingCode_closed]
  · rw [hen, closingCode_closed]
  · rw [hde, closingCode_closed]

/-- R212: a sequence with an illegal element is legal bits up to its first one. -/
theorem exists_first_illegal {R : List Byte} (h : ∃ e ∈ R, 2 ≤ e.toNat) :
    ∃ (good : List Bit) (bad : Byte) (rest : List Byte), R = good.map bitElem ++ bad :: rest ∧ 2 ≤ bad.toNat := by
  induction R with
  | nil => simp at h
  | cons x R ih =>
    by_cases hx : 2 ≤ x.toNat
    · exact ⟨[], x, R, rfl, hx⟩
    · obtain ⟨good, bad, rest, rfl, hbad⟩ := ih (by simpa [hx] using h)
      have hbit : x = bitElem (decide (x.toNat = 1)) := by
        refine BitVec.eq_of_toNat_eq ?_
        rcases Nat.le_one_iff_eq_zero_or_eq_one.mp (Nat.le_of_not_lt hx) with h | h <;> simp [bitElem_toNat, h]
      exact ⟨decide (x.toNat = 1) :: good, bad, rest, by rw [List.map_cons, ← hbit]; rfl, hbad⟩

/-- R116, R212: an illegal element among the first `CAP` closes the packer's frame with InvalidBitValue. -/
theorem pkRun_frame_illegal_code {c : Config} {R : List Byte} (h : ∃ e ∈ R.take c.cap, 2 ≤ e.toNat) :
    closingCode (pkRun c (pkFrame R) resetPk).outq = some .invalidBitValue := by
  obtain ⟨good, bad, rest, htake, hbad⟩ := exists_first_illegal h
  have hlen : good.length < c.cap := by
    have hle := List.length_take_le c.cap R
    rw [htake, List.length_append, List.length_map, List.length_cons] at hle
    omega
  have hroom : (pkMid resetPk.outq good).nIn.toNat ≠ c.cap := by rw [pkMid_nIn hlen.le]; exact hlen.ne
  have hR : R = good.map bitElem ++ bad :: (rest ++ R.drop c.cap) := by
    conv_lhs => rw [← List.take_append_drop c.cap R, htake]
    simp
  rw [hR, pkRun_frame_raises resetPk resetPk_mode hlen.le bad _ _ (pkDataAct_illegal hroom hbad), closingCode_closed]

section
variable {c : Config} {rows cols : Dim} {B : List Bit}

/-- R200: the packer of a cycle over a valid raster. -/
theorem cycle_pk_of_bits (hfits : B.length ≤ c.cap) :
    (cycle c rows cols (B.map bitElem)).pk =
      (pack B).map .data ++ [.done .noError (BitVec.ofNat 16 (ceil8 B.length))] := by
  rw [cycle_pk, pkRun_frame resetPk resetPk_mode hfits, resetPk_outq, List.nil_append]

/-- R195, R200: the unpacker gives the raster's bits back, with their flags. -/
theorem cycle_up_of_bits (hrows : 1 ≤ rows.toNat) (hcols : 1 ≤ cols.toNat) (hB : B.length = rows.toNat * cols.toNat)
    (hfits : B.length ≤ c.cap) :
    ∃ n, (cycle c rows cols (B.map bitElem)).up = (withEol cols.toNat B).map .data ++ [.done .noError n] := by
  have hlen : (pack B).length = ceil8 (rows.toNat * cols.toNat) := by rw [pack_length, hB]
  have hall : min (8 * (pack B).length) (rows.toNat * cols.toNat) = B.length := by rw [hlen, hB]; unfold ceil8; omega
  refine ⟨(upMid resetUp.outq rows cols (pack B)).nOut, ?_⟩
  rw [cycle_up (cycle_pk_of_bits hfits), upRun_frame _ resetUp resetUp_mode hrows hcols (hB ▸ hfits)]
  simp only [← hlen, List.take_length, if_true]
  simp only [upMid, hall, unpack_pack, withEol_beats, resetUp_outq, List.nil_append]

end

/-! ## A beat across a link (R201) -/

section
variable {s : State}

theorem applyLink_pkToUp {b : Beat Byte} {q : List (Beat Byte)} (h : s.pk.outq = b :: q) :
    applyLink .pkToUp s = exec (upInstr (gluePkUp b)) { s with
      pk := { s.pk with outq := q }, pkLog := .delivered b :: s.pkLog
      upLog := .accepted (upInstr (gluePkUp b)) :: s.upLog } := by
  simp only [applyLink, h]
  rw [deliverPk_of_cons s b q h, note_of_up (upInstr_unit _)]
theorem applyLink_upToEn {b : Beat BitOut} {q : List (Beat BitOut)} (h : s.up.outq = b :: q) :
    applyLink .upToEn s = exec (enInstr (glueUpEn b)) { s with
      up := { s.up with outq := q }, upLog := .delivered b :: s.upLog
      enLog := .accepted (enInstr (glueUpEn b)) :: s.enLog } := by
  simp only [applyLink, h]
  rw [deliverUp_of_cons s b q h, note_of_en (enInstr_unit _)]
theorem applyLink_enToDe {b : Beat Byte} {q : List (Beat Byte)} (h : s.en.outq = b :: q) :
    applyLink .enToDe s = exec (deInstr (glueEnDe b)) { s with
      en := { s.en with outq := q }, enLog := .delivered b :: s.enLog
      deLog := .accepted (deInstr (glueEnDe b)) :: s.deLog } := by
  simp only [applyLink, h]
  rw [deliverEn_of_cons s b q h, note_of_de (deInstr_unit _)]

end

/-! ## The statements -/

/-- Settles O49: every zero but a leading one follows a 255, which is no zero. -/
theorem zeroEntriesOfEncodings : Obligations.ZeroEntriesOfEncodings := by
  intro B
  have hfollows : ∀ i, i + 1 < (encodeRuns B).length → (encodeRuns B).getD (i + 1) 0 = 0 →
      (encodeRuns B).getD i 0 = runMax := by
    intro i hi hzero
    rw [List.getD_eq_getElem _ _ hi] at hzero
    rw [List.getD_eq_getElem _ _ (Nat.lt_of_succ_lt hi)]
    exact List.isChain_iff_getElem.mp (encodeRuns_zero_follows_runMax B) i hi hzero
  refine ⟨fun i hi hzero => ?_, fun i hi ⟨hfirst, hsecond⟩ => ?_, encodeRuns_getLast_ne_zero B⟩
  · cases i with
    | zero => exact .inl rfl
    | succ i => exact .inr (hfollows i hi hzero)
  · rw [hfollows i hi hsecond] at hfirst
    exact absurd hfirst (by decide)

/-- Settles O52: bit by bit, `pack` puts a raster bit where `unpack` looks for it. -/
theorem unpackInvertsPack : Obligations.UnpackInvertsPack := unpack_pack

/-- Settles O53: the two round trips, one after the other. -/
theorem decodeInvertsEncode : Obligations.DecodeInvertsEncode :=
  fun B => ⟨decodeRuns_encodeRuns B, by rw [unpack_pack, decodeRuns_encodeRuns]⟩

/-- Settles O54: an entry decodes to as many bits as it counts. -/
theorem entriesSumToLength : Obligations.EntriesSumToLength := ⟨entrySum_encodeRuns, decodeRuns_length⟩

/-- Settles O57: unit by unit, each one's beats being the frame of the next. -/
theorem cycleReproducesRaster : Obligations.CycleReproducesRaster := by
  intro c rows cols B hrows hcols hB hfits
  have hpk := cycle_pk_of_bits (rows := rows) (cols := cols) hfits
  obtain ⟨n, hup⟩ := cycle_up_of_bits hrows hcols hB hfits
  have hen := cycle_en hup
  rw [withEol_bits] at hen
  have hpkCode := congrArg closingCode hpk
  have hupCode := congrArg closingCode hup
  rw [closingCode_closed] at hpkCode hupCode
  refine ⟨by rw [hpk, payloads_closed], by rw [hup, payloads_closed], fun hroom => ?_, fun hover => ?_⟩
  · rw [enRun_frame resetEn resetEn_mode hfits hroom, resetEn_outq, List.nil_append] at hen
    have hsum : entrySum (encodeRuns B) = rows.toNat * cols.toNat := (entrySum_encodeRuns B).trans hB
    have hde := cycle_de hen
    rw [deRun_frame _ resetDe resetDe_mode hrows hcols (hB ▸ hfits) hroom hsum.le, if_pos hsum] at hde
    simp only [deMid, resetDe_outq, List.nil_append, decodeRuns_encodeRuns, ← withEol_beats] at hde
    refine ⟨by rw [hen, payloads_closed], by rw [hde, payloads_closed], ?_⟩
    exact CycleOut.status_of_codes hpkCode hupCode (by rw [hen, closingCode_closed]) (by rw [hde, closingCode_closed])
  · rw [enRun_frame_full resetEn resetEn_mode hfits hover, resetEn_outq, List.nil_append] at hen
    obtain ⟨_, _, _, e, -, -, -, he⟩ := cycle_codes c rows cols (B.map bitElem)
    exact CycleOut.status_of_codes hpkCode hupCode (by rw [hen, closingCode_closed]) he

/-- Settles O58: the four codes give the status, and an illegal element gives the first of them. -/
theorem cycleErrorIsMostUpstream : Obligations.CycleErrorIsMostUpstream := by
  intro c rows cols R
  obtain ⟨a, b, d, e, ha, hb, hd, he⟩ := cycle_codes c rows cols R
  have hstatus := CycleOut.status_of_codes ha hb hd he
  rw [mostUpstream_four] at hstatus
  refine ⟨⟨a, b, d, e, ha, hb, hd, he, hstatus⟩, fun hbad => ?_⟩
  have hcode : some a = some .invalidBitValue := ha.symm.trans (pkRun_frame_illegal_code hbad)
  rw [hstatus, Option.some.inj hcode]
  rfl

/-- Settles O6: the head of the queue, DATA or DONE, as the glue's op. -/
theorem linkMovesBeat : Obligations.LinkMovesBeat := by
  refine fun s rest => ⟨fun b q hscript hq => ?_, fun b q hscript hq => ?_, fun b q hscript hq => ?_⟩ <;>
    rw [step_of_script_cons hscript]
  · exact (applyLink_pkToUp (s := { s with script := rest }) hq).trans (by cases b <;> rfl)
  · exact (applyLink_upToEn (s := { s with script := rest }) hq).trans (by cases b <;> rfl)
  · exact (applyLink_enToDe (s := { s with script := rest }) hq).trans (by cases b <;> rfl)

/-- Settles O55: the long runs by the closed form and the round trip, the short examples by evaluation, the empty frames
by the units' frame laws. -/
theorem documentExamples : Obligations.DocumentExamples := by
  have hones : encodeRuns (List.replicate 300 true) = [255, 0, 45] := encodeRuns_replicate_succ true 299
  have hzeros : encodeRuns (List.replicate 300 false) = [0, 255, 0, 45] := encodeRuns_replicate_succ false 299
  refine ⟨hones, hzeros, ?_, ?_, rfl, rfl, by decide, by decide, by decide, by decide, by decide, by decide,
    congrArg UnitState.outq (pkRun_frame resetPk resetPk_mode (R := []) (Nat.zero_le _)),
    congrArg UnitState.outq (enRun_frame resetEn resetEn_mode (B := []) (Nat.zero_le _) (Nat.zero_le _)), ?_, ?_⟩
  · rw [← hones, decodeRuns_encodeRuns]
  · rw [← hzeros, decodeRuns_encodeRuns]
  · decide
  · decide

end Sys2Proof.Machine
end

section
/-! SUPPORT. Exceptions (60_exceptions.md): steps of several instances, a rejected frame, the errors each action of a
unit raises and what that says of the code after an op, which frames end with code 0, and the six statements of that
family. -/

namespace Sys2Proof

/-! ## An op and its `Instr` -/

/-- The class of an op seen from its unit (R80). -/
def Op.cls {A P : Type} : Op A P → OpClass
  | .start _ => .start
  | .data _ => .data
  | .close => .close
  | .rsvd => .rsvd

theorem Op.cls_eq_data {A P : Type} {op : Op A P} : op.cls = .data ↔ ∃ p, op = .data p := by
  cases op <;> simp [Op.cls]

@[simp] theorem pkInstr_cls (op : PkOp) : (pkInstr op).cls = op.cls := by cases op <;> rfl
@[simp] theorem upInstr_cls (op : UpOp) : (upInstr op).cls = op.cls := by cases op <;> rfl
@[simp] theorem enInstr_cls (op : EnOp) : (enInstr op).cls = op.cls := by cases op <;> rfl
@[simp] theorem deInstr_cls (op : DeOp) : (deInstr op).cls = op.cls := by cases op <;> rfl

@[simp] theorem pkInstr_eq_pkData (op : PkOp) (e : Byte) : pkInstr op = .pkData e ↔ op = .data e := by
  cases op <;> simp [pkInstr]
@[simp] theorem upInstr_eq_upStart (op : UpOp) (r c : Dim) : upInstr op = .upStart r c ↔ op = .start (r, c) := by
  cases op <;> simp [upInstr, Prod.ext_iff]
@[simp] theorem upInstr_eq_upEnd (op : UpOp) : upInstr op = .upEnd ↔ op = .close := by cases op <;> simp [upInstr]
@[simp] theorem enInstr_eq_enData (op : EnOp) (b : Bit) : enInstr op = .enData b ↔ op = .data b := by
  cases op <;> simp [enInstr]
@[simp] theorem enInstr_eq_enEnd (op : EnOp) : enInstr op = .enEnd ↔ op = .close := by cases op <;> simp [enInstr]
@[simp] theorem deInstr_eq_deStart (op : DeOp) (r c : Dim) : deInstr op = .deStart r c ↔ op = .start (r, c) := by
  cases op <;> simp [deInstr, Prod.ext_iff]
@[simp] theorem deInstr_eq_deData (op : DeOp) (e : Byte) : deInstr op = .deData e ↔ op = .data e := by
  cases op <;> simp [deInstr]
@[simp] theorem deInstr_eq_deEnd (op : DeOp) : deInstr op = .deEnd ↔ op = .close := by cases op <;> simp [deInstr]

end Sys2Proof

namespace Sys2Proof.Machine

open Sys2Proof

/-! ## Several instances (R227) -/

/-- R20, R228: every step completes. -/
theorem step_next (s : State) : ∃ t, step s = .next t := by
  cases hscript : s.script with
  | nil => exact ⟨s, step_of_script_nil hscript⟩
  | cons ev rest =>
    obtain ⟨f, -, hf⟩ := applyEvent_actsOn ev
    exact ⟨_, (step_of_script_cons hscript).trans (hf _)⟩

/-- R227: a step of the machine at place `k` is one change of a state, made at that place of the list. -/
theorem exists_stepAt_eq_modify : ∃ f : State → State, ∀ k m, Instances.stepAt k m = .next (m.modify k f) := by
  choose f hf using step_next
  refine ⟨f, fun k m => ?_⟩
  unfold Instances.stepAt
  rw [List.modify_eq_set_getElem?]
  cases m[k]? with
  | none => rfl
  | some s => simp only [hf s]; rfl

/-- Settles O30: changes at two places of a list commute, and keep every other place. -/
theorem instancesAreIndependent : Obligations.InstancesAreIndependent := by
  obtain ⟨f, hf⟩ := exists_stepAt_eq_modify
  intro m j k hjk
  simp only [hf]
  refine ⟨⟨_, _, _, rfl, rfl, rfl, ?_⟩, ?_⟩
  · rw [List.modify_modify_ne f f m hjk]
  · rintro _ ⟨⟩
    exact ⟨List.getElem?_modify_ne f m hjk, List.length_modify f m j⟩

/-! ## A rejected frame (R217 to R219) -/

/-- The mode of one unit. -/
def State.modeOf (s : State) : UnitId → Mode
  | .pk => s.pk.mode
  | .up => s.up.mode
  | .en => s.en.mode
  | .de => s.de.mode

section
variable {s : State}

/-- R218: in mode ERR no op but END has an effect. -/
theorem exec_of_rejected {i : Instr} (hmode : s.modeOf i.unit = .err) (hcls : i.cls ≠ .close) :
    exec i s = .next s := by
  rcases instr_cases i with ⟨op, rfl⟩ | ⟨op, rfl⟩ | ⟨op, rfl⟩ | ⟨op, rfl⟩
  · rw [pkInstr_unit] at hmode
    exact exec_pk_of_accept (accept_err_of_ne_close hmode (by rintro rfl; exact hcls rfl))
  · rw [upInstr_unit] at hmode
    exact exec_up_of_accept (accept_err_of_ne_close hmode (by rintro rfl; exact hcls rfl))
  · rw [enInstr_unit] at hmode
    exact exec_en_of_accept (accept_err_of_ne_close hmode (by rintro rfl; exact hcls rfl))
  · rw [deInstr_unit] at hmode
    exact exec_de_of_accept (accept_err_of_ne_close hmode (by rintro rfl; exact hcls rfl))

/-- R218: ops of a unit in mode ERR, none of them END, leave the next op to act on the same state. -/
theorem execAll_of_rejected {u : UnitId} (hmode : s.modeOf u = .err) {ops : List Instr}
    (hcls : ∀ i ∈ ops, i.cls ≠ .close) (hunit : ∀ i ∈ ops, i.unit = u) (last : Instr) :
    execAll (ops ++ [last]) s = exec last s := by
  refine execAll_snoc ?_ last
  induction ops with
  | nil => rfl
  | cons i ops ih =>
    rw [List.forall_mem_cons] at hcls hunit
    rw [execAll, exec_of_rejected (hunit.1 ▸ hmode) hcls.1]
    exact ih hcls.2 hunit.2

end

/-- Settles O36: what comes before END has no effect, and END closes the frame with its first code. -/
theorem rejectedFrameWaitsForEnd : Obligations.RejectedFrameWaitsForEnd := by
  refine fun ops s hcls => ⟨fun hmode hunit => ?_, fun hmode hunit => ?_, fun hmode hunit => ?_, fun hmode hunit => ?_⟩
  · exact (execAll_of_rejected (u := .pk) hmode hcls hunit _).trans (exec_pk_of_accept (accept_err_close hmode))
  · exact (execAll_of_rejected (u := .up) hmode hcls hunit _).trans (exec_up_of_accept (accept_err_close hmode))
  · exact (execAll_of_rejected (u := .en) hmode hcls hunit _).trans (exec_en_of_accept (accept_err_close hmode))
  · exact (execAll_of_rejected (u := .de) hmode hcls hunit _).trans (exec_de_of_accept (accept_err_close hmode))

/-! ## The code after an op (R93, R211) -/

section
variable {D α A P : Type}

/-- The error each of a unit's three actions raises in some state of it, `none` where it raises none. -/
structure Raises (A P : Type) where
  start : A → Option ErrCode
  data : P → Option ErrCode
  close : Option ErrCode

/-- The table `r` is right about a unit in state `u`: START from IDLE leaves the code raised or 0, DATA and END in RUN
the code raised or the one there was. -/
structure Raises.RightFor (r : Raises A P) (f : Op A P → UnitState D α → UnitState D α) (u : UnitState D α) :
    Prop where
  start : u.mode = .idle → ∀ a, (f (.start a) u).err = (r.start a).getD .noError
  data : u.mode = .run → ∀ p, (f (.data p) u).err = (r.data p).getD u.err
  close : u.mode = .run → (f .close u).err = r.close.getD u.err

/-- R93, R211: the op `op` in mode `m` brings the code `x`, by the dispatch or by the unit's own action. -/
def Raises.Brings (r : Raises A P) (m : Mode) (op : Op A P) (x : ErrCode) : Prop :=
  (x = .protocolViolation ∧
    (m = .run ∧ (op.cls = .start ∨ op.cls = .rsvd) ∨ m = .idle ∧ op.cls ≠ .start)) ∨
  (m = .idle ∧ ∃ a, op = .start a ∧ r.start a = some x) ∨
  (m = .run ∧ ∃ p, op = .data p ∧ r.data p = some x) ∨
  (m = .run ∧ op = .close ∧ r.close = some x)

theorem getD_eq_iff_of_ne {o : Option ErrCode} {x y : ErrCode} (h : y ≠ x) : o.getD y = x ↔ o = some x := by
  cases o <;> simp [h]

/-- R93, R211: a code that was not there before the op is there after it exactly when the op brings it. -/
theorem accept_err_iff_brings {S : A → UnitState D α → Act (UnitState D α)}
    {T : P → UnitState D α → Act (UnitState D α)} {E : UnitState D α → Act (UnitState D α)} {u : UnitState D α}
    {r : Raises A P} (hr : r.RightFor (accept S T E) u) {x : ErrCode} (hx : x ≠ .noError)
    (hu : u.mode ≠ .idle → u.err ≠ x) (op : Op A P) : (accept S T E op u).err = x ↔ r.Brings u.mode op x := by
  have hpv : ErrCode.protocolViolation = x ↔ x = .protocolViolation := eq_comm
  match hm : u.mode with
  | .idle =>
    cases op with
    | start a => rw [hr.start hm, getD_eq_iff_of_ne hx.symm]; simp [Raises.Brings, Op.cls]
    | data p => rw [accept_idle_data_rejected hm]; simp [Raises.Brings, Op.cls, hpv]
    | close => rw [accept_idle_close hm]; simp [Raises.Brings, Op.cls, hpv]
    | rsvd => rw [accept_idle_rsvd_rejected hm]; simp [Raises.Brings, Op.cls, hpv]
  | .run =>
    have hold : u.err ≠ x := hu (by simp [hm])
    cases op with
    | start a => rw [accept_run_start_raises hm]; simp [Raises.Brings, Op.cls, hpv]
    | data p => rw [hr.data hm, getD_eq_iff_of_ne hold]; simp [Raises.Brings, Op.cls]
    | close => rw [hr.close hm, getD_eq_iff_of_ne hold]; simp [Raises.Brings, Op.cls]
    | rsvd => rw [accept_run_rsvd_raises hm]; simp [Raises.Brings, Op.cls, hpv]
  | .err =>
    have hold : u.err ≠ x := hu (by simp [hm])
    have hkeep : (accept S T E op u).err = u.err := by
      by_cases hop : op = .close
      · rw [hop, accept_err_close hm, UnitState.closeFrame_err]
      · rw [accept_err_of_ne_close hm hop]
    simp [Raises.Brings, hkeep, hold]

end

/-! ## The errors each unit's actions raise (R212 to R215) -/

/-- R111: DATA by the count, then by the element. -/
def pkRaises (c : Config) (u : PkUnit) : Raises Unit Byte where
  start _ := none
  data e := if u.nIn.toNat = c.cap then some .capacityExceeded else if 2 ≤ e.toNat then some .invalidBitValue else none
  close := none

/-- R130, R170: START of `up` and `de` by the shape. -/
def shapeRaises (c : Config) (shape : Dim × Dim) : Option ErrCode :=
  if shape.1.toNat = 0 ∨ shape.2.toNat = 0 then some .protocolViolation
  else if c.cap < shape.1.toNat * shape.2.toNat then some .capacityExceeded else none

/-- R130 to R132: a byte too many, or too few. -/
def upRaises (c : Config) (u : UpUnit) : Raises (Dim × Dim) Byte where
  start := shapeRaises c
  data _ := if u.nOut.toNat = u.dp.total.toNat then some .protocolViolation else none
  close := if u.nOut.toNat < u.dp.total.toNat then some .protocolViolation else none

/-- R151, R152, R156: a bit too many, or an entry too many. -/
def enRaises (c : Config) (u : EnUnit) : Raises Unit Bit where
  start _ := none
  data b :=
    if u.nIn.toNat = c.cap ∨ (b ≠ u.dp.curVal ∧ u.nOut.toNat = c.cap) ∨
      (b = u.dp.curVal ∧ u.dp.curCnt.toNat = 255 ∧ (u.nOut.toNat = c.cap ∨ u.nOut.toNat + 1 = c.cap))
    then some .capacityExceeded else none
  close := if u.dp.curCnt ≠ 0 ∧ u.nOut.toNat = c.cap then some .capacityExceeded else none

/-- R170 to R172: an entry too many, an entry too long, or bits missing. -/
def deRaises (c : Config) (u : DeUnit) : Raises (Dim × Dim) Byte where
  start := shapeRaises c
  data e :=
    if u.nIn.toNat = c.cap then some .capacityExceeded
    else if e ≠ 0 ∧ u.dp.shape.total.toNat < u.nOut.toNat + e.toNat then some .protocolViolation else none
  close := if u.nOut.toNat < u.dp.shape.total.toNat then some .protocolViolation else none

theorem pkRaises_rightFor (c : Config) (u : PkUnit) : (pkRaises c u).RightFor (pkAccept c) u where
  start hidle _ := by rw [pkAccept, accept_idle_start hidle]; rfl
  data hrun e := by
    by_cases hfull : u.nIn.toNat = c.cap
    · rw [pkAccept, accept_run_data_fails hrun (pkDataAct_full hfull e)]
      simp [pkRaises, hfull]
    · by_cases hbad : 2 ≤ e.toNat
      · rw [pkAccept, accept_run_data_fails hrun (pkDataAct_illegal hfull hbad)]
        simp [pkRaises, hfull, hbad]
      · obtain ⟨a, -, hact⟩ := pkDataAct_legal hfull (e := e) (by omega)
        rw [pkAccept, accept_run_data hrun, hact]
        simp only [pkRaises, if_neg hfull, if_neg hbad]
        split <;> rfl
  close hrun := by
    by_cases hpos : u.dp.bitpos = 0
    · rw [pkAccept_run_close_whole c hrun hpos]; rfl
    · rw [pkAccept_run_close_partial c hrun hpos]; rfl

/-- R130: the code the tests on a shape leave. -/
theorem shapeRaises_getD (c : Config) (rows cols : Dim) : (shapeRaises c (rows, cols)).getD .noError =
    if rows.toNat = 0 ∨ cols.toNat = 0 then .protocolViolation
    else if c.cap < rows.toNat * cols.toNat then .capacityExceeded else .noError := by
  unfold shapeRaises
  split
  · rfl
  · split <;> rfl

section
variable {D α : Type} {x : ErrCode}

theorem andThen_err {a : Act (UnitState D α)} {f : UnitState D α → Act (UnitState D α)} (ha : a.state.err = x)
    (hf : ∀ v, v.err = x → (f v).state.err = x) : (a.andThen f).state.err = x := by
  cases a with
  | ok v => exact hf v ha
  | raised v => exact ha

theorem forEach_err {body : Nat → UnitState D α → Act (UnitState D α)} {ks : List Nat}
    (h : ∀ k ∈ ks, ∀ u, (body k u).state.err = u.err) (u : UnitState D α) :
    (Act.forEach body ks u).state.err = u.err := by
  induction ks generalizing u with
  | nil => rfl
  | cons k ks ih =>
    rw [List.forall_mem_cons] at h
    exact andThen_err (h.1 u) fun v hv => (ih h.2 v).trans hv

end

/-- R131, R213: a bit of a byte is read at an index within 7, so no turn of the loop raises. -/
theorem upBitTurn_err (byte : Byte) {k : Nat} (hk : k ≤ 7) (u : UpUnit) : (upBitTurn byte k u).state.err = u.err := by
  rw [upBitTurn, getBit_ok hk]
  split <;> rfl

theorem upRaises_rightFor (c : Config) (u : UpUnit) : (upRaises c u).RightFor (upAccept c) u where
  start hidle a := by rw [upAccept_idle_start hidle]; exact (shapeRaises_getD c a.1 a.2).symm
  data hrun byte := by
    by_cases hfull : u.nOut.toNat = u.dp.total.toNat
    · rw [upAccept, accept_run_data_fails hrun (upDataAct_excess hfull byte)]
      simp [upRaises, hfull]
    · have hloop := forEach_err (ks := [0, 1, 2, 3, 4, 5, 6, 7]) (body := upBitTurn byte)
        (fun k hk => upBitTurn_err byte (by revert k; decide)) u
      rw [upAccept, accept_run_data hrun, upDataAct, if_neg hfull, andThen_err hloop fun _ => id]
      simp [upRaises, hfull]
  close hrun := by
    by_cases hlt : u.nOut.toNat < u.dp.total.toNat
    · rw [upAccept_run_close_short c hrun hlt]; simp [upRaises, hlt]
    · rw [upAccept_run_close_full c hrun (not_lt.mp hlt)]; simp [upRaises, hlt]

theorem enRaises_rightFor (c : Config) (u : EnUnit) : (enRaises c u).RightFor (enAccept c) u where
  start hidle _ := by rw [enAccept, accept_idle_start hidle]; rfl
  data hrun b := by
    by_cases hfull : u.nIn.toNat = c.cap
    · rw [enAccept, accept_run_data_fails hrun (enDataAct_full hfull)]
      simp [enRaises, hfull]
    · by_cases hsame : b = u.dp.curVal
      · by_cases hcnt : u.dp.curCnt.toNat = 255
        · have hsplit := enCountBit_split (c := c) hsame (eq_runMax_iff.mpr hcnt)
          have hsecond := count_succ_eq_cap_iff c u.nOut
          by_cases hfirst : u.nOut.toNat = c.cap
          · rw [emitEntry_full hfirst] at hsplit
            rw [enAccept_run_data_raised hrun hfull hsplit hrun]
            simp [enRaises, hsame, hcnt, hfirst]
          · rw [emitEntry_ok hfirst, Act.ok_andThen] at hsplit
            by_cases hone : u.nOut.toNat + 1 = c.cap
            · rw [emitEntry_full (hsecond.mpr hone)] at hsplit
              rw [enAccept_run_data_raised hrun hfull hsplit hrun]
              simp [enRaises, hsame, hcnt, hone]
            · rw [emitEntry_ok (mt hsecond.mp hone)] at hsplit
              rw [enAccept_run_data_ok hrun hfull hsplit]
              simp [enRaises, hfull, hsame, hfirst, hone]
        · rw [enAccept_run_data_ok hrun hfull (enCountBit_count hsame (mt eq_runMax_iff.mp hcnt))]
          simp [enRaises, hfull, hsame, hcnt]
      · have hchange := enCountBit_change (c := c) hsame
        by_cases hout : u.nOut.toNat = c.cap
        · rw [emitEntry_full hout] at hchange
          rw [enAccept_run_data_raised hrun hfull hchange hrun]
          simp [enRaises, hsame, hout]
        · rw [emitEntry_ok hout] at hchange
          rw [enAccept_run_data_ok hrun hfull hchange]
          simp [enRaises, hfull, hsame, hout]
  close hrun := by
    by_cases hcnt : u.dp.curCnt = 0
    · rw [enAccept_run_close_empty hrun hcnt]; simp [enRaises, hcnt]
    · by_cases hout : u.nOut.toNat = c.cap
      · rw [enAccept_run_close_full hrun hcnt hout]; simp [enRaises, show u.dp.curCnt ≠ 0#8 from hcnt, hout]
      · rw [enAccept_run_close_flush hrun hcnt hout]; simp [enRaises, hout]

theorem deRepeat_err (n : Nat) (u : DeUnit) : (Nat.iterate deEmitBit n u).err = u.err := by
  induction n generalizing u with
  | zero => rfl
  | succ n ih => exact ih (deEmitBit u)

theorem deRaises_rightFor (c : Config) (u : DeUnit) : (deRaises c u).RightFor (deAccept c) u where
  start hidle a := by rw [deAccept_idle_start c hidle]; exact (shapeRaises_getD c a.1 a.2).symm
  data hrun e := by
    by_cases hfull : u.nIn.toNat = c.cap
    · rw [deAccept, accept_run_data_fails hrun (deDataAct_full hfull e)]
      simp [deRaises, hfull]
    · by_cases hzero : e = 0
      · rw [hzero, deAccept_run_zero c hrun hfull]
        simp [deRaises, hfull]
      · by_cases hover : u.dp.shape.total.toNat < u.nOut.toNat + e.toNat
        · rw [deAccept, accept_run_data_fails hrun (deDataAct_overrun hfull hzero hover)]
          simp [deRaises, hfull, show e ≠ 0#8 from hzero, hover]
        · rw [deAccept, accept_run_data hrun, deDataAct, if_neg hfull, if_neg hzero, if_neg hover]
          simp [deRaises, hfull, hover, deFlip, deRepeat_err]
  close hrun := by
    by_cases hlt : u.nOut.toNat < u.dp.shape.total.toNat
    · rw [deAccept_run_close_short c hrun hlt]; simp [deRaises, hlt]
    · rw [deAccept_run_close_full c hrun (not_lt.mp hlt)]; simp [deRaises, hlt]

/-! ## The code after an op, unit by unit -/

section
variable {c : Config} {x : ErrCode}

theorem pkAccept_err_iff {u : PkUnit} (hx : x ≠ .noError) (hu : u.mode ≠ .idle → u.err ≠ x) (op : PkOp) :
    (pkAccept c op u).err = x ↔ (pkRaises c u).Brings u.mode op x :=
  accept_err_iff_brings (pkRaises_rightFor c u) hx hu op
theorem upAccept_err_iff {u : UpUnit} (hx : x ≠ .noError) (hu : u.mode ≠ .idle → u.err ≠ x) (op : UpOp) :
    (upAccept c op u).err = x ↔ (upRaises c u).Brings u.mode op x :=
  accept_err_iff_brings (upRaises_rightFor c u) hx hu op
theorem enAccept_err_iff {u : EnUnit} (hx : x ≠ .noError) (hu : u.mode ≠ .idle → u.err ≠ x) (op : EnOp) :
    (enAccept c op u).err = x ↔ (enRaises c u).Brings u.mode op x :=
  accept_err_iff_brings (enRaises_rightFor c u) hx hu op
theorem deAccept_err_iff {u : DeUnit} (hx : x ≠ .noError) (hu : u.mode ≠ .idle → u.err ≠ x) (op : DeOp) :
    (deAccept c op u).err = x ↔ (deRaises c u).Brings u.mode op x :=
  accept_err_iff_brings (deRaises_rightFor c u) hx hu op

end

/-- Which code a row of an error table gives, the error `a` coming before the others. -/
theorem ite_some_eq_some_iff {p : Prop} [Decidable p] {a x : ErrCode} {o : Option ErrCode} :
    (if p then some a else o) = some x ↔ (p ∧ a = x) ∨ (¬p ∧ o = some x) := by
  split <;> simp [*]

theorem shapeRaises_eq_capacity {c : Config} {shape : Dim × Dim} : shapeRaises c shape = some .capacityExceeded ↔
    1 ≤ shape.1.toNat ∧ 1 ≤ shape.2.toNat ∧ c.cap < shape.1.toNat * shape.2.toNat := by
  simp only [shapeRaises, ite_some_eq_some_iff, reduceCtorEq, and_false, false_or, or_false, and_true]
  omega

theorem shapeRaises_eq_violation {c : Config} {shape : Dim × Dim} :
    shapeRaises c shape = some .protocolViolation ↔ shape.1.toNat = 0 ∨ shape.2.toNat = 0 := by
  simp only [shapeRaises, ite_some_eq_some_iff, reduceCtorEq, and_false, or_false, and_true]

/-- R20: an op is accepted by its own unit, and every other unit is as before. -/
theorem exec_unit_by_unit (i : Instr) (s : State) : ∃ t : State, exec i s = .next t ∧
    (i.unit ≠ .pk ∧ t.pk = s.pk ∨ ∃ op, i = pkInstr op ∧ t.pk = pkAccept s.config op s.pk) ∧
    (i.unit ≠ .up ∧ t.up = s.up ∨ ∃ op, i = upInstr op ∧ t.up = upAccept s.config op s.up) ∧
    (i.unit ≠ .en ∧ t.en = s.en ∨ ∃ op, i = enInstr op ∧ t.en = enAccept s.config op s.en) ∧
    (i.unit ≠ .de ∧ t.de = s.de ∨ ∃ op, i = deInstr op ∧ t.de = deAccept s.config op s.de) := by
  rcases instr_cases i with ⟨op, rfl⟩ | ⟨op, rfl⟩ | ⟨op, rfl⟩ | ⟨op, rfl⟩
  · exact ⟨_, exec_pk op s, .inr ⟨op, rfl, rfl⟩, by simp⟩
  · exact ⟨_, exec_up op s, by simp, .inr ⟨op, rfl, rfl⟩, by simp⟩
  · exact ⟨_, exec_en op s, by simp, by simp, .inr ⟨op, rfl, rfl⟩, by simp⟩
  · exact ⟨_, exec_de op s, by simp, by simp, by simp, .inr ⟨op, rfl, rfl⟩⟩

/-- R31: outside mode ERR, with `err` 0 in RUN, no code but that of the last frame stands. -/
theorem err_ne_of_sound {D α : Type} {u : UnitState D α} (hmode : u.mode ≠ .err)
    (hrun : u.mode = .run → u.err = .noError) {x : ErrCode} (hx : x ≠ .noError) (hidle : u.mode ≠ .idle) : u.err ≠ x := by
  match hm : u.mode with
  | .idle => exact absurd hm hidle
  | .run => rw [hrun hm]; exact hx.symm
  | .err => exact absurd hm hmode

/-- Settles O37: the rows of each unit's table that raise CapacityExceeded. -/
theorem capacityExceededCauses : Obligations.CapacityExceededCauses := by
  intro i s
  obtain ⟨t, hexec, hpk, hup, hen, hde⟩ := exec_unit_by_unit i s
  refine ⟨t, hexec, fun hunit hmode hrun => ?_, fun hunit hmode hrun => ?_, fun hunit hmode hrun => ?_,
    fun hunit hmode hrun => ?_⟩
  · obtain ⟨op, rfl, ht⟩ := hpk.resolve_left fun h => h.1 hunit
    rw [ht, pkAccept_err_iff (x := .capacityExceeded) nofun (err_ne_of_sound hmode hrun nofun)]
    simp [Raises.Brings, pkRaises]
  · obtain ⟨op, rfl, ht⟩ := hup.resolve_left fun h => h.1 hunit
    rw [ht, upAccept_err_iff (x := .capacityExceeded) nofun (err_ne_of_sound hmode hrun nofun)]
    simp [Raises.Brings, upRaises, shapeRaises_eq_capacity]
  · obtain ⟨op, rfl, ht⟩ := hen.resolve_left fun h => h.1 hunit
    rw [ht, enAccept_err_iff (x := .capacityExceeded) nofun (err_ne_of_sound hmode hrun nofun)]
    simp only [Raises.Brings, enRaises, Option.ite_none_right_eq_some, reduceCtorEq, false_and, and_false, exists_false,
      and_true, false_or, enInstr_eq_enData, enInstr_eq_enEnd, and_or_left]
  · obtain ⟨op, rfl, ht⟩ := hde.resolve_left fun h => h.1 hunit
    rw [ht, deAccept_err_iff (x := .capacityExceeded) nofun (err_ne_of_sound hmode hrun nofun)]
    simp [Raises.Brings, deRaises, shapeRaises_eq_capacity]

/-- Settles O38: the dispatch's rows, and those of each unit's table that raise ProtocolViolation. -/
theorem protocolViolationCauses : Obligations.ProtocolViolationCauses := by
  intro i s
  obtain ⟨t, hexec, hpk, hup, hen, hde⟩ := exec_unit_by_unit i s
  refine ⟨t, hexec, fun hunit hmode hrun => ?_, fun hunit hmode hrun => ?_, fun hunit hmode hrun => ?_,
    fun hunit hmode hrun => ?_⟩
  · obtain ⟨op, rfl, ht⟩ := hpk.resolve_left fun h => h.1 hunit
    rw [ht, pkAccept_err_iff (x := .protocolViolation) nofun (err_ne_of_sound hmode hrun nofun)]
    simp [Raises.Brings, pkRaises, ite_some_eq_some_iff]
  · obtain ⟨op, rfl, ht⟩ := hup.resolve_left fun h => h.1 hunit
    rw [ht, upAccept_err_iff (x := .protocolViolation) nofun (err_ne_of_sound hmode hrun nofun)]
    simp [Raises.Brings, upRaises, shapeRaises_eq_violation, Op.cls_eq_data, or_assoc]
  · obtain ⟨op, rfl, ht⟩ := hen.resolve_left fun h => h.1 hunit
    rw [ht, enAccept_err_iff (x := .protocolViolation) nofun (err_ne_of_sound hmode hrun nofun)]
    simp [Raises.Brings, enRaises]
  · obtain ⟨op, rfl, ht⟩ := hde.resolve_left fun h => h.1 hunit
    rw [ht, deAccept_err_iff (x := .protocolViolation) nofun (err_ne_of_sound hmode hrun nofun)]
    simp [Raises.Brings, deRaises, ite_some_eq_some_iff, shapeRaises_eq_violation, or_assoc]

/-! ## The errors of single bits (R212, R213) -/

section
variable {c : Config} {x : ErrCode}

/-- R213, R214, R215: the actions of `up` raise CapacityExceeded and ProtocolViolation only, so no op brings another
code; likewise for `en` and `de`. -/
theorem err_of_upAccept_err (hx : x ≠ .noError ∧ x ≠ .capacityExceeded ∧ x ≠ .protocolViolation)
    (u : UpUnit) (op : UpOp) : (upAccept c op u).err = x → u.err = x := by
  obtain ⟨h0, h3, h4⟩ := hx
  refine not_imp_not.mp fun hold => ?_
  rw [upAccept_err_iff h0 fun _ => hold]
  simp [Raises.Brings, upRaises, shapeRaises, ite_some_eq_some_iff, h3.symm, h4, h4.symm]
theorem err_of_enAccept_err (hx : x ≠ .noError ∧ x ≠ .capacityExceeded ∧ x ≠ .protocolViolation)
    (u : EnUnit) (op : EnOp) : (enAccept c op u).err = x → u.err = x := by
  obtain ⟨h0, h3, h4⟩ := hx
  refine not_imp_not.mp fun hold => ?_
  rw [enAccept_err_iff h0 fun _ => hold]
  simp [Raises.Brings, enRaises, h3.symm, h4]
theorem err_of_deAccept_err (hx : x ≠ .noError ∧ x ≠ .capacityExceeded ∧ x ≠ .protocolViolation)
    (u : DeUnit) (op : DeOp) : (deAccept c op u).err = x → u.err = x := by
  obtain ⟨h0, h3, h4⟩ := hx
  refine not_imp_not.mp fun hold => ?_
  rw [deAccept_err_iff h0 fun _ => hold]
  simp [Raises.Brings, deRaises, shapeRaises, ite_some_eq_some_iff, h3.symm, h4, h4.symm]

/-- R212: the one row of the packer's table with InvalidBitValue. -/
theorem pkAccept_invalidBitValue_iff {u : PkUnit} (hold : u.err ≠ .invalidBitValue) (op : PkOp) :
    (pkAccept c op u).err = .invalidBitValue ↔
      u.mode = .run ∧ ∃ e, op = .data e ∧ u.nIn.toNat ≠ c.cap ∧ 2 ≤ e.toNat := by
  rw [pkAccept_err_iff (by decide) fun _ => hold]
  simp only [Raises.Brings, pkRaises, ite_some_eq_some_iff, Option.ite_none_right_eq_some, reduceCtorEq, false_and,
    and_false, exists_false, false_or, or_false, and_true]

/-- R213: the packer's table has no InvalidBitIndex. -/
theorem invalidBitIndex_of_pkAccept (u : PkUnit) (op : PkOp) :
    (pkAccept c op u).err = .invalidBitIndex → u.err = .invalidBitIndex := by
  refine not_imp_not.mp fun hold => ?_
  rw [pkAccept_err_iff (by decide) fun _ => hold]
  simp [Raises.Brings, pkRaises, ite_some_eq_some_iff]

/-- A code that no op brings into a unit is after the op only where it was before. -/
theorem err_of_unit_or_accept {D α Ops : Type} {u v : UnitState D α} {p : Prop} {q : Ops → Prop}
    {f : Ops → UnitState D α → UnitState D α} (h : p ∧ v = u ∨ ∃ op, q op ∧ v = f op u)
    (hf : ∀ op, (f op u).err = x → u.err = x) : v.err = x → u.err = x := by
  rcases h with ⟨-, rfl⟩ | ⟨op, -, rfl⟩
  · exact id
  · exact hf op

end

/-- Settles O39: the one row with InvalidBitValue, and tables without a code of a bit elsewhere. -/
theorem bitErrorsCauses : Obligations.BitErrorsCauses := by
  intro i s
  obtain ⟨t, hexec, hpk, hup, hen, hde⟩ := exec_unit_by_unit i s
  refine ⟨t, hexec, fun hnew hold => ?_, fun e hi hrun hroom hbad => ?_,
    err_of_unit_or_accept hup (err_of_upAccept_err (by decide) s.up),
    err_of_unit_or_accept hen (err_of_enAccept_err (by decide) s.en),
    err_of_unit_or_accept hde (err_of_deAccept_err (by decide) s.de),
    err_of_unit_or_accept hpk (invalidBitIndex_of_pkAccept s.pk),
    err_of_unit_or_accept hup (err_of_upAccept_err (by decide) s.up),
    err_of_unit_or_accept hen (err_of_enAccept_err (by decide) s.en),
    err_of_unit_or_accept hde (err_of_deAccept_err (by decide) s.de)⟩
  · obtain ⟨-, hkept⟩ | ⟨op, rfl, ht⟩ := hpk
    · exact absurd (hkept ▸ hnew) hold
    · rw [ht, pkAccept_invalidBitValue_iff hold] at hnew
      simpa using hnew
  · subst hi
    obtain ⟨op, hop, ht⟩ := hpk.resolve_left fun h => h.1 rfl
    rw [ht, (pkInstr_eq_pkData op e).mp hop.symm, pkAccept,
      accept_run_data_fails hrun (pkDataAct_illegal hroom.ne hbad)]
    exact ⟨rfl, rfl⟩

/-! ## Which frames end with code 0 (R194, R222) -/

/-- A list without a property that the empty list has contains a first item with which the property is lost. -/
theorem exists_first_excess {α : Type} {p : List α → Prop} (hnil : p []) {l : List α} (hl : ¬ p l) :
    ∃ fits x rest, l = fits ++ x :: rest ∧ p fits ∧ ¬ p (fits ++ [x]) := by
  induction l using List.reverseRecOn with
  | nil => exact absurd hnil hl
  | append_singleton l x ih =>
    by_cases h : p l
    · exact ⟨l, x, [], rfl, h, hl⟩
    · obtain ⟨fits, y, rest, rfl, hfits⟩ := ih h
      exact ⟨fits, y, rest ++ [x], by simp, hfits⟩

/-- R81: elements that are 0 or 1 are the elements of bits. -/
theorem exists_bits_of_legal {R : List Byte} (h : ∀ e ∈ R, e.toNat ≤ 1) : ∃ B : List Bit, R = B.map bitElem := by
  refine ⟨R.map fun e => decide (e.toNat = 1), ?_⟩
  rw [List.map_map]
  conv_lhs => rw [← List.map_id R]
  refine List.map_congr_left fun e he => BitVec.eq_of_toNat_eq ?_
  rcases Nat.le_one_iff_eq_zero_or_eq_one.mp (h e he) with h | h <;> simp [bitElem_toNat, h]

section
variable {c : Config}

/-- R116: the packer takes legal elements, as many as the capacity. -/
theorem pkRun_frame_err_iff {u : PkUnit} (hidle : u.mode = .idle) (R : List Byte) :
    (pkRun c (pkFrame R) u).err = .noError ↔ R.length ≤ c.cap ∧ ∀ e ∈ R, e.toNat ≤ 1 := by
  by_cases h : R.length ≤ c.cap ∧ ∀ e ∈ R, e.toNat ≤ 1
  · obtain ⟨B, rfl⟩ := exists_bits_of_legal h.2
    refine iff_of_true ?_ h
    rw [pkRun_frame u hidle (by simpa using h.1)]
  · refine iff_of_false ?_ h
    obtain ⟨fits, bad, rest, rfl, ⟨hlen, hlegal⟩, hbad⟩ :=
      exists_first_excess (p := fun R : List Byte => R.length ≤ c.cap ∧ ∀ e ∈ R, e.toNat ≤ 1) (by simp) h
    obtain ⟨good, rfl⟩ := exists_bits_of_legal hlegal
    rw [List.length_map] at hlen
    have hin := pkMid_nIn (c := c) (q := u.outq) hlen
    by_cases hfull : good.length = c.cap
    · rw [pkRun_frame_raises u hidle hlen bad rest _ (pkDataAct_full (hin.trans hfull) bad)]
      nofun
    · have hillegal : 2 ≤ bad.toNat := by
        by_contra hle
        exact hbad ⟨by simp; omega, List.forall_mem_append.mpr ⟨hlegal, List.forall_mem_singleton.mpr (by omega)⟩⟩
      rw [pkRun_frame_raises u hidle hlen bad rest _ (pkDataAct_illegal (hin ▸ hfull) hillegal)]
      nofun

/-- R130, R170: an illegal shape leaves a code. -/
theorem shape_code_ne_noError {rows cols : Dim}
    (hbad : rows.toNat = 0 ∨ cols.toNat = 0 ∨ c.cap < rows.toNat * cols.toNat) :
    (if rows.toNat = 0 ∨ cols.toNat = 0 then ErrCode.protocolViolation
     else if c.cap < rows.toNat * cols.toNat then .capacityExceeded else .noError) ≠ .noError := by
  by_cases hzero : rows.toNat = 0 ∨ cols.toNat = 0
  · rw [if_pos hzero]
    nofun
  · rw [if_neg hzero, if_pos (by omega)]
    nofun

/-- R136: the unpacker takes a legal shape and exactly the bytes it needs. -/
theorem upRun_frame_err_iff {u : UpUnit} (hidle : u.mode = .idle) (rows cols : Dim) (P : List Byte) :
    (upRun c (upFrame rows cols P) u).err = .noError ↔
      1 ≤ rows.toNat ∧ 1 ≤ cols.toNat ∧ rows.toNat * cols.toNat ≤ c.cap ∧
        P.length = ceil8 (rows.toNat * cols.toNat) := by
  by_cases hbad : rows.toNat = 0 ∨ cols.toNat = 0 ∨ c.cap < rows.toNat * cols.toNat
  · refine iff_of_false ?_ (by omega)
    rw [upRun_frame_rejected (by rw [upAccept_idle_start hidle]; exact if_pos hbad), UnitState.closeFrame_err,
      upAccept_idle_start hidle]
    exact shape_code_ne_noError hbad
  · obtain ⟨hrows, hcols, hfits⟩ :
        1 ≤ rows.toNat ∧ 1 ≤ cols.toNat ∧ rows.toNat * cols.toNat ≤ c.cap := by omega
    rw [upRun_frame P u hidle hrows hcols hfits]
    simp [hrows, hcols, hfits]

/-- R157, R158: the encoder takes bits as many as the capacity, if their entries are no more. -/
theorem enRun_frame_err_iff {u : EnUnit} (hidle : u.mode = .idle) (B : List Bit) :
    (enRun c (enFrame B) u).err = .noError ↔ B.length ≤ c.cap ∧ (encodeRuns B).length ≤ c.cap := by
  by_cases hB : B.length ≤ c.cap
  · by_cases hE : (encodeRuns B).length ≤ c.cap
    · rw [enRun_frame u hidle hB hE]
      exact iff_of_true rfl ⟨hB, hE⟩
    · rw [enRun_frame_full u hidle hB (not_le.mp hE)]
      exact iff_of_false nofun fun h => hE h.2
  · refine iff_of_false ?_ fun h => hB h.1
    obtain ⟨fits, b, rest, rfl, hlen, hlong⟩ :=
      exists_first_excess (p := fun B : List Bit => B.length ≤ c.cap) (Nat.zero_le _) hB
    rw [List.length_append, List.length_singleton] at hlong
    rw [enRun_frame_long u hidle (by omega) b rest]
    nofun

/-- R93, R218: a frame whose START raised is closed by its END, whatever its entries. -/
theorem deRun_frame_rejected {u : DeUnit} {rows cols : Dim} (h : (deAccept c (.start (rows, cols)) u).mode = .err)
    (E : List Byte) : deRun c (deFrame rows cols E) u = (deAccept c (.start (rows, cols)) u).closeFrame := by
  have hframe : deFrame rows cols E = [.start (rows, cols)] ++ (E.map .data ++ [.close]) := by simp [deFrame]
  have hstart : deRun c [.start (rows, cols)] u = deAccept c (.start (rows, cols)) u := rfl
  rw [hframe, deRun_append, hstart, deRun_append, deRun_err_data E h]
  exact accept_err_close h

/-- R175, R214: the decoder takes a legal shape and entries, as many as the capacity, that fill it exactly. -/
theorem deRun_frame_err_iff {u : DeUnit} (hidle : u.mode = .idle) (rows cols : Dim) (E : List Byte) :
    (deRun c (deFrame rows cols E) u).err = .noError ↔
      1 ≤ rows.toNat ∧ 1 ≤ cols.toNat ∧ rows.toNat * cols.toNat ≤ c.cap ∧ E.length ≤ c.cap ∧
        entrySum E = rows.toNat * cols.toNat := by
  by_cases hbad : rows.toNat = 0 ∨ cols.toNat = 0 ∨ c.cap < rows.toNat * cols.toNat
  · refine iff_of_false ?_ (by omega)
    rw [deRun_frame_rejected (by rw [deAccept_idle_start c hidle]; exact if_pos hbad), UnitState.closeFrame_err,
      deAccept_idle_start c hidle]
    exact shape_code_ne_noError hbad
  · obtain ⟨hrows, hcols, hshape⟩ :
        1 ≤ rows.toNat ∧ 1 ≤ cols.toNat ∧ rows.toNat * cols.toNat ≤ c.cap := by omega
    by_cases h : E.length ≤ c.cap ∧ entrySum E ≤ rows.toNat * cols.toNat
    · rw [deRun_frame E u hidle hrows hcols hshape h.1 h.2]
      simp [hrows, hcols, hshape, h.1]
    · refine iff_of_false ?_ (by omega)
      obtain ⟨fits, bad, rest, rfl, ⟨hlen, hsum⟩, hover⟩ := exists_first_excess
        (p := fun E : List Byte => E.length ≤ c.cap ∧ entrySum E ≤ rows.toNat * cols.toNat) (by simp [entrySum]) h
      have hin := deMid_nIn (c := c) (rows := rows) (cols := cols) u.outq fits hlen
      by_cases hfull : fits.length = c.cap
      · rw [deRun_frame_raises fits u hidle hrows hcols hshape hlen hsum bad rest _
          (deDataAct_full (hin.trans hfull) bad)]
        nofun
      · have hlong : rows.toNat * cols.toNat < entrySum fits + bad.toNat := by
          have hbad : entrySum [bad] = bad.toNat := by simp [entrySum]
          rw [List.length_append, List.length_singleton, entrySum_append, hbad] at hover
          omega
        have hne : bad ≠ 0 := by
          rintro rfl
          exact absurd hsum (not_le.mpr hlong)
        have hraise := deDataAct_overrun (c := c) (u := deMid u.outq rows cols fits) (hin ▸ hfull) hne
          (by rwa [deMid_total, deMid_nOut _ _ (hsum.trans hshape)])
        rw [deRun_frame_raises fits u hidle hrows hcols hshape hlen hsum bad rest _ hraise]
        nofun

end

/-- Settles O51: each unit's frame, by the first item of it that its unit does not take. -/
theorem frameAcceptedIffLegal : Obligations.FrameAcceptedIffLegal := fun s =>
  ⟨fun R hidle => ⟨_, execAll_pk _ s, pkRun_frame_err_iff hidle R⟩,
    fun rows cols P hidle => ⟨_, execAll_up _ s, upRun_frame_err_iff hidle rows cols P⟩,
    fun B hidle => ⟨_, execAll_en _ s, enRun_frame_err_iff hidle B⟩,
    fun rows cols E hidle => ⟨_, execAll_de _ s, deRun_frame_err_iff hidle rows cols E⟩⟩

end Sys2Proof.Machine
end

section
/-! SUPPORT. Reset and hazards (70_reset_and_hazards.md): what a reset edge does (R240, R241), how many beats an op emits
(R248), which frames an environment commits (R243), when a run is over (R249), and the four statements of that family. -/

namespace Sys2Proof.Machine

open Sys2Proof

/-! ## An edge with `rst = 1` (R240) -/

/-- R240: whatever the other ports say, a reset edge is a reset and nothing else. -/
theorem applyEdge_of_rst {w : Nat} {e : Edge w} (h : e.rst = true) (resetUnit deliver : State → State)
    (decode : BitVec w → Instr) (s : State) : applyEdge e resetUnit deliver decode s = .next (resetUnit s) := by
  rw [applyEdge, if_pos h]

/-- Settles O2: the edge resets its unit, whose reset values are written out in the model. -/
theorem resetEdgeResetsUnit : Obligations.ResetEdgeResetsUnit := by
  refine fun s rest => ⟨fun e hrst h => ?_, fun e hrst h => ?_, fun e hrst h => ?_, fun e hrst h => ?_⟩ <;>
  · rw [step_of_script_cons h]
    exact applyEdge_of_rst hrst _ _ _ _

/-! ## How many beats an op emits (R248) -/

section
variable {D α A P : Type}

/-- R248, R87: between two states a unit has appended at most `n` DATA beats, and then, if `closes`, one DONE with the
code and the count it shows. -/
def EmitsUpTo (n : Nat) (closes : Prop) [Decidable closes] (u v : UnitState D α) : Prop :=
  ∃ (d : List α) (o : List (Beat α)), v.outq = u.outq ++ (d.map Beat.data ++ o) ∧ d.length ≤ n ∧
    o = if closes then [.done v.err v.nOut] else []

variable {u v : UnitState D α} {n : Nat} {closes : Prop} [Decidable closes]

/-- An action that emits DATA alone emits as many as the queue grows by. -/
theorem GrowsByData.emits (h : GrowsByData u v) (hn : v.outq.length ≤ u.outq.length + n) (hc : ¬ closes) :
    EmitsUpTo n closes u v := by
  obtain ⟨-, d, hq⟩ := h
  refine ⟨d, [], by rw [hq, List.append_nil], ?_, by rw [if_neg hc]⟩
  simpa [hq] using hn

/-- R219: a frame closed after some DATA. -/
theorem GrowsByData.closeFrame_emits (h : GrowsByData u v) (hn : v.outq.length ≤ u.outq.length + n) (hc : closes) :
    EmitsUpTo n closes u v.closeFrame := by
  obtain ⟨-, d, hq⟩ := h
  refine ⟨d, [.done v.err v.nOut], by simp [hq], ?_, by rw [if_pos hc]; rfl⟩
  simpa [hq] using hn

theorem andThen_queue_le {a : Act (UnitState D α)} {f : UnitState D α → Act (UnitState D α)} {k m : Nat}
    (ha : a.state.outq.length ≤ k) (hf : ∀ v, (f v).state.outq.length ≤ v.outq.length + m) :
    (a.andThen f).state.outq.length ≤ k + m := by
  cases a with
  | ok v => exact (hf v).trans (Nat.add_le_add_right ha m)
  | raised v => exact ha.trans (Nat.le_add_right k m)

/-- An action whose rest emits nothing. -/
theorem andThen_silent_queue_le {a : Act (UnitState D α)} {f : UnitState D α → Act (UnitState D α)} {k : Nat}
    (ha : a.state.outq.length ≤ k) (hf : ∀ v, (f v).state.outq = v.outq) : (a.andThen f).state.outq.length ≤ k :=
  andThen_queue_le (m := 0) ha fun v => by rw [hf v, Nat.add_zero]

theorem forEach_queue_le {body : Nat → UnitState D α → Act (UnitState D α)}
    (h : ∀ k u, (body k u).state.outq.length ≤ u.outq.length + 1) (ks : List Nat) (u : UnitState D α) :
    (Act.forEach body ks u).state.outq.length ≤ u.outq.length + ks.length := by
  induction ks generalizing u with
  | nil => exact le_rfl
  | cons k ks ih =>
    have := andThen_queue_le (h k u) ih
    rw [List.length_cons]
    exact this.trans_eq (by omega)

theorem checkShape_outq (c : Config) (rows cols : Dim) (u : UnitState D α) :
    (checkShape c rows cols u).state.outq = u.outq := by
  unfold checkShape
  split
  · exact u.raise_outq _
  · split
    · exact u.raise_outq _
    · rfl

variable {S : A → UnitState D α → Act (UnitState D α)} {T : P → UnitState D α → Act (UnitState D α)}
  {E : UnitState D α → Act (UnitState D α)}

/-- R248: an op emits no more DATA than its action does, and END alone a DONE, after them. -/
theorem accept_emits {bound : Op A P → Nat} (hS : ∀ a u, GrowsByData u (S a u).state)
    (hT : ∀ p u, GrowsByData u (T p u).state) (hE : ∀ u, GrowsByData u (E u).state)
    (hstart : ∀ a u, (S a u).state.outq.length ≤ u.outq.length + bound (.start a))
    (hdata : ∀ p u, (T p u).state.outq.length ≤ u.outq.length + bound (.data p))
    (hclose : ∀ u, (E u).state.outq.length ≤ u.outq.length + bound .close) (op : Op A P) (u : UnitState D α) :
    EmitsUpTo (bound op) (op.cls = .close) u (accept S T E op u) := by
  have hsilent {op : Op A P} (hq : (accept S T E op u).outq = u.outq) (hcls : op.cls ≠ .close) :
      EmitsUpTo (bound op) (op.cls = .close) u (accept S T E op u) :=
    ⟨[], [], by simp [hq], Nat.zero_le _, by rw [if_neg hcls]⟩
  match hm : u.mode, op with
  | .idle, .start a => rw [accept_idle_start hm]; exact (hS a u.openFrame).emits (hstart a u.openFrame) nofun
  | .run, .data p => rw [accept_run_data hm]; exact (hT p u).emits (hdata p u) nofun
  | .idle, .close => rw [accept_idle_close hm]; exact ⟨[], _, rfl, Nat.zero_le _, rfl⟩
  | .run, .close => rw [accept_run_close hm]; exact (hE u).closeFrame_emits (hclose u) rfl
  | .err, .close => rw [accept_err_close hm]; exact ⟨[], _, rfl, Nat.zero_le _, rfl⟩
  | .idle, .data _ | .idle, .rsvd | .run, .start _ | .run, .rsvd | .err, .start _ | .err, .data _ | .err, .rsvd =>
    exact hsilent (by simp [accept, hm]) nofun

end

/-! The queue after each action of a unit. -/

theorem pkDataAct_queue_le (c : Config) (elem : Byte) (u : PkUnit) :
    (pkDataAct c elem u).state.outq.length ≤ u.outq.length + 1 := by
  unfold pkDataAct
  split
  · simp [UnitState.fail]
  · split
    · simp [UnitState.fail]
    · split
      · simp [UnitState.fail]
      · split <;> simp

theorem pkEndAct_queue_le (u : PkUnit) : (pkEndAct u).state.outq.length ≤ u.outq.length + 1 := by
  unfold pkEndAct
  split <;> simp

theorem upBitTurn_queue_le (byte : Byte) (k : Nat) (u : UpUnit) :
    (upBitTurn byte k u).state.outq.length ≤ u.outq.length + 1 := by
  unfold upBitTurn
  split
  · cases getBit byte k <;> simp [upEmitBit, UnitState.fail]
  · exact Nat.le_succ _

theorem upDataAct_queue_le (byte : Byte) (u : UpUnit) :
    (upDataAct byte u).state.outq.length ≤ u.outq.length + 8 := by
  unfold upDataAct
  split
  · simp [UnitState.fail]
  · exact andThen_silent_queue_le (forEach_queue_le (upBitTurn_queue_le byte) _ u) fun _ => rfl

theorem upEndAct_outq (u : UpUnit) : (upEndAct u).state.outq = u.outq := by
  unfold upEndAct
  split <;> simp [UnitState.fail]

theorem emitEntry_queue_le (c : Config) (v : Byte) (u : EnUnit) :
    (emitEntry c v u).state.outq.length ≤ u.outq.length + 1 := by
  unfold emitEntry
  split <;> simp [UnitState.fail]

theorem enCountBit_queue_le (c : Config) (b : Bit) (u : EnUnit) :
    (enCountBit c b u).state.outq.length ≤ u.outq.length + 2 := by
  unfold enCountBit
  split
  · split
    · exact andThen_queue_le (m := 1) (emitEntry_queue_le c _ u) fun v =>
        andThen_silent_queue_le (emitEntry_queue_le c _ v) fun _ => rfl
    · simp
  · exact (andThen_silent_queue_le (emitEntry_queue_le c _ u) fun _ => rfl).trans (Nat.le_succ _)

theorem enDataAct_queue_le (c : Config) (b : Bit) (u : EnUnit) :
    (enDataAct c b u).state.outq.length ≤ u.outq.length + 2 := by
  unfold enDataAct
  split
  · simp [UnitState.fail]
  · exact andThen_silent_queue_le (enCountBit_queue_le c b u) fun _ => rfl

theorem enEndAct_queue_le (c : Config) (u : EnUnit) : (enEndAct c u).state.outq.length ≤ u.outq.length + 1 := by
  unfold enEndAct
  split
  · exact andThen_silent_queue_le (emitEntry_queue_le c _ u) fun _ => rfl
  · exact Nat.le_succ _

theorem deRepeat_queue (n : Nat) (u : DeUnit) : (Nat.iterate deEmitBit n u).outq.length = u.outq.length + n := by
  induction n generalizing u with
  | zero => rfl
  | succ n ih =>
    rw [Function.iterate_succ_apply, ih]
    simp [deEmitBit]
    omega

theorem deDataAct_queue_le (c : Config) (entry : Byte) (u : DeUnit) :
    (deDataAct c entry u).state.outq.length ≤ u.outq.length + 255 := by
  unfold deDataAct
  split
  · simp [UnitState.fail]
  · split
    · simp [deFlip]
    · split
      · simp [UnitState.fail]
      · have hentry := entry.isLt
        simp only [Act.state_ok, deFlip, deRepeat_queue]
        omega

theorem deEndAct_outq (u : DeUnit) : (deEndAct u).state.outq = u.outq := by
  unfold deEndAct
  split <;> simp [UnitState.fail]

/-! R248, unit by unit. -/

theorem pkAccept_emits (c : Config) (op : PkOp) (u : PkUnit) :
    EmitsUpTo (dataBeatBound (pkInstr op)) (op.cls = .close) u (pkAccept c op u) :=
  accept_emits (bound := fun op => dataBeatBound (pkInstr op)) (fun _ _ => .of_same rfl rfl) (pkDataAct_grows c)
    pkEndAct_grows (fun _ _ => le_rfl) (pkDataAct_queue_le c) pkEndAct_queue_le op u
theorem upAccept_emits (c : Config) (op : UpOp) (u : UpUnit) :
    EmitsUpTo (dataBeatBound (upInstr op)) (op.cls = .close) u (upAccept c op u) :=
  accept_emits (bound := fun op => dataBeatBound (upInstr op)) (upStartAct_grows c) upDataAct_grows upEndAct_grows
    (fun _ _ => (congrArg List.length (checkShape_outq c _ _ _)).le) upDataAct_queue_le
    (fun u => (congrArg List.length (upEndAct_outq u)).le) op u
theorem enAccept_emits (c : Config) (op : EnOp) (u : EnUnit) :
    EmitsUpTo (dataBeatBound (enInstr op)) (op.cls = .close) u (enAccept c op u) :=
  accept_emits (bound := fun op => dataBeatBound (enInstr op)) (fun _ _ => .of_same rfl rfl) (enDataAct_grows c)
    (enEndAct_grows c) (fun _ _ => le_rfl) (enDataAct_queue_le c) (enEndAct_queue_le c) op u
theorem deAccept_emits (c : Config) (op : DeOp) (u : DeUnit) :
    EmitsUpTo (dataBeatBound (deInstr op)) (op.cls = .close) u (deAccept c op u) :=
  accept_emits (bound := fun op => dataBeatBound (deInstr op)) (deStartAct_grows c) (deDataAct_grows c) deEndAct_grows
    (fun _ _ => (congrArg List.length (checkShape_outq c _ _ _)).le) (deDataAct_queue_le c)
    (fun u => (congrArg List.length (deEndAct_outq u)).le) op u

/-- Settles O35: the op is accepted by one unit, whose actions emit no more than the bound. -/
theorem opEmitsBoundedBeats : Obligations.OpEmitsBoundedBeats := by
  intro i s
  rcases instr_cases i with ⟨op, rfl⟩ | ⟨op, rfl⟩ | ⟨op, rfl⟩ | ⟨op, rfl⟩
  · exact ⟨_, exec_pk op s, fun _ => pkInstr_cls op ▸ pkAccept_emits _ op _, by simp, by simp, by simp⟩
  · exact ⟨_, exec_up op s, by simp, fun _ => upInstr_cls op ▸ upAccept_emits _ op _, by simp, by simp⟩
  · exact ⟨_, exec_en op s, by simp, by simp, fun _ => enInstr_cls op ▸ enAccept_emits _ op _, by simp⟩
  · exact ⟨_, exec_de op s, by simp, by simp, by simp, fun _ => deInstr_cls op ▸ deAccept_emits _ op _⟩

/-! ## Which frames are committed (R243, R241) -/

section
variable {α : Type}

/-- R243: a frame is committed by a DONE of code 0, with what was provisional just before it. -/
theorem mem_committed_iff {log : List (Obs α)} {frame : List α} :
    frame ∈ (heldOf log).committed ↔ ∃ (newer rest : List (Obs α)) (c : Count),
      log = newer ++ .delivered (.done .noError c) :: rest ∧ frame = (heldOf rest).provisional := by
  induction log with
  | nil => simp
  | cons o log ih =>
    have hcons : (∃ (newer rest : List (Obs α)) (c : Count),
          o :: log = newer ++ .delivered (.done .noError c) :: rest ∧ frame = (heldOf rest).provisional) ↔
        (∃ c, o = .delivered (.done .noError c) ∧ frame = (heldOf log).provisional) ∨
          frame ∈ (heldOf log).committed := by
      rw [ih]
      constructor
      · rintro ⟨_ | ⟨o', newer⟩, rest, c, hlog, hframe⟩
        · obtain ⟨rfl, rfl⟩ := List.cons.inj hlog
          exact .inl ⟨c, rfl, hframe⟩
        · exact .inr ⟨newer, rest, c, (List.cons.inj hlog).2, hframe⟩
      · rintro (⟨c, rfl, hframe⟩ | ⟨newer, rest, c, rfl, hframe⟩)
        · exact ⟨[], log, c, rfl, hframe⟩
        · exact ⟨o :: newer, rest, c, rfl, hframe⟩
    rw [hcons]
    match o with
    | .accepted _ | .delivered (.data _) | .reset => simp
    | .delivered (.done e c) =>
      by_cases he : e = .noError
      · subst he
        simp [or_comm]
      · simp [heldOf_done_rejected log he, he]

/-- R241, R243: nothing is provisional at the beginning, nor after what ended a frame. -/
theorem provisional_of_ended {log : List (Obs α)} (h : ∀ o ∈ log.head?, o.endsFrame = true) :
    (heldOf log).provisional = [] := by
  match log with
  | [] => rfl
  | .reset :: _ | .delivered (.done _ _) :: _ => rfl
  | .accepted _ :: _ | .delivered (.data _) :: _ => simp [Obs.endsFrame] at h

/-- R243: the DATA delivered since what ended the last frame is what is provisional. -/
theorem beats_eq_provisional {during older : List (Obs α)} (hduring : ∀ o ∈ during, o.endsFrame = false)
    (holder : ∀ o ∈ older.head?, o.endsFrame = true) :
    beatsSinceReset during = (heldOf (during ++ older)).provisional.map .data := by
  induction during with
  | nil => rw [List.nil_append, provisional_of_ended holder]; rfl
  | cons o during ih =>
    rw [List.forall_mem_cons] at hduring
    obtain ⟨ho, hrest⟩ := hduring
    match o with
    | .accepted _ => exact ih hrest
    | .delivered (.data v) => simp [ih hrest]
    | .delivered (.done _ _) | .reset => simp [Obs.endsFrame] at ho

/-- R243: every log is what was seen of the open frame, after what ended the one before. -/
theorem eq_provisional_iff {log : List (Obs α)} {frame : List α} :
    frame = (heldOf log).provisional ↔ ∃ during older : List (Obs α), log = during ++ older ∧
      (∀ o ∈ during, o.endsFrame = false) ∧ (∀ o ∈ older.head?, o.endsFrame = true) ∧
      beatsSinceReset during = frame.map .data := by
  constructor
  · rintro rfl
    have hsplit := List.takeWhile_append_dropWhile (p := fun o : Obs α => !o.endsFrame) (l := log)
    have hduring : ∀ o ∈ log.takeWhile fun o => !o.endsFrame, o.endsFrame = false := fun o ho => by
      simpa using List.mem_takeWhile_imp ho
    have holder : ∀ o ∈ (log.dropWhile fun o => !o.endsFrame).head?, o.endsFrame = true := fun o ho => by
      simpa [Option.mem_def.mp ho] using List.head?_dropWhile_not (fun o : Obs α => !o.endsFrame) log
    exact ⟨_, _, hsplit.symm, hduring, holder, by rw [beats_eq_provisional hduring holder, hsplit]⟩
  · rintro ⟨during, older, rfl, hduring, holder, hbeats⟩
    rw [beats_eq_provisional hduring holder] at hbeats
    exact ((List.map_injective_iff.mpr fun _ _ => Beat.data.inj) hbeats).symm

end

/-- Settles O59: a frame is committed by its DONE, and what that DONE commits is what was provisional. -/
theorem committedFramesEndCleanly : Obligations.CommittedFramesEndCleanly := by
  intro α log frame
  rw [mem_committed_iff]
  constructor
  · rintro ⟨newer, rest, c, hlog, hframe⟩
    obtain ⟨during, older, rfl, hduring, holder, hbeats⟩ := eq_provisional_iff.mp hframe
    exact ⟨newer, during, older, c, hlog, hduring, holder, hbeats⟩
  · rintro ⟨newer, during, older, c, hlog, hduring, holder, hbeats⟩
    exact ⟨newer, _, c, hlog, eq_provisional_iff.mpr ⟨during, older, rfl, hduring, holder, hbeats⟩⟩

/-! ## The run of a frame is over (R249) -/

section
variable {D α A P : Type}

/-- R249: an idle unit has just emitted the DONE that its `err` and `n_out` show. -/
def UnitState.ShowsDone (u : UnitState D α) : Prop := u.mode = .idle → u.outq.getLast? = some (.done u.err u.nOut)

/-- R249: the unit is idle after the DONE of its frame, the last beat it emitted. -/
def UnitState.Finished (u : UnitState D α) : Prop := u.mode = .idle ∧ u.ShowsDone

variable {S : A → UnitState D α → Act (UnitState D α)} {T : P → UnitState D α → Act (UnitState D α)}
  {E : UnitState D α → Act (UnitState D α)}

theorem accept_showsDone (hS : ∀ a u, GrowsByData u (S a u).state) (hT : ∀ p u, GrowsByData u (T p u).state)
    (op : Op A P) (u : UnitState D α) : (accept S T E op u).ShowsDone :=
  accept_idle_shows_done (fun a u hrun => (hS a u).ne_idle (by simp [hrun]))
    (fun p u hrun => (hT p u).ne_idle (by simp [hrun])) op u

/-- R93: END ends in IDLE, whatever the mode. -/
theorem accept_close_mode (u : UnitState D α) : (accept S T E .close u).mode = .idle := by
  match hm : u.mode with
  | .idle => rw [accept_idle_close hm, UnitState.endWithoutFrame_mode, hm]
  | .run => rw [accept_run_close hm, UnitState.closeFrame_mode]
  | .err => rw [accept_err_close hm, UnitState.closeFrame_mode]

/-- R249: ops that end with an END finish the frame. -/
theorem foldl_accept_finished (hshows : ∀ op u, (accept S T E op u).ShowsDone) {ops : List (Op A P)}
    (h : ops.getLast? = some .close) (u : UnitState D α) :
    (ops.foldl (fun u op => accept S T E op u) u).Finished := by
  obtain ⟨front, rfl⟩ := List.getLast?_eq_some_iff.mp h
  rw [List.foldl_append]
  exact ⟨accept_close_mode _, hshows .close _⟩

end

theorem pkAccept_showsDone (c : Config) (op : PkOp) (u : PkUnit) : (pkAccept c op u).ShowsDone :=
  accept_showsDone (fun _ _ => .of_same rfl rfl) (pkDataAct_grows c) op u
theorem upAccept_showsDone (c : Config) (op : UpOp) (u : UpUnit) : (upAccept c op u).ShowsDone :=
  accept_showsDone (upStartAct_grows c) upDataAct_grows op u
theorem enAccept_showsDone (c : Config) (op : EnOp) (u : EnUnit) : (enAccept c op u).ShowsDone :=
  accept_showsDone (fun _ _ => .of_same rfl rfl) (enDataAct_grows c) op u
theorem deAccept_showsDone (c : Config) (op : DeOp) (u : DeUnit) : (deAccept c op u).ShowsDone :=
  accept_showsDone (deStartAct_grows c) (deDataAct_grows c) op u

section
variable {D α : Type} {unitOf : State → UnitState D α} {own : UnitId}

/-- R249: once the unit has accepted an op, it shows the DONE it emitted last whenever it is idle; the ops of other
units change nothing of this. -/
theorem execAll_showsDone
    (hexec : ∀ i s t, exec i s = .next t → i.unit ≠ own ∧ unitOf t = unitOf s ∨ (unitOf t).ShowsDone)
    {ops : List Instr} {s t : State} (h : execAll ops s = .next t)
    (hown : (unitOf s).ShowsDone ∨ ∃ i ∈ ops, i.unit = own) : (unitOf t).ShowsDone := by
  induction ops generalizing s with
  | nil =>
    cases h
    simpa using hown
  | cons i ops ih =>
    obtain ⟨s', hs'⟩ := exec_next i s
    rw [execAll, hs'] at h
    refine ih h ?_
    rcases hexec i s s' hs' with ⟨hi, hsame⟩ | hshows
    · simpa [hsame, hi] using hown
    · exact .inl hshows

/-- R249: in a unit its log explains, idle with nothing pending means that the DONE it shows was delivered last. -/
theorem Explains.over_iff [DecidableEq α] {c : Config} {log : List (Obs α)} {u : UnitState D α}
    (hexec : ∀ i s t, exec i s = .next t → i.unit ≠ own ∧ unitOf t = unitOf s ∨ (unitOf t).ShowsDone)
    (h : Explains c unitOf log u) (hown : ∃ i ∈ opsSinceReset log, i.unit = own) :
    u.mode = .idle ∧ u.outq = [] ↔ u.over log = true := by
  obtain ⟨t, hrun, hunit⟩ := h
  have hshows := execAll_showsDone hexec hrun (.inr hown)
  rw [hunit] at hshows
  simp only [UnitState.over, Bool.and_eq_true, decide_eq_true_eq, List.isEmpty_iff]
  refine ⟨fun ⟨hidle, hnone⟩ => ⟨⟨hidle, hnone⟩, ?_⟩, And.left⟩
  simpa [hnone] using hshows hidle

end

theorem coherent_over_iff {s : State} (hs : s.Coherent) :
    ((∃ i ∈ opsSinceReset s.pkLog, i.unit = .pk) → (s.pk.mode = .idle ∧ s.pk.outq = [] ↔ s.pk.over s.pkLog = true)) ∧
    ((∃ i ∈ opsSinceReset s.upLog, i.unit = .up) → (s.up.mode = .idle ∧ s.up.outq = [] ↔ s.up.over s.upLog = true)) ∧
    ((∃ i ∈ opsSinceReset s.enLog, i.unit = .en) → (s.en.mode = .idle ∧ s.en.outq = [] ↔ s.en.over s.enLog = true)) ∧
    ((∃ i ∈ opsSinceReset s.deLog, i.unit = .de) → (s.de.mode = .idle ∧ s.de.outq = [] ↔ s.de.over s.deLog = true)) := by
  obtain ⟨hpk, hup, hen, hde⟩ := hs
  refine ⟨hpk.over_iff fun i s t h => ?_, hup.over_iff fun i s t h => ?_, hen.over_iff fun i s t h => ?_,
    hde.over_iff fun i s t h => ?_⟩ <;>
    obtain ⟨t', ht', hpk', hup', hen', hde'⟩ := exec_unit_by_unit i s <;>
    cases ht'.symm.trans h
  · exact hpk'.imp_right fun ⟨op, _, heq⟩ => heq ▸ pkAccept_showsDone _ op _
  · exact hup'.imp_right fun ⟨op, _, heq⟩ => heq ▸ upAccept_showsDone _ op _
  · exact hen'.imp_right fun ⟨op, _, heq⟩ => heq ▸ enAccept_showsDone _ op _
  · exact hde'.imp_right fun ⟨op, _, heq⟩ => heq ▸ deAccept_showsDone _ op _

/-! ## A script played step by step -/

theorem steps_add {m n : Nat} {s t : State} (h : steps m s = .next t) : steps (m + n) s = steps n t := by
  induction m generalizing s with
  | zero => cases h; rw [Nat.zero_add]
  | succ m ih =>
    obtain ⟨s', hs'⟩ := step_next s
    rw [steps, hs'] at h
    rw [Nat.succ_add, steps, hs']
    exact ih h

/-- The events, at the head of any script, take the machine from `s` to `t`. -/
def Plays (evs : List Event) (s t : State) : Prop :=
  ∀ rest, steps evs.length { s with script := evs ++ rest } = .next { t with script := rest }

section
variable {evs evs' : List Event} {s t r : State}

theorem Plays.nil (s : State) : Plays [] s s := fun _ => rfl

theorem Plays.append (h : Plays evs s t) (h' : Plays evs' t r) : Plays (evs ++ evs') s r := by
  intro rest
  rw [List.length_append, List.append_assoc, steps_add (h (evs' ++ rest))]
  exact h' rest

/-- Played with no script behind them, the events are all that happens. -/
theorem Plays.steps_eq (h : Plays evs s t) (ht : t.script = []) :
    steps evs.length { s with script := evs } = .next t := by
  have hplay := h []
  rw [List.append_nil, ← ht] at hplay
  exact hplay

theorem Plays.single {ev : Event}
    (h : ∀ rest, applyEvent ev { s with script := rest } = .next { t with script := rest }) : Plays [ev] s t := by
  intro rest
  have hstep : step { s with script := [ev] ++ rest } = .next { t with script := rest } :=
    (step_of_script_cons rfl).trans (h rest)
  rw [List.length_singleton, steps, hstep]
  rfl

theorem Plays.cons {ev : Event}
    (h : ∀ rest, applyEvent ev { s with script := rest } = .next { t with script := rest }) (h' : Plays evs t r) :
    Plays (ev :: evs) s r := (Plays.single h).append h'

/-- R88: an offered op is accepted. -/
theorem Plays.offer {i : Instr}
    (h : ∀ rest, exec i (State.note i { s with script := rest }) = .next { t with script := rest }) :
    Plays [offer i.unit (encode i)] s t :=
  .single fun rest => (applyEvent_offer (decodeEncodeAgree i) _).trans (h rest)

end

/-! ## What the units have accepted and delivered -/

section
variable {α : Type}

/-- A log after the ops have been accepted one by one. -/
def logAccepted (ops : List Instr) (log : List (Obs α)) : List (Obs α) :=
  ops.foldl (fun log i => .accepted i :: log) log

/-- A log after the beats have been delivered one by one. -/
def logDelivered (beats : List (Beat α)) (log : List (Obs α)) : List (Obs α) :=
  beats.foldl (fun log b => .delivered b :: log) log

@[simp] theorem beatsSinceReset_logAccepted (ops : List Instr) (log : List (Obs α)) :
    beatsSinceReset (logAccepted ops log) = beatsSinceReset log := by
  induction ops generalizing log with
  | nil => rfl
  | cons i ops ih => exact ih (.accepted i :: log)

@[simp] theorem beatsSinceReset_logDelivered (beats : List (Beat α)) (log : List (Obs α)) :
    beatsSinceReset (logDelivered beats log) = beatsSinceReset log ++ beats := by
  induction beats generalizing log with
  | nil => exact (List.append_nil _).symm
  | cons b beats ih => exact (ih (.delivered b :: log)).trans (by simp)

end

/-- The unit with nothing pending. -/
def UnitState.drained {D α : Type} (u : UnitState D α) : UnitState D α := { u with outq := [] }

theorem drained_of_nil {D α : Type} {u : UnitState D α} (h : u.outq = []) : u.drained = u := by
  cases u
  cases h
  rfl

/-- The machine after one unit has accepted the ops. -/
def State.takePk (ops : List PkOp) (s : State) : State :=
  { s with pk := pkRun s.config ops s.pk, pkLog := logAccepted (ops.map pkInstr) s.pkLog }
def State.takeUp (ops : List UpOp) (s : State) : State :=
  { s with up := upRun s.config ops s.up, upLog := logAccepted (ops.map upInstr) s.upLog }
def State.takeEn (ops : List EnOp) (s : State) : State :=
  { s with en := enRun s.config ops s.en, enLog := logAccepted (ops.map enInstr) s.enLog }
def State.takeDe (ops : List DeOp) (s : State) : State :=
  { s with de := deRun s.config ops s.de, deLog := logAccepted (ops.map deInstr) s.deLog }

/-- The machine after all pending beats of one unit have been delivered. -/
def State.drainPk (s : State) : State := { s with pk := s.pk.drained, pkLog := logDelivered s.pk.outq s.pkLog }
def State.drainUp (s : State) : State := { s with up := s.up.drained, upLog := logDelivered s.up.outq s.upLog }
def State.drainEn (s : State) : State := { s with en := s.en.drained, enLog := logDelivered s.en.outq s.enLog }
def State.drainDe (s : State) : State := { s with de := s.de.drained, deLog := logDelivered s.de.outq s.deLog }

section
variable {s : State}

theorem drainPk_of_nil (h : s.pk.outq = []) : s.drainPk = s := by rw [State.drainPk, drained_of_nil h, h]; rfl
theorem drainUp_of_nil (h : s.up.outq = []) : s.drainUp = s := by rw [State.drainUp, drained_of_nil h, h]; rfl
theorem drainEn_of_nil (h : s.en.outq = []) : s.drainEn = s := by rw [State.drainEn, drained_of_nil h, h]; rfl
theorem drainDe_of_nil (h : s.de.outq = []) : s.drainDe = s := by rw [State.drainDe, drained_of_nil h, h]; rfl

end

theorem plays_pk_offer (op : PkOp) (s : State) : Plays [offer .pk (encode (pkInstr op))] s (s.takePk [op]) :=
  pkInstr_unit op ▸ Plays.offer fun _ => exec_note_pk op _
theorem plays_up_offer (op : UpOp) (s : State) : Plays [offer .up (encode (upInstr op))] s (s.takeUp [op]) :=
  upInstr_unit op ▸ Plays.offer fun _ => exec_note_up op _
theorem plays_en_offer (op : EnOp) (s : State) : Plays [offer .en (encode (enInstr op))] s (s.takeEn [op]) :=
  enInstr_unit op ▸ Plays.offer fun _ => exec_note_en op _
theorem plays_de_offer (op : DeOp) (s : State) : Plays [offer .de (encode (deInstr op))] s (s.takeDe [op]) :=
  deInstr_unit op ▸ Plays.offer fun _ => exec_note_de op _

theorem plays_pk_offers (ops : List PkOp) (s : State) :
    Plays (ops.map fun op => offer .pk (encode (pkInstr op))) s (s.takePk ops) := by
  induction ops generalizing s with
  | nil => exact .nil s
  | cons op ops ih => exact (plays_pk_offer op s).append (ih _)

/-- An event that uses up a queue beat by beat, and never changes the state `final` to which the queue leads: as often as
there are beats, it takes the machine there. -/
theorem plays_queue {β : Type} {queue : State → List β} {ev : Event} {final : State → State}
    (hnil : ∀ s, queue s = [] → final s = s)
    (hcons : ∀ s b q, queue s = b :: q → ∃ t, queue t = q ∧ final t = final s ∧
      ∀ rest, applyEvent ev { s with script := rest } = .next { t with script := rest })
    (s : State) : Plays (List.replicate (queue s).length ev) s (final s) := by
  rcases hq : queue s with _ | ⟨b, q⟩
  · rw [hnil s hq]; exact .nil s
  · obtain ⟨t, ht, hfinal, hev⟩ := hcons s b q hq
    have hlater := plays_queue hnil hcons t
    rw [hfinal, ht] at hlater
    exact .cons hev hlater
termination_by (queue s).length
decreasing_by simp [ht, hq]

/-- R201: the beats of a unit cross a link one by one, each delivered and at once accepted as the glue's op. -/
theorem plays_pkToUp (s : State) : Plays (List.replicate s.pk.outq.length (.link .pkToUp)) s
    (s.takeUp (s.pk.outq.map gluePkUp)).drainPk := by
  refine plays_queue (queue := fun s => s.pk.outq) (final := fun s => (s.takeUp (s.pk.outq.map gluePkUp)).drainPk)
    (fun s h => ?_) (fun s b q h => ?_) s
  · simp only [h]
    exact drainPk_of_nil h
  · refine ⟨{ s.takeUp [gluePkUp b] with pk := { s.pk with outq := q }, pkLog := .delivered b :: s.pkLog }, rfl, ?_,
      fun rest => (applyLink_pkToUp (s := { s with script := rest }) h).trans (exec_up _ _)⟩
    simp only [State.drainPk, State.takeUp, h]
    rfl
theorem plays_upToEn (s : State) : Plays (List.replicate s.up.outq.length (.link .upToEn)) s
    (s.takeEn (s.up.outq.map glueUpEn)).drainUp := by
  refine plays_queue (queue := fun s => s.up.outq) (final := fun s => (s.takeEn (s.up.outq.map glueUpEn)).drainUp)
    (fun s h => ?_) (fun s b q h => ?_) s
  · simp only [h]
    exact drainUp_of_nil h
  · refine ⟨{ s.takeEn [glueUpEn b] with up := { s.up with outq := q }, upLog := .delivered b :: s.upLog }, rfl, ?_,
      fun rest => (applyLink_upToEn (s := { s with script := rest }) h).trans (exec_en _ _)⟩
    simp only [State.drainUp, State.takeEn, h]
    rfl
theorem plays_enToDe (s : State) : Plays (List.replicate s.en.outq.length (.link .enToDe)) s
    (s.takeDe (s.en.outq.map glueEnDe)).drainEn := by
  refine plays_queue (queue := fun s => s.en.outq) (final := fun s => (s.takeDe (s.en.outq.map glueEnDe)).drainEn)
    (fun s h => ?_) (fun s b q h => ?_) s
  · simp only [h]
    exact drainEn_of_nil h
  · refine ⟨{ s.takeDe [glueEnDe b] with en := { s.en with outq := q }, enLog := .delivered b :: s.enLog }, rfl, ?_,
      fun rest => (applyLink_enToDe (s := { s with script := rest }) h).trans (exec_de _ _)⟩
    simp only [State.drainEn, State.takeDe, h]
    rfl

/-- R88: edges with `m_ready = 1` take the decoder's beats one by one. -/
theorem plays_de_edges (s : State) :
    Plays (List.replicate s.de.outq.length (.de ⟨false, false, false, 0, true⟩)) s s.drainDe := by
  refine plays_queue (queue := fun s => s.de.outq) (final := State.drainDe) (fun s h => drainDe_of_nil h)
    (fun s b q h => ?_) s
  refine ⟨{ s with de := { s.de with outq := q }, deLog := .delivered b :: s.deLog }, rfl, ?_,
    fun rest => congrArg Host.Outcome.next (deliverDe_of_cons { s with script := rest } b q h)⟩
  simp only [State.drainDe, h]
  rfl

/-! ## One cycle on the machine (R200, R201) -/

section
variable (c : Config) (rows cols : Dim) (R : List Byte)

/-- Each unit of a cycle after it has accepted its frame, the glue's START first; nothing of what it emitted is
delivered. -/
def cyclePk : PkUnit := pkRun c (pkFrame R) resetPk
def cycleUp : UpUnit := upRun c ((cyclePk c R).outq.map gluePkUp) (upRun c [.start (rows, cols)] resetUp)
def cycleEn : EnUnit := enRun c ((cycleUp c rows cols R).outq.map glueUpEn) (enRun c [.start ()] resetEn)
def cycleDe : DeUnit := deRun c ((cycleEn c rows cols R).outq.map glueEnDe) (deRun c [.start (rows, cols)] resetDe)

theorem cycle_eq_units : cycle c rows cols R =
    ⟨(cyclePk c R).outq, (cycleUp c rows cols R).outq, (cycleEn c rows cols R).outq, (cycleDe c rows cols R).outq⟩ := rfl
theorem cycle_pk_eq_outq : (cycle c rows cols R).pk = (cyclePk c R).outq := by rw [cycle_eq_units]
theorem cycle_up_eq_outq : (cycle c rows cols R).up = (cycleUp c rows cols R).outq := by rw [cycle_eq_units]
theorem cycle_en_eq_outq : (cycle c rows cols R).en = (cycleEn c rows cols R).outq := by rw [cycle_eq_units]
theorem cycle_de_eq_outq : (cycle c rows cols R).de = (cycleDe c rows cols R).outq := by rw [cycle_eq_units]

/-! Each unit finishes its frame: it is offered the END that the glue makes of the DONE upstream. -/

theorem cyclePk_finished : (cyclePk c R).Finished :=
  foldl_accept_finished (pkAccept_showsDone c) List.getLast?_concat _
theorem cycleUp_finished : (cycleUp c rows cols R).Finished := by
  obtain ⟨hidle, hshows⟩ := cyclePk_finished c R
  exact foldl_accept_finished (upAccept_showsDone c) (by rw [List.getLast?_map, hshows hidle]; rfl) _
theorem cycleEn_finished : (cycleEn c rows cols R).Finished := by
  obtain ⟨hidle, hshows⟩ := cycleUp_finished c rows cols R
  exact foldl_accept_finished (enAccept_showsDone c) (by rw [List.getLast?_map, hshows hidle]; rfl) _
theorem cycleDe_finished : (cycleDe c rows cols R).Finished := by
  obtain ⟨hidle, hshows⟩ := cycleEn_finished c rows cols R
  exact foldl_accept_finished (deAccept_showsDone c) (by rw [List.getLast?_map, hshows hidle]; rfl) _

/-! The machine on the way: when the glue's STARTs and the packer's frame are accepted, when the packer's beats have
crossed, when the unpacker's have, when the encoder's have, and when the decoder's are taken. -/

def cycleOffered : State :=
  ((((State.resetWith c).takeUp [.start (rows, cols)]).takeEn [.start ()]).takeDe [.start (rows, cols)]).takePk (pkFrame R)
def cyclePacked : State := ((cycleOffered c rows cols R).takeUp ((cyclePk c R).outq.map gluePkUp)).drainPk
def cycleUnpacked : State := ((cyclePacked c rows cols R).takeEn ((cycleUp c rows cols R).outq.map glueUpEn)).drainUp
def cycleEncoded : State := ((cycleUnpacked c rows cols R).takeDe ((cycleEn c rows cols R).outq.map glueEnDe)).drainEn
def cycleEnd : State := (cycleEncoded c rows cols R).drainDe

theorem cycleOffered_pk : (cycleOffered c rows cols R).pk = cyclePk c R := rfl
theorem cyclePacked_up : (cyclePacked c rows cols R).up = cycleUp c rows cols R := rfl
theorem cycleUnpacked_en : (cycleUnpacked c rows cols R).en = cycleEn c rows cols R := rfl
theorem cycleEncoded_de : (cycleEncoded c rows cols R).de = cycleDe c rows cols R := rfl

/-! Of each unit nothing is delivered before its queue is emptied, and then all that it has emitted. -/

theorem cycleOffered_pkBeats : beatsSinceReset (cycleOffered c rows cols R).pkLog = [] :=
  beatsSinceReset_logAccepted _ []
theorem cyclePacked_upBeats : beatsSinceReset (cyclePacked c rows cols R).upLog = [] :=
  beatsSinceReset_logAccepted _ (cycleOffered c rows cols R).upLog
theorem cycleUnpacked_enBeats : beatsSinceReset (cycleUnpacked c rows cols R).enLog = [] :=
  beatsSinceReset_logAccepted _ (cyclePacked c rows cols R).enLog
theorem cycleEncoded_deBeats : beatsSinceReset (cycleEncoded c rows cols R).deLog = [] :=
  beatsSinceReset_logAccepted _ (cycleUnpacked c rows cols R).deLog

theorem cycleEnd_pkBeats : beatsSinceReset (cycleEnd c rows cols R).pkLog = (cyclePk c R).outq :=
  (beatsSinceReset_logDelivered _ (cycleOffered c rows cols R).pkLog).trans
    (by rw [cycleOffered_pkBeats, List.nil_append]; rfl)
theorem cycleEnd_upBeats : beatsSinceReset (cycleEnd c rows cols R).upLog = (cycleUp c rows cols R).outq :=
  (beatsSinceReset_logDelivered _ (cyclePacked c rows cols R).upLog).trans
    (by rw [cyclePacked_upBeats, List.nil_append]; rfl)
theorem cycleEnd_enBeats : beatsSinceReset (cycleEnd c rows cols R).enLog = (cycleEn c rows cols R).outq :=
  (beatsSinceReset_logDelivered _ (cycleUnpacked c rows cols R).enLog).trans
    (by rw [cycleUnpacked_enBeats, List.nil_append]; rfl)
theorem cycleEnd_deBeats : beatsSinceReset (cycleEnd c rows cols R).deLog = (cycleDe c rows cols R).outq :=
  (beatsSinceReset_logDelivered _ (cycleEncoded c rows cols R).deLog).trans
    (by rw [cycleEncoded_deBeats, List.nil_append]; rfl)

/-- R200, R201: the events of a cycle, played from reset. -/
theorem plays_cycleScript : Plays (cycleScript c rows cols R) (State.resetWith c) (cycleEnd c rows cols R) := by
  have hstarts := ((plays_up_offer (.start (rows, cols)) (State.resetWith c)).append
    (plays_en_offer (.start ()) _)).append (plays_de_offer (.start (rows, cols)) _)
  have hoffers := hstarts.append (plays_pk_offers (pkFrame R) _)
  have hpk := plays_pkToUp (cycleOffered c rows cols R)
  have hup := plays_upToEn (cyclePacked c rows cols R)
  have hen := plays_enToDe (cycleUnpacked c rows cols R)
  have hde := plays_de_edges (cycleEncoded c rows cols R)
  rw [cycleOffered_pk] at hpk
  rw [cyclePacked_up] at hup
  rw [cycleUnpacked_en] at hen
  rw [cycleEncoded_de] at hde
  rw [cycleScript, cycle_eq_units]
  exact (((hoffers.append hpk).append hup).append hen).append hde

end

/-! ## No offer is left open (R249) -/

/-- An event that offers no op but one accepted at once. -/
def Event.leavesNoOffer : Event → Bool
  | .pk e => !e.sValid || e.accepts
  | .up e => !e.sValid || e.accepts
  | .en e => !e.sValid || e.accepts
  | .de e => !e.sValid || e.accepts
  | .link _ => true

theorem offersAccepted_of_forall {w : Nat} {edges : List (Edge w)} (h : ∀ e ∈ edges, (!e.sValid || e.accepts) = true) :
    offersAccepted edges = true := by
  induction edges with
  | nil => rfl
  | cons e edges ih =>
    rw [List.forall_mem_cons] at h
    rw [offersAccepted, h.1, ih h.2]
    rfl

theorem scriptAccepted_of_forall {script : List Event} (h : ∀ ev ∈ script, ev.leavesNoOffer = true) (u : UnitId) :
    scriptAccepted script u = true := by
  have hunit {w : Nat} {f : Event → Option (Edge w)}
      (hf : ∀ ev e, f ev = some e → ev.leavesNoOffer = (!e.sValid || e.accepts)) :
      offersAccepted (script.filterMap f) = true := by
    refine offersAccepted_of_forall fun e he => ?_
    obtain ⟨ev, hev, heq⟩ := List.mem_filterMap.mp he
    rw [← hf ev e heq]
    exact h ev hev
  cases u with
  | pk => exact hunit fun ev e heq => by cases ev <;> cases heq; rfl
  | up => exact hunit fun ev e heq => by cases ev <;> cases heq; rfl
  | en => exact hunit fun ev e heq => by cases ev <;> cases heq; rfl
  | de => exact hunit fun ev e heq => by cases ev <;> cases heq; rfl

theorem offer_leavesNoOffer (u : UnitId) (word : Nat) : (offer u word).leavesNoOffer = true := by cases u <;> rfl

theorem cycleScript_leavesNoOffer (c : Config) (rows cols : Dim) (R : List Byte) :
    ∀ ev ∈ cycleScript c rows cols R, ev.leavesNoOffer = true := by
  intro ev hev
  simp only [cycleScript, List.mem_append, List.mem_cons, List.not_mem_nil, or_false, List.mem_map,
    List.mem_replicate] at hev
  rcases hev with (((((rfl | rfl | rfl) | ⟨op, -, rfl⟩) | ⟨-, rfl⟩) | ⟨-, rfl⟩) | ⟨-, rfl⟩) | ⟨-, rfl⟩
  iterate 4 exact offer_leavesNoOffer _ _
  iterate 4 rfl

/-! ## The cycle is over (R249) -/

section
variable {D α : Type} [DecidableEq α] {u : UnitState D α}

/-- R249: a unit that has finished its frame is over when all it emitted is delivered. -/
theorem UnitState.Finished.over (h : u.Finished) {log : List (Obs α)} (hbeats : beatsSinceReset log = u.outq) :
    u.drained.over (seenSince [] log) = true := by
  obtain ⟨hidle, hshows⟩ := h
  simp [UnitState.over, seenSince, UnitState.drained, hbeats, hidle, hshows hidle]

end

/-- R249: after the cycle the run of every unit is over. -/
theorem cycleEnd_over (c : Config) (rows cols : Dim) (R : List Byte) (script : List Event) (u : UnitId) :
    State.unitOver { State.resetWith c with script := script } (cycleEnd c rows cols R) u = true := by
  cases u with
  | pk => exact (cyclePk_finished c R).over (cycleEnd_pkBeats c rows cols R)
  | up => exact (cycleUp_finished c rows cols R).over (cycleEnd_upBeats c rows cols R)
  | en => exact (cycleEn_finished c rows cols R).over (cycleEnd_enBeats c rows cols R)
  | de => exact (cycleDe_finished c rows cols R).over (cycleEnd_deBeats c rows cols R)

/-- R249: a script run to its end is over when it leaves no offer open and every unit used is over. -/
theorem runOver_of_steps {used : List UnitId} {s t : State} (h : steps s.script.length s = .next t)
    (hall : ∀ u ∈ used, scriptAccepted s.script u = true ∧ s.unitOver t u = true) : runOver used s = true := by
  rw [runOver, h, List.all_eq_true]
  intro u hu
  rw [Bool.and_eq_true]
  exact hall u hu

/-- Settles O60: an idle unit shows the DONE it emitted last, and the cycle's events leave every unit so. -/
theorem runsEndWithDone : Obligations.RunsEndWithDone := by
  refine ⟨fun s => coherent_over_iff, fun c rows cols R => ?_⟩
  have hsteps := (plays_cycleScript c rows cols R).steps_eq rfl
  have hoffers := scriptAccepted_of_forall (cycleScript_leavesNoOffer c rows cols R)
  rw [cycle_pk_eq_outq, cycle_up_eq_outq, cycle_en_eq_outq, cycle_de_eq_outq]
  exact ⟨runOver_of_steps hsteps fun u _ => ⟨hoffers u, cycleEnd_over c rows cols R _ u⟩, cycleEnd c rows cols R, hsteps,
    rfl, cycleEnd_pkBeats c rows cols R, cycleEnd_upBeats c rows cols R, cycleEnd_enBeats c rows cols R,
    cycleEnd_deBeats c rows cols R⟩

end Sys2Proof.Machine
end
